-- ==== Sys2Proof/Word.lean ====
section
/-! DEFINITION. Sys2Proof/Word.lean: the byte, the byte string and the state word.

Rule R61 (20_memory.md): a byte is 8 bits and is the only addressable unit. Rule R16: `Bytes(n)` is a sequence of bytes,
index 0 first in time. Rule R22: a register wide enough for every algorithm holds words of 64 bits. -/

namespace Sys2Proof

/-- A byte: an unsigned integer of 8 bits (R16, R61). -/
abbrev Byte := BitVec 8

/-- A byte string or buffer, index 0 first in time and lowest in address (R16, R64). `Bytes(n)` of the spec is a byte
string whose length is `n`. -/
abbrev Bytes := List Byte

/-- An operand stream `A` or `B`: a byte string of fewer than `2^LEN_W` bytes, `LEN_W = 32` (R11, R60, R61, D20). -/
abbrev Operand := { s : Bytes // s.length < 2 ^ 32 }

/-- The operand of no bytes: what the host hands over where a command has no use for one (R90). -/
abbrev Operand.empty : Operand := ⟨[], Nat.two_pow_pos 32⟩

/-- A word of the chaining value, in the register that is wide enough for every algorithm (R22). Where the algorithm's
words have 32 bits, the high half is zero: it does not exist architecturally. -/
abbrev Word := BitVec 64

end Sys2Proof
end

