-- ==== Sys2Proof/Syntax.lean ====
section
/-! DEFINITION. Sys2Proof/Syntax.lean: the closed sets of the spec and the fifteen commands.

The command word `W` names a unit, a lifecycle call and, for four commands, a digest tag (R90, R91). The byte strings `A`,
`B` and the scalar `N` are operands of the transaction and not part of the word (R90), so they are no arguments of `Instr`. -/

namespace Sys2Proof

/-- The digest algorithm set `ALGS` (R7): closed, six members. -/
inductive Alg where
  | md5 | sha1 | sha224 | sha256 | sha384 | sha512
  deriving DecidableEq, Repr, Inhabited

/-- The compression functions (R9, R139): SHA-224 and SHA-256 take the same one, and SHA-384 and SHA-512 take the same one. -/
inductive Transform where
  | md5 | sha1 | sha256 | sha512
  deriving DecidableEq, Repr, Inhabited

/-- The byte order `END` of an algorithm (R8). -/
inductive ByteOrder where
  | big | little
  deriving DecidableEq, Repr

/-- The units a command can address (R92). -/
inductive UnitTag where
  | dig | hmac | kdf
  deriving DecidableEq, Repr

/-- The lifecycle calls (R93). -/
inductive OpTag where
  | create | reset | update | finish | destroy
  deriving DecidableEq, Repr

/-- The fifteen commands of rule R98, one constructor per row of the opcode table. The four commands of rule R95 carry
their 8-bit field `ALG`, as is (R97). -/
inductive Instr where
  | digCreate (tag : BitVec 8)
  | digReset
  | digUpdate
  | digFinish
  | digDestroy
  | hmacCreate (tag : BitVec 8)
  | hmacReset
  | hmacUpdate
  | hmacFinish
  | hmacDestroy
  | kdfCreate (tag : BitVec 8)
  | kdfReset (tag : BitVec 8)
  | kdfUpdate
  | kdfFinish
  | kdfDestroy
  deriving DecidableEq, Repr

end Sys2Proof
end

