-- ==== Sys2Proof/Machine/Contexts.lean ====
section
/-! DEFINITION. Sys2Proof/Machine/Contexts.lean: the contexts of 10_state.md as plain data.

Five fields of the spec's tables are views here, as the spec allows: the fill count `n` is the length of the list of
architectural buffer bytes (R25), `osz` and `bsz` are the table's columns for `alg` (R27), `pwlen` and `saltlen` are the
lengths of the stored byte strings (R34). -/

namespace Sys2Proof.Machine

/-- A Digest Context (R22). -/
structure DigestCtx where
  /-- 1 when the context exists. -/
  valid : Bool
  /-- The algorithm id. -/
  alg : Alg
  /-- The chaining value: `NW` words of `WW` bits. -/
  h : List Word
  /-- The architectural bytes `buf[0..n)` of the block buffer (R25). -/
  buf : Bytes
  /-- Low word of the bit counter, `CW` bits. -/
  lo : BitVec 64
  /-- High word of the bit counter, `CW` bits. -/
  hi : BitVec 64
  deriving DecidableEq, Repr, Inhabited

/-- An HMAC Context (R30). -/
structure HmacCtx where
  valid : Bool
  alg : Alg
  inner : DigestCtx
  outer : DigestCtx
  /-- `key' xor 0x36...`, `B` bytes. -/
  ipad : Bytes
  /-- `key' xor 0x5c...`, `B` bytes. -/
  opad : Bytes
  /-- The inner digest of the last `hmac_finish`, `O` bytes (R33). -/
  scratch : Bytes
  /-- 1 after `hmac_finish`, 0 after `hmac_reset`. -/
  fin : Bool
  deriving DecidableEq, Repr, Inhabited

/-- The KDF (PBKDF2) Context (R34). -/
structure KdfCtx where
  valid : Bool
  alg : Alg
  hmac : HmacCtx
  /-- Owned copy of the password. -/
  pw : Bytes
  /-- Owned copy of the salt. -/
  salt : Bytes
  /-- Iteration count. -/
  iter : BitVec 32
  /-- Block counter: four bytes, `ctr[0]` most significant (R36). -/
  ctr : Bytes
  /-- Output-block buffer, `O` bytes. -/
  blk : Bytes
  /-- KDF scratch: the last HMAC output, `O` bytes. -/
  scr : Bytes
  /-- Cursor: number of bytes of `blk` already emitted. -/
  idx : Nat
  deriving DecidableEq, Repr, Inhabited

end Sys2Proof.Machine
end

