-- ==== Sys2Proof/Config.lean ====
section
/-! DEFINITION. Sys2Proof/Config.lean: the open parameters of the spec and the free values, all without a body.

92_eei_decisions.md lists the open parameters: `compress`, `IV` (R9, R10), `PW_CAP`, `SALT_CAP` (R12). `HOST_BINDING` (R73)
carries no rule: its transaction-level form is the model's `State.events`, `State.cmd` and `State.result`. -/

namespace Sys2Proof.Config

/-- The parameters the rules are written over (00_scope.md section 4). The operations take them as an
argument, so that the same rules run over `Machine.params` in the block and over the standard values in the tests. -/
structure Params where
  /-- R9. The block is `B` bytes in stream order. The machine keeps `NW` words of `WW` bits of the answer
  (`Machine.fit`), so that any function here gives a `State(alg)`-valued one. -/
  compress : Transform → List Word → Bytes → List Word
  /-- R10. Per algorithm and not per transform: SHA-224 and SHA-256 have different values. -/
  iv : Alg → List Word
  /-- R12: capacity in bytes of the password store. -/
  pwCap : Nat
  /-- R12: capacity in bytes of the salt store. -/
  saltCap : Nat

/-- R9: the compression function of this block. -/
opaque compress : Transform → List Word → Bytes → List Word

/-- R10: the initial chaining values of this block. -/
opaque iv : Alg → List Word

/-- R12, D19: the password store has one byte more than this ("each at least 1"). -/
opaque pwCapPred : Nat

/-- R12, D19: the salt store has one byte more than this. -/
opaque saltCapPred : Nat

/-- What the fields of `DIG` hold after `DIG.DESTROY` or hardware reset: unspecified (R49, R51). A free value, one for
each count of `State.freeCount`. -/
opaque freeDigest : Nat → Machine.DigestCtx

/-- What the fields of `HM` hold after `HMAC.DESTROY` or hardware reset: unspecified (R49, R51). A free value. -/
opaque freeHmac : Nat → Machine.HmacCtx

/-- What the fields of `KDF` hold after `KDF.DESTROY` or hardware reset: unspecified (R49, R51). A free value. -/
opaque freeKdf : Nat → Machine.KdfCtx

/-- What the bytes of a buffer hold that CREATE makes and does not write: unspecified (R33, R47, R50). A free value, one for each
count of `State.freeCount` and each index. -/
opaque freeByte : Nat → Nat → Byte

end Sys2Proof.Config
end

