-- ==== Sys2Proof/Machine/Algorithms.lean ====
section
/-! DEFINITION. Sys2Proof/Machine/Algorithms.lean: the algorithm table of rule R8 and the constants drawn from it. -/

namespace Sys2Proof

/-- `B`: block size in bytes (R8). -/
def Alg.blockSize : Alg → Nat
  | .md5 => 64
  | .sha1 => 64
  | .sha224 => 64
  | .sha256 => 64
  | .sha384 => 128
  | .sha512 => 128

/-- `O`: output size in bytes (R8). -/
def Alg.outSize : Alg → Nat
  | .md5 => 16
  | .sha1 => 20
  | .sha224 => 28
  | .sha256 => 32
  | .sha384 => 48
  | .sha512 => 64

/-- `LF`: length-field size in bytes (R8). -/
def Alg.lenFieldSize : Alg → Nat
  | .md5 => 8
  | .sha1 => 8
  | .sha224 => 8
  | .sha256 => 8
  | .sha384 => 16
  | .sha512 => 16

/-- `END`: byte order of the length field and of the state words (R8, G1). -/
def Alg.byteOrder : Alg → ByteOrder
  | .md5 => .little
  | .sha1 => .big
  | .sha224 => .big
  | .sha256 => .big
  | .sha384 => .big
  | .sha512 => .big

/-- `WW / 8`: bytes of a state word (R8, G1). -/
def Alg.wordBytes : Alg → Nat
  | .md5 => 4
  | .sha1 => 4
  | .sha224 => 4
  | .sha256 => 4
  | .sha384 => 8
  | .sha512 => 8

/-- `WW`: bits of a state word (R8). -/
def Alg.wordBits (a : Alg) : Nat := 8 * a.wordBytes

/-- `NW`: number of state words (R8, G1). -/
def Alg.stateWords : Alg → Nat
  | .md5 => 4
  | .sha1 => 5
  | .sha224 => 8
  | .sha256 => 8
  | .sha384 => 8
  | .sha512 => 8

/-- `CW = 4 * LF`: width in bits of each word of the bit counter (R13). -/
def Alg.ctrBits (a : Alg) : Nat := 4 * a.lenFieldSize

/-- `M = 2^CW` (R122). -/
def Alg.ctrModulus (a : Alg) : Nat := 2 ^ a.ctrBits

/-- The compression function an algorithm takes (R9, R139). -/
def Alg.transform : Alg → Transform
  | .md5 => .md5
  | .sha1 => .sha1
  | .sha224 => .sha256
  | .sha256 => .sha256
  | .sha384 => .sha512
  | .sha512 => .sha512

/-- `PAD(alg)`: `0x80`, then zeros, `B` bytes in all (R46). -/
def Alg.pad (a : Alg) : Bytes := 0x80#8 :: List.replicate (a.blockSize - 1) 0#8

end Sys2Proof
end

