-- ==== Sys2Proof/Machine/State.lean ====
section
/-! DEFINITION. Sys2Proof/Machine/State.lean: the state of the block, the command port in front of it, and reset.

Rule R20 gives the architectural state: `DIG`, `HM`, `KDF`, `STATUS`, and nothing else. The other fields are the model's own:
the transactions the host is going to issue, the one being executed, the one result last returned, and the count that draws
free values. -/

namespace Sys2Proof.Machine

/-- The status codes of rule R231. `invalidKeySize` and `invalidIVSize` are in the numbering and never raised (R238). -/
inductive StatusCode where
  | ok | error | invalidArgument | invalidAlgorithm | invalidKeySize | invalidIVSize | outOfMemory | sourceExhausted
  deriving DecidableEq, Repr

/-- A command transaction as the host issues it: the word `W`, the byte strings `A`, `B` and the scalar `N` (R6, R11, R90). -/
structure Command where
  w : BitVec 32
  a : Operand
  b : Operand
  n : BitVec 32
  deriving DecidableEq, Repr

/-- What a command returns: `ST` and `OUT` (R6). -/
structure Reply where
  st : StatusCode
  out : Bytes
  deriving DecidableEq, Repr

/-- What the host does next. -/
inductive HostEvent where
  /-- Issue a command and wait for its result (R6). -/
  | command (c : Command)
  /-- Hardware reset (R270); `inProgress` is the command it finds running, if any. -/
  | hardwareReset (inProgress : Option Command)
  /-- Start `second` before `first` has returned (R76, R275): not a supported use. -/
  | overlap (first second : Command)
  deriving DecidableEq, Repr

/-- The register `STATUS` (R20, R41). -/
structure Status where
  code : BitVec 4
  warn : Bool
  err : Bool
  deriving DecidableEq, Repr

/-- The state of the machine. -/
structure State where
  /-- The stand-alone Digest Context `DIG`. -/
  dig : DigestCtx
  /-- The HMAC Context `HM`, which owns two Digest Contexts. -/
  hm : HmacCtx
  /-- The KDF Context `KDF`, which owns an HMAC Context. -/
  kdf : KdfCtx
  /-- `STATUS`. -/
  status : Status
  /-- Model's own: what the host is going to do, first event first. -/
  events : List HostEvent
  /-- Model's own: the transaction being executed; its operands are stable for the whole command (R63, R277). -/
  cmd : Command
  /-- Model's own: the result of the most recent command, not yet any after reset. -/
  result : Option Reply
  /-- Model's own: how often unspecified fields have been given free values. -/
  freeCount : Nat
  deriving DecidableEq, Repr

/-- Why the machine can stop: there is one reason. -/
inductive Fault where
  /-- Raised by `step` when the host starts a command before the previous one has returned (R76, R275). The spec gives
  overlapping commands no meaning ("a model has no move for them"). Safe: no behaviour is claimed for it. -/
  | overlappingCommands
  deriving DecidableEq, Repr

/-- Why the model can decline an instruction. -/
inductive Refusal where
  /-- Raised by `exec` for an instruction that has no meaning yet; no instruction is left so. Safe. -/
  | notModelled (mnemonic : String)
  deriving DecidableEq, Repr

/-- The three outcomes of a step of this machine. -/
abbrev Outcome := Host.Outcome State Fault Refusal

/-- An absent Digest Context as reset leaves it (R49): `valid` is 0; the other values are the model's choice, zero in the widths
of MD5, the algorithm with the code 0 (notes/assumptions/1.md). -/
def DigestCtx.reset : DigestCtx :=
  { valid := false, alg := .md5, h := List.replicate 4 0, buf := [], lo := 0, hi := 0 }

/-- An absent HMAC Context as reset leaves it (R49); values other than `valid` are the model's choice. -/
def HmacCtx.reset : HmacCtx :=
  { valid := false, alg := .md5, inner := DigestCtx.reset, outer := DigestCtx.reset,
    ipad := List.replicate 64 0, opad := List.replicate 64 0, scratch := List.replicate 16 0, fin := false }

/-- The absent KDF Context as reset leaves it (R49); values other than `valid` are the model's choice. -/
def KdfCtx.reset : KdfCtx :=
  { valid := false, alg := .md5, hmac := HmacCtx.reset, pw := [], salt := [], iter := 0, ctr := List.replicate 4 0,
    blk := List.replicate 16 0, scr := List.replicate 16 0, idx := 0 }

/-- `STATUS` after hardware reset (R41, R49). -/
def Status.reset : Status := { code := 0, warn := false, err := false }

/-- The machine right after hardware reset, with nothing issued yet (R49, R270, R271). -/
def State.reset : State :=
  { dig := DigestCtx.reset, hm := HmacCtx.reset, kdf := KdfCtx.reset, status := Status.reset,
    events := [], cmd := { w := 0, a := Operand.empty, b := Operand.empty, n := 0 }, result := none, freeCount := 0 }

end Sys2Proof.Machine
end

