-- ==== Sys2Proof/Machine/Operands.lean ====
section
/-! DEFINITION. Sys2Proof/Machine/Operands.lean: operand access, byte orders and byte-string operations (R16, R60 to R68, R97).

All integers are unsigned and nothing is ever sign-extended (R16, R97). -/

namespace Sys2Proof.Machine

/-- The operand stream `A` of the command being executed (R62, R96). -/
abbrev opA (s : State) : Bytes := s.cmd.a.val

/-- The operand stream `B` of the command being executed (R62, R96). -/
abbrev opB (s : State) : Bytes := s.cmd.b.val

/-- The scalar `N` of the command being executed, used as is (R97). -/
abbrev opN (s : State) : BitVec 32 := s.cmd.n

/-- `0^k` (R16). -/
def zeros (k : Nat) : Bytes := List.replicate k 0#8

/-- `le(n, v)`: byte 0 is `v[7:0]` (R16). -/
def le : Nat → Nat → Bytes
  | 0, _ => []
  | n + 1, v => BitVec.ofNat 8 v :: le n (v / 256)

/-- `be(n, v)`: byte 0 is the most significant one (R16). -/
def be (n v : Nat) : Bytes := (le n v).reverse

/-- `int_le(s)`, the inverse of `le` (R16). -/
def intLe : Bytes → Nat
  | [] => 0
  | b :: bs => b.toNat + 256 * intLe bs

/-- `int_be(s)`, the inverse of `be` (R16, R36). -/
def intBe (s : Bytes) : Nat := intLe s.reverse

/-- `enc(END, n, v)` (R16). -/
def enc (order : ByteOrder) (n v : Nat) : Bytes :=
  match order with
  | .big => be n v
  | .little => le n v

/-- Exclusive-or of two byte strings of equal length, byte by byte (R16). -/
def xorBytes (s t : Bytes) : Bytes := List.zipWith (· ^^^ ·) s t

/-- Exclusive-or of every byte with one constant byte (R162). -/
def xorConst (s : Bytes) (b : Byte) : Bytes := s.map (· ^^^ b)

/-- The cursor form `k.blk[k.idx]` of rule R81 (c). The index is within bounds in every state of the invariant (R71). -/
def byteAt (s : Bytes) (i : Nat) : Byte := s.getD i 0#8

end Sys2Proof.Machine
end

