-- ==== Sys2Proof/Machine/DigestOps.lean ====
section
/-! DEFINITION. Sys2Proof/Machine/DigestOps.lean: the internal operations of the Digest Engine (40_digest.md rules R120 to
R129). They are generic in the algorithm (R120) and none of them has a failure path. -/

namespace Sys2Proof.Machine

open Config (Params)

/-- `c.n`: the count of valid bytes in the block buffer (R22, R25). -/
abbrev DigestCtx.n (c : DigestCtx) : Nat := c.buf.length

/-- `c.osz` (R27). -/
abbrev DigestCtx.osz (c : DigestCtx) : Nat := c.alg.outSize

/-- `c.bsz` (R27). -/
abbrev DigestCtx.bsz (c : DigestCtx) : Nat := c.alg.blockSize

/-- `c.hi * 2^CW + c.lo`: total bits processed (R24). -/
def DigestCtx.total (c : DigestCtx) : Nat := c.hi.toNat * c.alg.ctrModulus + c.lo.toNat

/-- A word cut to the `WW` bits of the algorithm; the high part of the register does not exist (R22). -/
def fitWord (a : Alg) (w : Word) : Word := (w.setWidth a.wordBits).setWidth 64

/-- `State(alg)`: an array of `NW` words of `WW` bits (R9). The identity on such an array. -/
def fit (a : Alg) (ws : List Word) : List Word := (List.range a.stateWords).map fun i => fitWord a (ws.getD i 0#64)

/-- `IV(alg)` (R10). -/
def iv (P : Params) (a : Alg) : List Word := fit a (P.iv a)

/-- `compress(alg)(h, block)` (R9). -/
def compress (P : Params) (a : Alg) (h : List Word) (block : Bytes) : List Word := fit a (P.compress a.transform h block)

/-- `dig_init(c)` (R121). No byte of `buf` is architectural when `n = 0`. -/
def digInit (P : Params) (c : DigestCtx) : DigestCtx := { c with h := iv P c.alg, buf := [], lo := 0, hi := 0 }

/-- `ctr_add(c, L)` (R122): advance the bit counter by `8*L` bits, with the carry of the low word and the high part of
`8*L` into the high word. -/
def ctrAdd (c : DigestCtx) (len : Nat) : DigestCtx :=
  let m := c.alg.ctrModulus
  let add := 8 * len
  let newLo := (c.lo.toNat + add % m) % m
  let carry := if newLo < c.lo.toNat then 1 else 0
  { c with lo := BitVec.ofNat 64 newLo, hi := BitVec.ofNat 64 ((c.hi.toNat + carry + add / m) % m) }

/-- The top-off of `dig_update` (R123): what is left of `data` afterwards comes second. -/
def topOff (P : Params) (c : DigestCtx) (data : Bytes) : DigestCtx × Bytes :=
  if c.n = 0 then (c, data)
  else
    let take := min (c.bsz - c.n) data.length
    let filled := c.buf ++ data.take take
    if filled.length = c.bsz then
      ({ c with h := compress P c.alg c.h filled, buf := [] }, data.drop take)
    else ({ c with buf := filled }, data.drop take)

/-- The chaining value after `q` whole blocks taken from the front of `data` (R123, R124). -/
def absorb (P : Params) (a : Alg) : Nat → List Word → Bytes → List Word
  | 0, h, _ => h
  | q + 1, h, data => absorb P a q (compress P a h (data.take a.blockSize)) (data.drop a.blockSize)

/-- The whole blocks straight from `data`, then the trailing partial block (R123). -/
def absorbRest (P : Params) (c : DigestCtx) (data : Bytes) : DigestCtx :=
  let q := data.length / c.bsz
  let tail := data.drop (q * c.bsz)
  { c with h := absorb P c.alg q c.h data, buf := if tail = [] then c.buf else tail }

/-- `dig_update(c, data)` (R123): "update with zero length is a no-op". -/
def digUpdate (P : Params) (c : DigestCtx) (data : Bytes) : DigestCtx :=
  if data.length = 0 then c
  else
    let topped := topOff P (ctrAdd c data.length) data
    absorbRest P topped.1 topped.2

/-- `padlen(c)` (R125), with `T = B - LF`. -/
def padlen (c : DigestCtx) : Nat :=
  let t := c.bsz - c.alg.lenFieldSize
  if c.n < t then t - c.n else c.bsz + t - c.n

/-- `lenfield(c)` (R126). -/
def lenfield (c : DigestCtx) : Bytes := enc c.alg.byteOrder c.alg.lenFieldSize c.total

/-- The bytes of the state words, word `h[0]` first, cut to the output size (R66). -/
def serializeWords (a : Alg) (h : List Word) : Bytes :=
  ((h.map fun w => enc a.byteOrder a.wordBytes w.toNat).flatten).take a.outSize

/-- `serialize(c)` (R127). -/
def serialize (c : DigestCtx) : Bytes := serializeWords c.alg c.h

/-- `dig_finish(c)` (R128): the length field is the counter on entry, captured before any padding is appended. -/
def digFinish (P : Params) (c : DigestCtx) : Bytes × DigestCtx :=
  let lf := lenfield c
  let padded := digUpdate P c (c.alg.pad.take (padlen c))
  let done := digUpdate P padded lf
  (serialize done, done)

end Sys2Proof.Machine
end

