-- ==== Sys2Proof/WellFormed.lean ====
section
/-! DEFINITION. Sys2Proof/WellFormed.lean: which instructions are commands of the spec.

There is one check: the digest tag of the four commands that use `ALG` (R95) is one of 0..5 (R94). -/

namespace Sys2Proof

/-- Rule R94: tags 6..255 are unrecognised. -/
def tagInRange (tag : BitVec 8) : Bool := decide (tag.toNat < 6)

/-- An instruction is well formed when its word is no illegal word of rule R99. -/
def Instr.wellFormed : Instr → Bool
  | .digCreate tag => tagInRange tag
  | .digReset => true
  | .digUpdate => true
  | .digFinish => true
  | .digDestroy => true
  | .hmacCreate tag => tagInRange tag
  | .hmacReset => true
  | .hmacUpdate => true
  | .hmacFinish => true
  | .hmacDestroy => true
  | .kdfCreate tag => tagInRange tag
  | .kdfReset tag => tagInRange tag
  | .kdfUpdate => true
  | .kdfFinish => true
  | .kdfDestroy => true

end Sys2Proof
end

