-- ==== Sys2Proof/Decode.lean ====
section
/-! DEFINITION. Sys2Proof/Decode.lean: the command word, read and written.

Fields of `W` (R91): `UNIT` 31:28, `OP` 27:24, `ALG` 23:16, bits 15:0 zero. The decoder makes checks 1 to 5 of rule R239 in
that order and rejects by name (R99). -/

namespace Sys2Proof

/-- The illegal words of rule R99, in the order they are tested. -/
inductive DecodeError where
  /-- `UNIT` in 3..15. -/
  | reservedUnit
  /-- `OP` in 5..15. -/
  | reservedOp
  /-- `W[15:0]` is not zero. -/
  | nonzeroLowBits
  /-- `ALG` is not zero on a command that does not use it. -/
  | algNotUsed
  /-- `ALG` in 6..255 on a command that uses it. -/
  | unrecognisedAlg
  deriving DecidableEq, Repr

/-- Rule R7: the tag of an algorithm. -/
def Alg.tag : Alg → BitVec 8
  | .md5 => 0
  | .sha1 => 1
  | .sha224 => 2
  | .sha256 => 3
  | .sha384 => 4
  | .sha512 => 5

/-- Rule R94: the algorithm of a tag; tags 6..255 are unrecognised. -/
def Alg.ofTag (tag : BitVec 8) : Option Alg :=
  match tag.toNat with
  | 0 => some .md5
  | 1 => some .sha1
  | 2 => some .sha224
  | 3 => some .sha256
  | 4 => some .sha384
  | 5 => some .sha512
  | _ => none

/-- Rule R92: the unit of a `UNIT` code; 3..15 are reserved. -/
def UnitTag.ofCode (code : Nat) : Option UnitTag :=
  match code with
  | 0 => some .dig
  | 1 => some .hmac
  | 2 => some .kdf
  | _ => none

/-- Rule R92. -/
def UnitTag.code : UnitTag → Nat
  | .dig => 0
  | .hmac => 1
  | .kdf => 2

/-- Rule R93: the call of an `OP` code; 5..15 are reserved. -/
def OpTag.ofCode (code : Nat) : Option OpTag :=
  match code with
  | 0 => some .create
  | 1 => some .reset
  | 2 => some .update
  | 3 => some .finish
  | 4 => some .destroy
  | _ => none

/-- Rule R93. -/
def OpTag.code : OpTag → Nat
  | .create => 0
  | .reset => 1
  | .update => 2
  | .finish => 3
  | .destroy => 4

/-- The fields of the command word (R91). -/
def unitField (w : BitVec 32) : Nat := (w.extractLsb' 28 4).toNat
def opField (w : BitVec 32) : Nat := (w.extractLsb' 24 4).toNat
def algField (w : BitVec 32) : BitVec 8 := w.extractLsb' 16 8
def zeroField (w : BitVec 32) : BitVec 16 := w.extractLsb' 0 16

/-- Rule R95: the commands that use `ALG` are the three CREATE and `KDF.RESET`. -/
def usesAlg : UnitTag → OpTag → Bool
  | _, .create => true
  | .kdf, .reset => true
  | _, _ => false

/-- Rule R98: the command of a unit, a call and an `ALG` field. -/
def Instr.ofFields : UnitTag → OpTag → BitVec 8 → Instr
  | .dig, .create, tag => .digCreate tag
  | .dig, .reset, _ => .digReset
  | .dig, .update, _ => .digUpdate
  | .dig, .finish, _ => .digFinish
  | .dig, .destroy, _ => .digDestroy
  | .hmac, .create, tag => .hmacCreate tag
  | .hmac, .reset, _ => .hmacReset
  | .hmac, .update, _ => .hmacUpdate
  | .hmac, .finish, _ => .hmacFinish
  | .hmac, .destroy, _ => .hmacDestroy
  | .kdf, .create, tag => .kdfCreate tag
  | .kdf, .reset, tag => .kdfReset tag
  | .kdf, .update, _ => .kdfUpdate
  | .kdf, .finish, _ => .kdfFinish
  | .kdf, .destroy, _ => .kdfDestroy

/-- The decoder (R99; checks 1 to 5 of R239): the same in every state (R101). -/
def decode (w : BitVec 32) : Except DecodeError Instr :=
  match UnitTag.ofCode (unitField w) with
  | none => .error .reservedUnit
  | some u =>
    match OpTag.ofCode (opField w) with
    | none => .error .reservedOp
    | some o =>
      if zeroField w ≠ 0 then .error .nonzeroLowBits
      else if usesAlg u o = false ∧ algField w ≠ 0 then .error .algNotUsed
      else if usesAlg u o = true ∧ tagInRange (algField w) = false then .error .unrecognisedAlg
      else .ok (Instr.ofFields u o (algField w))

/-- The unit an instruction addresses (R98). -/
def Instr.unit : Instr → UnitTag
  | .digCreate _ => .dig
  | .digReset => .dig
  | .digUpdate => .dig
  | .digFinish => .dig
  | .digDestroy => .dig
  | .hmacCreate _ => .hmac
  | .hmacReset => .hmac
  | .hmacUpdate => .hmac
  | .hmacFinish => .hmac
  | .hmacDestroy => .hmac
  | .kdfCreate _ => .kdf
  | .kdfReset _ => .kdf
  | .kdfUpdate => .kdf
  | .kdfFinish => .kdf
  | .kdfDestroy => .kdf

/-- The lifecycle call of an instruction (R98). -/
def Instr.op : Instr → OpTag
  | .digCreate _ => .create
  | .digReset => .reset
  | .digUpdate => .update
  | .digFinish => .finish
  | .digDestroy => .destroy
  | .hmacCreate _ => .create
  | .hmacReset => .reset
  | .hmacUpdate => .update
  | .hmacFinish => .finish
  | .hmacDestroy => .destroy
  | .kdfCreate _ => .create
  | .kdfReset _ => .reset
  | .kdfUpdate => .update
  | .kdfFinish => .finish
  | .kdfDestroy => .destroy

/-- The `ALG` field of an instruction: zero where the command does not use it (R95). -/
def Instr.tag : Instr → BitVec 8
  | .digCreate tag => tag
  | .digReset => 0
  | .digUpdate => 0
  | .digFinish => 0
  | .digDestroy => 0
  | .hmacCreate tag => tag
  | .hmacReset => 0
  | .hmacUpdate => 0
  | .hmacFinish => 0
  | .hmacDestroy => 0
  | .kdfCreate tag => tag
  | .kdfReset tag => tag
  | .kdfUpdate => 0
  | .kdfFinish => 0
  | .kdfDestroy => 0

/-- The encoder, `W = UNIT * 2^28 + OP * 2^24 + ALG * 2^16` (R91). -/
def encode (i : Instr) : BitVec 32 :=
  BitVec.ofNat 32 (i.unit.code * 2 ^ 28 + i.op.code * 2 ^ 24 + i.tag.toNat * 2 ^ 16)

/-- One row of the opcode map of rule R98. -/
structure OpcodeRow where
  unit : UnitTag
  op : OpTag
  matchWord : BitVec 32
  mask : BitVec 32
  deriving DecidableEq, Repr

/-- The opcode map of rule R98, row by row. -/
def opcodeMap : List OpcodeRow :=
  [ ⟨.dig, .create, 0x00000000#32, 0xFF00FFFF#32⟩,
    ⟨.dig, .reset, 0x01000000#32, 0xFFFFFFFF#32⟩,
    ⟨.dig, .update, 0x02000000#32, 0xFFFFFFFF#32⟩,
    ⟨.dig, .finish, 0x03000000#32, 0xFFFFFFFF#32⟩,
    ⟨.dig, .destroy, 0x04000000#32, 0xFFFFFFFF#32⟩,
    ⟨.hmac, .create, 0x10000000#32, 0xFF00FFFF#32⟩,
    ⟨.hmac, .reset, 0x11000000#32, 0xFFFFFFFF#32⟩,
    ⟨.hmac, .update, 0x12000000#32, 0xFFFFFFFF#32⟩ ] ++
  [ ⟨.hmac, .finish, 0x13000000#32, 0xFFFFFFFF#32⟩,
    ⟨.hmac, .destroy, 0x14000000#32, 0xFFFFFFFF#32⟩,
    ⟨.kdf, .create, 0x20000000#32, 0xFF00FFFF#32⟩,
    ⟨.kdf, .reset, 0x21000000#32, 0xFF00FFFF#32⟩,
    ⟨.kdf, .update, 0x22000000#32, 0xFFFFFFFF#32⟩,
    ⟨.kdf, .finish, 0x23000000#32, 0xFFFFFFFF#32⟩,
    ⟨.kdf, .destroy, 0x24000000#32, 0xFFFFFFFF#32⟩ ]

/-- Rule R98: a word selects a row when `W & mask = match`. -/
def OpcodeRow.selects (r : OpcodeRow) (w : BitVec 32) : Bool := w &&& r.mask == r.matchWord

/-- The instruction the decoder reads from a command word given as a number of `nbits` bits. A command word is 32 bits
(R90); it has no byte order of its own (R68), so the number is the word. -/
def decodeTableWord (nbits w : Nat) : Option Instr :=
  if 32 < nbits then none
  else
    match decode (BitVec.ofNat 32 (w % 2 ^ nbits)) with
    | .ok i => some i
    | .error _ => none

end Sys2Proof
end

