-- ==== Sys2Proof/Machine/Flags.lean ====
section
/-! DEFINITION. Sys2Proof/Machine/Flags.lean: the status codes, `STATUS` and the `PHASE` view (R41 to R45, R231, R241).

There are no arithmetic condition codes (R45): the flags are the `valid` and `fin` bits of the contexts, `WARN` and `ERR`. -/

namespace Sys2Proof.Machine

/-- The number of a status code (R231). -/
def StatusCode.code : StatusCode → BitVec 4
  | .ok => 0
  | .error => 1
  | .invalidArgument => 2
  | .invalidAlgorithm => 3
  | .invalidKeySize => 4
  | .invalidIVSize => 5
  | .outOfMemory => 6
  | .sourceExhausted => 7

/-- The status-return step on the register: `CODE <- ST`, and `ERR <- 1` if `ST` is not `Ok` (R241). -/
def Status.afterReturn (st : StatusCode) (r : Status) : Status :=
  { r with code := st.code, err := r.err || decide (st ≠ .ok) }

/-- `STATUS.WARN <- 1` (R42, R245). -/
def Status.withWarning (r : Status) : Status := { r with warn := true }

/-- `STATUS` as the host reads it (R41): `CODE` in bits 3:0, `WARN` bit 4, `ERR` bit 5, bits 31:6 read as 0. -/
def Status.word (r : Status) : BitVec 32 :=
  BitVec.ofNat 32 (r.code.toNat + (if r.warn then 16 else 0) + (if r.err then 32 else 0))

/-- `PHASE = {DIG.valid, HM.valid, HM.fin, KDF.valid}` from bit 0 up; `HM.fin` reads 0 while `HM.valid = 0` (R44, R49). -/
def phase (s : State) : BitVec 4 :=
  BitVec.ofNat 4 ((if s.dig.valid then 1 else 0) + (if s.hm.valid then 2 else 0)
    + (if s.hm.valid && s.hm.fin then 4 else 0) + (if s.kdf.valid then 8 else 0))

/-- The lifecycle phases of rule R40. The units DIG and KDF are never `finished`. -/
inductive Phase where
  | absent | ready | finished
  deriving DecidableEq, Repr

/-- The phase of unit DIG (R40). -/
def digPhase (s : State) : Phase := if s.dig.valid then .ready else .absent

/-- The phase of unit HMAC (R40). -/
def hmacPhase (s : State) : Phase :=
  if s.hm.valid then (if s.hm.fin then .finished else .ready) else .absent

/-- The phase of unit KDF (R40). -/
def kdfPhase (s : State) : Phase := if s.kdf.valid then .ready else .absent

/-- The phase of a unit (R40). -/
def unitPhase (u : UnitTag) (s : State) : Phase :=
  match u with
  | .dig => digPhase s
  | .hmac => hmacPhase s
  | .kdf => kdfPhase s

/-- The lifecycle table of rule R40: the phase a call leads to when it succeeds, none where the table does not list it. -/
def lifecycle : UnitTag → Phase → OpTag → Option Phase
  | _, .absent, .create => some .ready
  | _, .absent, .destroy => some .absent
  | _, .absent, _ => none
  | _, .ready, .create => none
  | .hmac, .ready, .finish => some .finished
  | _, .ready, .destroy => some .absent
  | _, .ready, _ => some .ready
  | .hmac, .finished, .reset => some .ready
  | .hmac, .finished, .destroy => some .absent
  | _, .finished, _ => none

end Sys2Proof.Machine
end

