-- ==== Sys2Proof/Machine/Ops.lean ====
section
/-! DEFINITION. Sys2Proof/Machine/Ops.lean: the operations every command shares: accepting a transaction, the status return
(this block's whole exception mechanism, R230, R241), illegal words, hardware reset and the absent contexts it leaves. -/

namespace Sys2Proof.Machine

/-- The parameters of this block, from the open constants of Config: nothing in Lean can evaluate them. -/
def params : Config.Params :=
  { compress := Config.compress, iv := Config.iv, pwCap := Config.pwCapPred + 1, saltCap := Config.saltCapPred + 1 }

/-- The command port takes the next transaction: its operands stay in `cmd` until it returns (R6, R63). -/
def acceptCommand (c : Command) (rest : List HostEvent) (s : State) : State := { s with events := rest, cmd := c }

/-- The status-return step, performed last by every command, legal or not: `STATUS` is written and `(ST, OUT)` goes to the
host (R6, R241). No state is saved, no mode changes and control goes nowhere. -/
def returnStatus (st : StatusCode) (out : Bytes) (s : State) : State :=
  { s with status := s.status.afterReturn st, result := some { st := st, out := out } }

/-- `raise <Status>` of rule R230: no further state change, `OUT` empty, then the status return. -/
def raise (st : StatusCode) (s : State) : Outcome := .next (returnStatus st [] s)

/-- `return (ST, OUT)` of a command rule. -/
def complete (st : StatusCode) (out : Bytes) (s : State) : Outcome := .next (returnStatus st out s)

/-- `STATUS.WARN <- 1` on the machine (R42). -/
def surfaceWarning (s : State) : State := { s with status := s.status.withWarning }

/-- A buffer of `n` bytes that nothing has written yet: free values, drawn under the count `draw` (R33, R47, R60). -/
def freeBytes (draw n : Nat) : Bytes := (List.range n).map (Config.freeByte draw)

/-- The status an illegal word returns (R99). -/
def illegalStatus : DecodeError → StatusCode
  | .reservedUnit => .invalidAlgorithm
  | .reservedOp => .invalidArgument
  | .nonzeroLowBits => .invalidArgument
  | .algNotUsed => .invalidArgument
  | .unrecognisedAlg => .invalidAlgorithm

/-- An illegal word changes no context state: it returns a status and updates `STATUS` only (R99). -/
def illegalCommand (e : DecodeError) (s : State) : Outcome := raise (illegalStatus e) s

/-- A Digest Context that does not exist: `valid` is 0 and every other field is unspecified (R49, R51), the value `c`. -/
def DigestCtx.absent (c : DigestCtx) : DigestCtx := { c with valid := false }

/-- An HMAC Context that does not exist, its owned Digest Contexts with it (R174). -/
def HmacCtx.absent (m : HmacCtx) : HmacCtx :=
  { m with valid := false, inner := m.inner.absent, outer := m.outer.absent }

/-- A KDF Context that does not exist, its owned contexts with it (R204). -/
def KdfCtx.absent (k : KdfCtx) : KdfCtx := { k with valid := false, hmac := k.hmac.absent }

/-- `DIG` becomes absent; its other fields hold free values (R51). -/
def dropDig (s : State) : State :=
  { s with dig := (Config.freeDigest s.freeCount).absent, freeCount := s.freeCount + 1 }

/-- `HM` becomes absent, children included; the other fields hold free values (R51). -/
def dropHmac (s : State) : State :=
  { s with hm := (Config.freeHmac s.freeCount).absent, freeCount := s.freeCount + 1 }

/-- `KDF` becomes absent, children included; the other fields hold free values (R51). -/
def dropKdf (s : State) : State :=
  { s with kdf := (Config.freeKdf s.freeCount).absent, freeCount := s.freeCount + 1 }

/-- Hardware reset (R270): every `valid` bit and `STATUS` become 0, every other field is unspecified, and the results of a
command in progress are not delivered. -/
def hardwareReset (s : State) : State :=
  { dropKdf (dropHmac (dropDig s)) with status := Status.reset, result := none }

end Sys2Proof.Machine
end

