-- ==== Sys2Proof/Machine/Digest.lean ====
section
/-! DEFINITION. Sys2Proof/Machine/Digest.lean: the five commands of unit DIG (40_digest.md rules R130 to R134).

Each command is written over its parameters (`cmd…`); the meaning `exec…` runs it with the parameters of this block. -/

namespace Sys2Proof.Machine

open Config (Params)

/-- `DIG.CREATE` (R130). -/
def cmdDigCreate (P : Params) (tag : BitVec 8) (s : State) : Outcome :=
  match Alg.ofTag tag with
  | none => raise .invalidAlgorithm s
  | some a =>
    if s.dig.valid then raise .outOfMemory s
    else complete .ok [] { s with dig := { digInit P { s.dig with alg := a } with valid := true } }

/-- `DIG.RESET` (R131). -/
def cmdDigReset (P : Params) (s : State) : Outcome :=
  if s.dig.valid then complete .ok [] { s with dig := digInit P s.dig } else raise .invalidArgument s

/-- `DIG.UPDATE` (R132). -/
def cmdDigUpdate (P : Params) (s : State) : Outcome :=
  if s.dig.valid then complete .ok [] { s with dig := digUpdate P s.dig (opA s) } else raise .invalidArgument s

/-- `DIG.FINISH` (R133). -/
def cmdDigFinish (P : Params) (s : State) : Outcome :=
  if s.dig.valid then complete .ok (digFinish P s.dig).1 { s with dig := (digFinish P s.dig).2 }
  else raise .invalidArgument s

/-- `DIG.DESTROY` (R134). -/
def cmdDigDestroy (s : State) : Outcome :=
  if s.dig.valid then complete .ok [] (dropDig s) else complete .ok [] (surfaceWarning s)

/-- The meaning of `DIG.CREATE`. -/
def execDigCreate (tag : BitVec 8) (s : State) : Outcome := cmdDigCreate params tag s

/-- The meaning of `DIG.RESET`. -/
def execDigReset (s : State) : Outcome := cmdDigReset params s

/-- The meaning of `DIG.UPDATE`. -/
def execDigUpdate (s : State) : Outcome := cmdDigUpdate params s

/-- The meaning of `DIG.FINISH`. -/
def execDigFinish (s : State) : Outcome := cmdDigFinish params s

/-- The meaning of `DIG.DESTROY`. -/
def execDigDestroy (s : State) : Outcome := cmdDigDestroy s

end Sys2Proof.Machine
end

