-- ==== Sys2Proof/Machine/HmacOps.lean ====
section
/-! DEFINITION. Sys2Proof/Machine/HmacOps.lean: the internal operations of HMAC (41_hmac.md rules R160 to R165). -/

namespace Sys2Proof.Machine

open Config (Params)

/-- `hmac_init(m, alg)` (R160), with the new storage of `O` bytes for `scratch`, which holds no value yet (R33, R60). The pads
are written by the `hmac_reset` that follows. -/
def hmacInit (m : HmacCtx) (a : Alg) (scratch : Bytes) : HmacCtx :=
  { m with
    alg := a
    inner := { m.inner with alg := a, valid := true }
    outer := { m.outer with alg := a, valid := true }
    scratch := scratch
    fin := false }

/-- `derive_key(m, key)` (R161): a key longer than `B` bytes is hashed on the inner Digest Context; either way the key is
padded with zeros to `B` bytes. -/
def deriveKey (P : Params) (m : HmacCtx) (key : Bytes) : Bytes × HmacCtx :=
  if key.length > m.alg.blockSize then
    let hashed := digFinish P (digUpdate P (digInit P m.inner) key)
    (hashed.1 ++ zeros (m.alg.blockSize - m.alg.outSize), { m with inner := hashed.2 })
  else (key ++ zeros (m.alg.blockSize - key.length), m)

/-- The pads of rule R162. -/
def writePads (m : HmacCtx) (key' : Bytes) : HmacCtx :=
  { m with ipad := xorConst key' 0x36#8, opad := xorConst key' 0x5c#8 }

/-- `hmac_reset(m, key)` (R163): the inner digest is primed with `ipad`; the outer one is reset and not primed (C2). -/
def hmacReset (P : Params) (m : HmacCtx) (key : Bytes) : HmacCtx :=
  let derived := deriveKey P m key
  let m1 := writePads derived.2 derived.1
  { m1 with
    inner := digUpdate P (digInit P m1.inner) (m1.ipad.take m1.alg.blockSize)
    outer := digInit P m1.outer
    fin := false }

/-- `hmac_update(m, data)` (R164). -/
def hmacUpdate (P : Params) (m : HmacCtx) (data : Bytes) : HmacCtx := { m with inner := digUpdate P m.inner data }

/-- `hmac_finish(m)` (R165). -/
def hmacFinish (P : Params) (m : HmacCtx) : Bytes × HmacCtx :=
  let innerDone := digFinish P m.inner
  let scratch := innerDone.1
  let o1 := digUpdate P m.outer (m.opad.take m.alg.blockSize)
  let o2 := digUpdate P o1 (scratch.take m.alg.outSize)
  let outerDone := digFinish P o2
  (outerDone.1, { m with inner := innerDone.2, outer := outerDone.2, scratch := scratch, fin := true })

end Sys2Proof.Machine
end

