-- ==== Sys2Proof/Machine/Hmac.lean ====
section
/-! DEFINITION. Sys2Proof/Machine/Hmac.lean: the five commands of unit HMAC (41_hmac.md rules R170 to R174). -/

namespace Sys2Proof.Machine

open Config (Params)

/-- `HMAC.CREATE` (R170). The new `scratch` holds free values (R33). -/
def cmdHmacCreate (P : Params) (tag : BitVec 8) (s : State) : Outcome :=
  match Alg.ofTag tag with
  | none => raise .invalidAlgorithm s
  | some a =>
    if s.hm.valid then raise .outOfMemory s
    else
      let m := hmacInit s.hm a (freeBytes s.freeCount a.outSize)
      complete .ok [] { s with hm := { hmacReset P m (opA s) with valid := true }, freeCount := s.freeCount + 1 }

/-- `HMAC.RESET` (R171). -/
def cmdHmacReset (P : Params) (s : State) : Outcome :=
  if s.hm.valid then complete .ok [] { s with hm := hmacReset P s.hm (opA s) } else raise .invalidArgument s

/-- `HMAC.UPDATE` (R172). -/
def cmdHmacUpdate (P : Params) (s : State) : Outcome :=
  if s.hm.valid then
    if s.hm.fin then raise .error s else complete .ok [] { s with hm := hmacUpdate P s.hm (opA s) }
  else raise .invalidArgument s

/-- `HMAC.FINISH` (R173). -/
def cmdHmacFinish (P : Params) (s : State) : Outcome :=
  if s.hm.valid then
    if s.hm.fin then raise .error s
    else complete .ok (hmacFinish P s.hm).1 { s with hm := (hmacFinish P s.hm).2 }
  else raise .invalidArgument s

/-- `HMAC.DESTROY` (R174). -/
def cmdHmacDestroy (s : State) : Outcome :=
  if s.hm.valid then complete .ok [] (dropHmac s) else complete .ok [] (surfaceWarning s)

/-- The meaning of `HMAC.CREATE`. -/
def execHmacCreate (tag : BitVec 8) (s : State) : Outcome := cmdHmacCreate params tag s

/-- The meaning of `HMAC.RESET`. -/
def execHmacReset (s : State) : Outcome := cmdHmacReset params s

/-- The meaning of `HMAC.UPDATE`. -/
def execHmacUpdate (s : State) : Outcome := cmdHmacUpdate params s

/-- The meaning of `HMAC.FINISH`. -/
def execHmacFinish (s : State) : Outcome := cmdHmacFinish params s

/-- The meaning of `HMAC.DESTROY`. -/
def execHmacDestroy (s : State) : Outcome := cmdHmacDestroy s

end Sys2Proof.Machine
end

