-- ==== Sys2Proof/Machine/KdfOps.lean ====
section
/-! DEFINITION. Sys2Proof/Machine/KdfOps.lean: the internal operations of PBKDF2 (42_pbkdf2.md rules R190 to R194). -/

namespace Sys2Proof.Machine

open Config (Params)

/-- `k.pwlen` (R34). -/
abbrev KdfCtx.pwlen (k : KdfCtx) : Nat := k.pw.length

/-- `k.saltlen` (R34). -/
abbrev KdfCtx.saltlen (k : KdfCtx) : Nat := k.salt.length

/-- The first two lines of `KDF.CREATE` (R200): the algorithm and the HMAC Context, with new storage of `O` bytes for its `scratch`,
for `blk` and for `scr`, which hold no value yet (R47, R60). -/
def kdfInit (k : KdfCtx) (a : Alg) (scratch blk scr : Bytes) : KdfCtx :=
  { k with alg := a, hmac := { hmacInit k.hmac a scratch with valid := true }, blk := blk, scr := scr }

/-- `kdf_reset(k, pw, salt, iters)` (R191). `blk` and `scr` are not written. -/
def kdfReset (P : Params) (k : KdfCtx) (pw salt : Bytes) (iters : BitVec 32) : KdfCtx :=
  { k with
    pw := pw
    salt := salt
    iter := iters
    ctr := zeros 4
    hmac := hmacReset P k.hmac pw
    idx := k.alg.outSize }

/-- `ctr_inc(k)` (R192): the second component is true when the counter is exhausted; it is then saturated again. -/
def ctrInc (k : KdfCtx) : KdfCtx × Bool :=
  let c1 := (intBe k.ctr + 1) % 2 ^ 32
  if c1 = 0 then ({ k with ctr := List.replicate 4 0xFF#8 }, true) else ({ k with ctr := be 4 c1 }, false)

/-- One round of `derive_block` (R193): salt and block counter on round 0, the previous HMAC output on later rounds. -/
def kdfRound (P : Params) (j : Nat) (k : KdfCtx) : KdfCtx :=
  let m := hmacReset P k.hmac k.pw
  let fed :=
    if j = 0 then hmacUpdate P (hmacUpdate P m k.salt) (k.ctr.take 4) else hmacUpdate P m (k.scr.take k.alg.outSize)
  let done := hmacFinish P fed
  { k with hmac := done.2, scr := done.1, blk := xorBytes k.blk done.1 }

/-- Rounds `j, j+1, ...`, as many as the first argument says (R193). -/
def kdfRounds (P : Params) : Nat → Nat → KdfCtx → KdfCtx
  | 0, _, k => k
  | r + 1, j, k => kdfRounds P r (j + 1) (kdfRound P j k)

/-- `derive_block(k)` (R193). -/
def deriveBlock (P : Params) (k : KdfCtx) : KdfCtx :=
  { kdfRounds P k.iter.toNat 0 { k with blk := zeros k.alg.outSize } with idx := 0 }

/-- The head of one turn of `kdf_emit` (R194): when the block is used up the next one is derived, unless the counter is
exhausted (second component true). -/
def kdfRefill (P : Params) (k : KdfCtx) : KdfCtx × Bool :=
  if k.idx = k.alg.outSize then
    let inc := ctrInc k
    if inc.2 then (inc.1, true) else (deriveBlock P inc.1, false)
  else (k, false)

/-- `kdf_emit(k, want)` (R194): status, bytes emitted, state. -/
def kdfEmit (P : Params) : Nat → KdfCtx → StatusCode × Bytes × KdfCtx
  | 0, k => (.ok, [], k)
  | want + 1, k =>
    let refilled := kdfRefill P k
    if refilled.2 then (.sourceExhausted, [], refilled.1)
    else
      let k1 := refilled.1
      let rest := kdfEmit P want { k1 with idx := k1.idx + 1 }
      (rest.1, byteAt k1.blk k1.idx :: rest.2.1, rest.2.2)

end Sys2Proof.Machine
end

