-- ==== Sys2Proof/Machine/Kdf.lean ====
section
/-! DEFINITION. Sys2Proof/Machine/Kdf.lean: the five commands of unit KDF (42_pbkdf2.md rules R200 to R204). -/

namespace Sys2Proof.Machine

open Config (Params)

/-- Check 11 of rule R239: the password or the salt does not fit its store. -/
def overCapacity (P : Params) (pw salt : Bytes) : Bool := decide (pw.length > P.pwCap) || decide (salt.length > P.saltCap)

/-- `KDF.CREATE` (R200). The new `blk`, `scr` and HMAC `scratch` hold free values (R33, R47). -/
def cmdKdfCreate (P : Params) (tag : BitVec 8) (s : State) : Outcome :=
  match Alg.ofTag tag with
  | none => raise .invalidAlgorithm s
  | some a =>
    if opN s = 0 then raise .invalidArgument s
    else if s.kdf.valid then raise .outOfMemory s
    else if overCapacity P (opA s) (opB s) then raise .outOfMemory s
    else
      let k := kdfInit s.kdf a (freeBytes s.freeCount a.outSize) (freeBytes (s.freeCount + 1) a.outSize)
        (freeBytes (s.freeCount + 2) a.outSize)
      complete .ok []
        { s with kdf := { kdfReset P k (opA s) (opB s) (opN s) with valid := true }, freeCount := s.freeCount + 3 }

/-- `KDF.RESET` (R201). -/
def cmdKdfReset (P : Params) (tag : BitVec 8) (s : State) : Outcome :=
  match Alg.ofTag tag with
  | none => raise .invalidAlgorithm s
  | some a =>
    if s.kdf.valid = false then raise .invalidArgument s
    else if a ≠ s.kdf.alg then raise .invalidArgument s
    else if opN s = 0 then raise .invalidArgument s
    else if overCapacity P (opA s) (opB s) then raise .outOfMemory s
    else complete .ok [] { s with kdf := kdfReset P s.kdf (opA s) (opB s) (opN s) }

/-- `KDF.UPDATE` (R202). -/
def cmdKdfUpdate (P : Params) (s : State) : Outcome :=
  if s.kdf.valid then
    let r := kdfEmit P (opN s).toNat s.kdf
    complete r.1 r.2.1 { s with kdf := r.2.2 }
  else raise .invalidArgument s

/-- `KDF.FINISH` (R203): a no-op. -/
def cmdKdfFinish (s : State) : Outcome :=
  if s.kdf.valid then complete .ok [] s else raise .invalidArgument s

/-- `KDF.DESTROY` (R204). -/
def cmdKdfDestroy (s : State) : Outcome :=
  if s.kdf.valid then complete .ok [] (dropKdf s) else complete .ok [] (surfaceWarning s)

/-- The meaning of `KDF.CREATE`. -/
def execKdfCreate (tag : BitVec 8) (s : State) : Outcome := cmdKdfCreate params tag s

/-- The meaning of `KDF.RESET`. -/
def execKdfReset (tag : BitVec 8) (s : State) : Outcome := cmdKdfReset params tag s

/-- The meaning of `KDF.UPDATE`. -/
def execKdfUpdate (s : State) : Outcome := cmdKdfUpdate params s

/-- The meaning of `KDF.FINISH`. -/
def execKdfFinish (s : State) : Outcome := cmdKdfFinish s

/-- The meaning of `KDF.DESTROY`. -/
def execKdfDestroy (s : State) : Outcome := cmdKdfDestroy s

end Sys2Proof.Machine
end

