-- ==== Sys2Proof/Machine/Dispatch.lean ====
section
/-! DEFINITION. Sys2Proof/Machine/Dispatch.lean: one arm per constructor of Instr, each one call of its meaning. -/

namespace Sys2Proof.Machine

def exec (i : Instr) (s : State) : Host.Outcome State Fault Refusal :=
  match i with
  | .digCreate tag => Sys2Proof.Machine.execDigCreate tag s
  | .digReset => Sys2Proof.Machine.execDigReset s
  | .digUpdate => Sys2Proof.Machine.execDigUpdate s
  | .digFinish => Sys2Proof.Machine.execDigFinish s
  | .digDestroy => Sys2Proof.Machine.execDigDestroy s
  | .hmacCreate tag => Sys2Proof.Machine.execHmacCreate tag s
  | .hmacReset => Sys2Proof.Machine.execHmacReset s
  | .hmacUpdate => Sys2Proof.Machine.execHmacUpdate s
  | .hmacFinish => Sys2Proof.Machine.execHmacFinish s
  | .hmacDestroy => Sys2Proof.Machine.execHmacDestroy s
  | .kdfCreate tag => Sys2Proof.Machine.execKdfCreate tag s
  | .kdfReset tag => Sys2Proof.Machine.execKdfReset tag s
  | .kdfUpdate => Sys2Proof.Machine.execKdfUpdate s
  | .kdfFinish => Sys2Proof.Machine.execKdfFinish s
  | .kdfDestroy => Sys2Proof.Machine.execKdfDestroy s

end Sys2Proof.Machine
end

