-- ==== Sys2Proof/Machine/Step.lean ====
section
/-! DEFINITION. Sys2Proof/Machine/Step.lean: one step of the command sequencer (R5, R6).

A step carries out the host's next event. A command runs from acceptance to return in one step: it is atomic (R6). With no
event the block holds its state and does nothing (R252, R271). -/

namespace Sys2Proof.Machine

/-- Runs a command word: the decoded command, or the status of the illegal word (R99, R239). -/
def runWord (w : BitVec 32) (s : State) : Host.Outcome State Fault Refusal :=
  match decode w with
  | .ok i => exec i s
  | .error e => illegalCommand e s

/-- One step of the machine. -/
def step (s : State) : Host.Outcome State Fault Refusal :=
  match s.events with
  | [] => .next s
  | .command c :: rest => runWord c.w (acceptCommand c rest s)
  | .hardwareReset _ :: rest => .next (hardwareReset { s with events := rest })
  | .overlap _ _ :: _ => .fault .overlappingCommands

/-- `s` with the command word `w` (its bits above `nbits` zero) as the next transaction, its operands empty and zero. -/
def State.withFetchWord (s : State) (nbits w : Nat) : State :=
  let c : Command := { w := BitVec.ofNat 32 (w % 2 ^ nbits), a := Operand.empty, b := Operand.empty, n := 0 }
  { s with events := .command c :: s.events }

end Sys2Proof.Machine
end

