-- ==== Sys2Proof/Machine/Assembler.lean ====
section
/-! DEFINITION. Sys2Proof/Machine/Assembler.lean: the textual form of a command (R102) and the two pseudo-instructions, which
are sequences of commands the host issues and no operation of the block (R103, R104). -/

namespace Sys2Proof.Machine

/-- `<ALGNAME>` (R102). -/
def algName : Alg → String
  | .md5 => "MD5"
  | .sha1 => "SHA1"
  | .sha224 => "SHA224"
  | .sha256 => "SHA256"
  | .sha384 => "SHA384"
  | .sha512 => "SHA512"

/-- `<UNIT>` (R102). -/
def unitName : UnitTag → String
  | .dig => "DIG"
  | .hmac => "HMAC"
  | .kdf => "KDF"

/-- `<OP>` (R102). -/
def opName : OpTag → String
  | .create => "CREATE"
  | .reset => "RESET"
  | .update => "UPDATE"
  | .finish => "FINISH"
  | .destroy => "DESTROY"

/-- The mnemonic of an instruction, as the opcode table has it. -/
def mnemonic (i : Instr) : String := unitName i.unit ++ "." ++ opName i.op

/-- Two hexadecimal digits for one byte (R102). -/
def hexByte (b : Byte) : String :=
  String.ofList [Nat.digitChar (b.toNat / 16), Nat.digitChar (b.toNat % 16)]

/-- `x"…"`: two digits per byte, first byte first (R102). -/
def hexString (s : Bytes) : String := "x\"" ++ String.join (s.map hexByte) ++ "\""

/-- Which operands a command has (R96). -/
def usesA : Instr → Bool
  | .digCreate _ => false
  | .digReset => false
  | .digUpdate => true
  | .digFinish => false
  | .digDestroy => false
  | .hmacCreate _ => true
  | .hmacReset => true
  | .hmacUpdate => true
  | .hmacFinish => false
  | .hmacDestroy => false
  | .kdfCreate _ => true
  | .kdfReset _ => true
  | .kdfUpdate => false
  | .kdfFinish => false
  | .kdfDestroy => false

/-- Only `KDF.CREATE` and `KDF.RESET` have the operand `B` (R96). -/
def usesB : Instr → Bool
  | .digCreate _ => false
  | .digReset => false
  | .digUpdate => false
  | .digFinish => false
  | .digDestroy => false
  | .hmacCreate _ => false
  | .hmacReset => false
  | .hmacUpdate => false
  | .hmacFinish => false
  | .hmacDestroy => false
  | .kdfCreate _ => true
  | .kdfReset _ => true
  | .kdfUpdate => false
  | .kdfFinish => false
  | .kdfDestroy => false

/-- The operand `N` is that of `KDF.CREATE`, `KDF.RESET` and `KDF.UPDATE` (R96). -/
def usesN (i : Instr) : Bool := usesB i || decide (i = .kdfUpdate)

/-- The text of a command, operand names `A`, `B`, `N` (R102); none for an illegal word. -/
def commandText (c : Command) : Option String :=
  match decode c.w with
  | .error _ => none
  | .ok i =>
    some (mnemonic i
      ++ (if usesAlg i.unit i.op then (match Alg.ofTag i.tag with | some a => " " ++ algName a | none => "") else "")
      ++ (if usesA i then ", A=" ++ hexString c.a.val else "")
      ++ (if usesB i then ", B=" ++ hexString c.b.val else "")
      ++ (if usesN i then ", N=" ++ toString c.n.toNat else ""))

/-- A command of instruction `i` with these operands. -/
def Command.of (i : Instr) (a b : Operand) (n : BitVec 32) : Command := { w := encode i, a := a, b := b, n := n }

/-- A command of instruction `i` without operands. -/
abbrev Command.plain (i : Instr) : Command := Command.of i Operand.empty Operand.empty 0

/-- The expansion of `DIGEST <ALGNAME>, data=<bytes>` (R103). -/
def digestExpansion (a : Alg) (data : Operand) : List Command :=
  [.plain (.digCreate a.tag), .of .digUpdate data Operand.empty 0, .plain .digFinish, .plain .digDestroy]

/-- The expansion of `HMACONE <ALGNAME>, key=<bytes>, data=<bytes>` (R104). -/
def hmacOneExpansion (a : Alg) (key data : Operand) : List Command :=
  [.of (.hmacCreate a.tag) key Operand.empty 0, .of .hmacUpdate data Operand.empty 0, .plain .hmacFinish, .plain .hmacDestroy]

/-- Runs a sequence of commands one after another (R75): the results in order, and the state at the end. It stops where a
step answers no next state, which no command does. -/
def runCommands : List Command → State → List Reply × State
  | [], s => ([], s)
  | c :: cs, s =>
    match step { s with events := [.command c] } with
    | .next t => (t.result.toList ++ (runCommands cs t).1, (runCommands cs t).2)
    | .fault _ => ([], s)
    | .refused _ => ([], s)

/-- What a pseudo-instruction returns: the first status that is not `Ok`, else `Ok` (R103). -/
def firstFailure : List Reply → StatusCode
  | [] => .ok
  | r :: rs => if r.st = .ok then firstFailure rs else r.st

/-- The bytes a pseudo-instruction returns: those of its one command with an output, FINISH. -/
def collectedOutput (rs : List Reply) : Bytes := (rs.map fun r => r.out).flatten

end Sys2Proof.Machine
end

