-- ==== Sys2Proof/Machine/Functions.lean ====
section
/-! DEFINITION. Sys2Proof/Machine/Functions.lean: the functions the rules say are computed, written from the rules that
define them and not from the operations: `H` (R136), `HMAC` (R166), `T_i` and the derived stream `D` (R195, R196). -/

namespace Sys2Proof.Machine

open Config (Params)

/-- The whole blocks `S[0..B), S[B..2B), ...` of a stream (R124). -/
def blocksOf (a : Alg) (s : Bytes) : List Bytes :=
  (List.range (s.length / a.blockSize)).map fun i => (s.drop (i * a.blockSize)).take a.blockSize

/-- `fold(compress(alg), h0, blocks)` (R124). -/
def foldBlocks (P : Params) (a : Alg) (h0 : List Word) (blocks : List Bytes) : List Word :=
  blocks.foldl (compress P a) h0

/-- A Digest Context after `data` more bytes, in one form (R123, R124): every whole block of the buffered bytes followed by
the data is compressed, the rest is buffered, and the bit counter as one number advances by `8*L` (R122). -/
def absorbed (P : Params) (c : DigestCtx) (data : Bytes) : DigestCtx :=
  let m := c.alg.ctrModulus
  let total := (c.total + 8 * data.length) % (m * m)
  { c with
    h := foldBlocks P c.alg c.h (blocksOf c.alg (c.buf ++ data))
    buf := (c.buf ++ data).drop ((c.buf ++ data).length / c.alg.blockSize * c.alg.blockSize)
    lo := BitVec.ofNat 64 (total % m)
    hi := BitVec.ofNat 64 (total / m) }

/-- The bytes `dig_finish` appends (R125, R126, R128): `0x80`, zeros up to `B - LF` bytes in the block, and the length field of
the counter on entry. -/
def finishBytes (c : DigestCtx) : Bytes :=
  (0x80#8 :: zeros ((2 * c.bsz - 1 - c.alg.lenFieldSize - c.n) % c.bsz)) ++ enc c.alg.byteOrder c.alg.lenFieldSize c.total

/-- The digest a Digest Context gives and the context afterwards (R128, R129). -/
def finished (P : Params) (c : DigestCtx) : Bytes × DigestCtx :=
  let d := absorbed P c (finishBytes c)
  (serializeWords c.alg d.h, d)

/-- The initial Digest Context of an algorithm (R121), present. -/
def initialDigest (P : Params) (a : Alg) : DigestCtx :=
  { valid := true, alg := a, h := iv P a, buf := [], lo := 0, hi := 0 }

/-- The Digest Context of an algorithm primed with one block (R163): `h = compress(IV, ipad)`, `n = 0`, counter `8*B`. -/
def primedDigest (P : Params) (a : Alg) (block : Bytes) : DigestCtx :=
  { valid := true, alg := a, h := compress P a (iv P a) block, buf := [], lo := BitVec.ofNat 64 (8 * a.blockSize), hi := 0 }

/-- The Digest Context `c` after the stream `S` since its last `dig_init`, by rule R124's characterisation: the state depends
on `S` only. -/
def streamState (P : Params) (c : DigestCtx) (s : Bytes) : DigestCtx :=
  let m := c.alg.ctrModulus
  let total := 8 * s.length % (m * m)
  { c with
    h := foldBlocks P c.alg (iv P c.alg) (blocksOf c.alg s)
    buf := s.drop (s.length / c.alg.blockSize * c.alg.blockSize)
    lo := BitVec.ofNat 64 (total % m)
    hi := BitVec.ofNat 64 (total / m) }

/-- The least `z >= 0` that makes the padded message a whole number of blocks (R136). -/
def padZeros (a : Alg) (len : Nat) : Nat := (a.blockSize - (len + 1 + a.lenFieldSize) % a.blockSize) % a.blockSize

/-- `pad(M)` (R136). For a message of `2^(2*CW-3)` bytes or more the length field is `8*len(M)` cut to `LF` bytes, as the
counter wraps (R122). -/
def padMessage (a : Alg) (msg : Bytes) : Bytes :=
  msg ++ (0x80#8 :: zeros (padZeros a msg.length)) ++ enc a.byteOrder a.lenFieldSize (8 * msg.length)

/-- `H(alg, M)` (R136). -/
def hash (P : Params) (a : Alg) (msg : Bytes) : Bytes :=
  serializeWords a (foldBlocks P a (iv P a) (blocksOf a (padMessage a msg)))

/-- `key'` (R161): the key hashed when it is longer than a block, padded with zeros to a block. -/
def hmacKey (P : Params) (a : Alg) (key : Bytes) : Bytes :=
  if key.length > a.blockSize then hash P a key ++ zeros (a.blockSize - a.outSize)
  else key ++ zeros (a.blockSize - key.length)

/-- `HMAC(alg, K, M) = H(alg, opad ‖ H(alg, ipad ‖ M))` (R166). -/
def hmac (P : Params) (a : Alg) (key msg : Bytes) : Bytes :=
  hash P a (xorConst (hmacKey P a key) 0x5c#8 ++ hash P a (xorConst (hmacKey P a key) 0x36#8 ++ msg))

/-- The HMAC Context of an algorithm after `hmac_reset` with a key (R163): the pads of the key, the inner digest primed with
`ipad`, the outer one initial; `scratch` is not touched. -/
def keyedHmac (P : Params) (a : Alg) (key scratch : Bytes) : HmacCtx :=
  { valid := true
    alg := a
    inner := primedDigest P a (xorConst (hmacKey P a key) 0x36#8)
    outer := initialDigest P a
    ipad := xorConst (hmacKey P a key) 0x36#8
    opad := xorConst (hmacKey P a key) 0x5c#8
    scratch := scratch
    fin := false }

/-- The HMAC Context of an algorithm and a key after the message `msg` and `hmac_finish` (R163 to R166): the inner digest has taken
`ipad ‖ msg`, the outer one `opad` and the inner digest's output, each with its padding. -/
def finishedHmac (P : Params) (a : Alg) (key msg : Bytes) : HmacCtx :=
  let ipad := xorConst (hmacKey P a key) 0x36#8
  let opad := xorConst (hmacKey P a key) 0x5c#8
  let inner := hash P a (ipad ++ msg)
  { valid := true
    alg := a
    inner := streamState P (initialDigest P a) (padMessage a (ipad ++ msg))
    outer := streamState P (initialDigest P a) (padMessage a (opad ++ inner))
    ipad := ipad
    opad := opad
    scratch := inner
    fin := true }

/-- The KDF Context after `kdf_reset` for an algorithm, a password, a salt and an iteration count (R191): present, with the
HMAC Context of the password, the counter zero and no byte of `blk` left; `blk`, `scr` and the HMAC's `scratch` are not
written and hold the bytes given. -/
def keyedKdf (P : Params) (a : Alg) (pw salt : Bytes) (iters : BitVec 32) (scratch blk scr : Bytes) : KdfCtx :=
  { valid := true
    alg := a
    hmac := keyedHmac P a pw scratch
    pw := pw
    salt := salt
    iter := iters
    ctr := [0, 0, 0, 0]
    blk := blk
    scr := scr
    idx := a.outSize }

/-- `U_(j+1)(i)` (R195): `U_1(i)` takes the salt and the block index, each further one the one before. -/
def prfRound (P : Params) (a : Alg) (pw salt : Bytes) (i : Nat) : Nat → Bytes
  | 0 => hmac P a pw (salt ++ be 4 i)
  | j + 1 => hmac P a pw (prfRound P a pw salt i j)

/-- What the HMAC takes to give `U_(j+1)(i)` (R193, R195): the salt and the block index, or the output before. -/
def prfMessage (P : Params) (a : Alg) (pw salt : Bytes) (i : Nat) : Nat → Bytes
  | 0 => salt ++ be 4 i
  | j + 1 => prfRound P a pw salt i j

/-- `U_1(i) xor ... xor U_(j+1)(i)` (R195). -/
def prfXor (P : Params) (a : Alg) (pw salt : Bytes) (i : Nat) : Nat → Bytes
  | 0 => prfRound P a pw salt i 0
  | j + 1 => xorBytes (prfXor P a pw salt i j) (prfRound P a pw salt i (j + 1))

/-- `T_i` for the iteration count `c >= 1` (R195). -/
def derivedBlock (P : Params) (a : Alg) (pw salt : Bytes) (c i : Nat) : Bytes := prfXor P a pw salt i (c - 1)

/-- The KDF Context `k` after `derive_block` of block `i` and the emission of `idx` of its bytes (R193, R195): `blk` is `T_i`,
`scr` is `U_c(i)`, the HMAC Context is that of the last round, and the rest is as in `k`. -/
def derivedKdf (P : Params) (k : KdfCtx) (i idx : Nat) : KdfCtx :=
  let last := k.iter.toNat - 1
  { k with
    hmac := finishedHmac P k.alg k.pw (prfMessage P k.alg k.pw k.salt i last)
    ctr := be 4 i
    blk := derivedBlock P k.alg k.pw k.salt k.iter.toNat i
    scr := prfRound P k.alg k.pw k.salt i last
    idx := idx }

/-- Byte `e` of the stream `D = T_1 ‖ T_2 ‖ ...` (R196). -/
def derivedByte (P : Params) (a : Alg) (pw salt : Bytes) (c e : Nat) : Byte :=
  byteAt (derivedBlock P a pw salt c (e / a.outSize + 1)) (e % a.outSize)

/-- Bytes `D[e .. e+w)` of the stream (R196). -/
def derivedBytes (P : Params) (a : Alg) (pw salt : Bytes) (c e w : Nat) : Bytes :=
  (List.range w).map fun t => derivedByte P a pw salt c (e + t)

/-- How many bytes the stream has in all (R197): `(2^32 - 1) * O`. -/
def streamLength (a : Alg) : Nat := (2 ^ 32 - 1) * a.outSize

/-- `e`, the number of bytes emitted since the last `kdf_reset`, read back from `ctr` and `idx` (R196). -/
def KdfCtx.position (k : KdfCtx) : Nat := intBe k.ctr * k.alg.outSize + k.idx - k.alg.outSize

end Sys2Proof.Machine
end

