-- ==== Sys2Proof/Machine/Checks.lean ====
section
/-! DEFINITION. Sys2Proof/Machine/Checks.lean: the table of rule R239 as one function, row by row, for the statements: the status
of a command is its first failing check. The meanings make the same checks where the command rules list them. -/

namespace Sys2Proof.Machine

open Config (Params)

/-- The `valid` bit of the unit a `UNIT` code names (R92); no unit has the codes 3..15. -/
def validOf (unit : Nat) (s : State) : Bool :=
  match unit with
  | 0 => s.dig.valid
  | 1 => s.hm.valid
  | 2 => s.kdf.valid
  | _ => false

/-- The first failing check of rule R239 for the word `w` on the state and operands of `s`, `Ok` where none fails. Check 13,
made during execution, is by the position in the stream: fewer bytes are left than wanted (R196, R197). -/
def firstFailingCheck (P : Params) (w : BitVec 32) (s : State) : StatusCode :=
  let unit := w.toNat / 2 ^ 28
  let op := w.toNat / 2 ^ 24 % 16
  let alg := w.toNat / 2 ^ 16 % 256
  let uses := op = 0 ∨ (unit = 2 ∧ op = 1)
  let valid := validOf unit s
  if 3 ≤ unit then .invalidAlgorithm
  else if 5 ≤ op then .invalidArgument
  else if w.toNat % 2 ^ 16 ≠ 0 then .invalidArgument
  else if alg ≠ 0 ∧ ¬uses then .invalidArgument
  else if uses ∧ 6 ≤ alg then .invalidAlgorithm
  else if unit = 2 ∧ op = 0 ∧ s.cmd.n = 0 then .invalidArgument
  else if op = 0 ∧ valid = true then .outOfMemory
  else if (op = 1 ∨ op = 2 ∨ op = 3) ∧ valid = false then .invalidArgument
  else if unit = 2 ∧ op = 1 ∧ alg ≠ s.kdf.alg.tag.toNat then .invalidArgument
  else if unit = 2 ∧ op = 1 ∧ s.cmd.n = 0 then .invalidArgument
  else if unit = 2 ∧ (op = 0 ∨ op = 1) ∧ (P.pwCap < (opA s).length ∨ P.saltCap < (opB s).length) then .outOfMemory
  else if unit = 1 ∧ (op = 2 ∨ op = 3) ∧ s.hm.fin = true then .error
  else if unit = 2 ∧ op = 2 ∧ streamLength s.kdf.alg - s.kdf.position < s.cmd.n.toNat then .sourceExhausted
  else .ok

end Sys2Proof.Machine
end

