-- ==== Sys2Proof/Safety.lean ====
section
/-! DEFINITION. Sys2Proof/Safety.lean: the invariant of the block between commands, gathered from the rules that state it.

A safe run is one in which every state meets `State.Inv` and no step ends in a fault. -/

namespace Sys2Proof.Machine

open Config (Params)

/-- A present Digest Context (R22, R23, R24): the fill count is below the block size, the counter words have `CW` bits, the
chaining value is `NW` words of `WW` bits, and the bit count agrees with the fill count. -/
structure DigestCtx.Good (c : DigestCtx) : Prop where
  fill : c.n < c.bsz
  lo_width : c.lo.toNat < c.alg.ctrModulus
  hi_width : c.hi.toNat < c.alg.ctrModulus
  words : c.h.length = c.alg.stateWords
  word_width : ∀ w ∈ c.h, w.toNat < 2 ^ c.alg.wordBits
  count : c.total % (8 * c.bsz) = 8 * c.n

/-- A present HMAC Context (R30, R31, R32): one algorithm, pads of `B` bytes with `ipad[i] xor opad[i] = 0x6a`, the outer
digest in its `dig_init` state until `hmac_finish`, `scratch` of `O` bytes (R60), and its Digest Contexts exist with it. -/
structure HmacCtx.Good (P : Params) (m : HmacCtx) : Prop where
  present : m.valid = true
  inner_present : m.inner.valid = true
  outer_present : m.outer.valid = true
  inner_alg : m.inner.alg = m.alg
  outer_alg : m.outer.alg = m.alg
  inner_good : m.inner.Good
  outer_good : m.outer.Good
  ipad_size : m.ipad.length = m.alg.blockSize
  opad_size : m.opad.length = m.alg.blockSize
  pads : xorBytes m.ipad m.opad = List.replicate m.alg.blockSize 0x6a#8
  ready : m.fin = false → m.outer = digInit P m.outer
  scratch_size : m.scratch.length = m.alg.outSize
  finished : m.fin = true → m.inner.n = 0 ∧ m.outer.n = 0

/-- What holds of a present KDF Context also in the middle of a command (R31, R34, R35, R36, R38, R60): the stores are within
their capacities, the buffers have their sizes, the iteration count is not zero, the pads are those of the stored password,
and while bytes of the block are left the block is `T_i` for `i = int_be(ctr)`. -/
structure KdfCtx.Sound (P : Params) (k : KdfCtx) : Prop where
  hmac_alg : k.hmac.alg = k.alg
  hmac_good : k.hmac.Good P
  pw_fits : k.pwlen ≤ P.pwCap
  salt_fits : k.saltlen ≤ P.saltCap
  iter_pos : 1 ≤ k.iter.toNat
  ctr_size : k.ctr.length = 4
  blk_size : k.blk.length = k.alg.outSize
  scr_size : k.scr.length = k.alg.outSize
  cursor : k.idx ≤ k.alg.outSize
  ipad : k.hmac.ipad = xorConst (hmacKey P k.alg k.pw) 0x36#8
  opad : k.hmac.opad = xorConst (hmacKey P k.alg k.pw) 0x5c#8
  primed : k.hmac.fin = false → k.hmac = hmacReset P k.hmac k.pw
  block : k.idx < k.alg.outSize →
    1 ≤ intBe k.ctr ∧ k.blk = derivedBlock P k.alg k.pw k.salt k.iter.toNat (intBe k.ctr)

/-- A present KDF Context between commands: a derived block has had a byte emitted, since blocks are derived lazily (R194,
R196). -/
structure KdfCtx.Good (P : Params) (k : KdfCtx) : Prop extends KdfCtx.Sound P k where
  lazy : 1 ≤ k.idx

/-- The unit DIG: absent, or good. -/
def DigestCtx.Inv (c : DigestCtx) : Prop := c.valid = true → c.Good

/-- The unit HMAC (R32): its children exist exactly when it does. -/
def HmacCtx.Inv (P : Params) (m : HmacCtx) : Prop :=
  m.inner.valid = m.valid ∧ m.outer.valid = m.valid ∧ (m.valid = true → m.Good P)

/-- The unit KDF (R38): its HMAC Context, and that context's children, exist exactly when it does. -/
def KdfCtx.Inv (P : Params) (k : KdfCtx) : Prop :=
  k.hmac.valid = k.valid ∧ k.hmac.inner.valid = k.valid ∧ k.hmac.outer.valid = k.valid ∧ (k.valid = true → k.Good P)

/-- The register STATUS (R41, R231, U8): only codes this block raises, and `ERR` is set while the last command failed. -/
def Status.Inv (r : Status) : Prop :=
  (r.code = 0 ∨ r.code = 1 ∨ r.code = 2 ∨ r.code = 3 ∨ r.code = 6 ∨ r.code = 7) ∧ (r.code ≠ 0 → r.err = true)

/-- The invariant of the machine between commands. -/
structure State.Inv (P : Params) (s : State) : Prop where
  dig : s.dig.Inv
  hm : s.hm.Inv P
  kdf : s.kdf.Inv P
  status : s.status.Inv

/-- Two Digest Contexts that agree on what a rule may read (R49, R50): they exist together, and then they are the same. -/
def DigestCtx.Alike (c c' : DigestCtx) : Prop := c.valid = c'.valid ∧ (c.valid = true → c = c')

/-- The same of two HMAC Contexts; `scratch` holds no value before the first `hmac_finish` (R33, R47). -/
def HmacCtx.Alike (m m' : HmacCtx) : Prop :=
  m.valid = m'.valid
    ∧ (m.valid = true → { m with scratch := m'.scratch } = m' ∧ (m.fin = true → m.scratch = m'.scratch))

/-- The same of two KDF Contexts; while no byte of the block is left, `blk` and `scr` are rewritten before they are read (R35,
R47). -/
def KdfCtx.Alike (k k' : KdfCtx) : Prop :=
  k.valid = k'.valid
    ∧ (k.valid = true → k.hmac.Alike k'.hmac ∧ { k with hmac := k'.hmac, blk := k'.blk, scr := k'.scr } = k'
        ∧ (k.idx < k.alg.outSize → k.blk = k'.blk ∧ k.scr = k'.scr))

/-- Two machines that differ only in fields that hold no value in the spec, and in what the host does later. -/
structure State.Alike (s s' : State) : Prop where
  dig : s.dig.Alike s'.dig
  hm : s.hm.Alike s'.hm
  kdf : s.kdf.Alike s'.kdf
  status : s.status = s'.status
  cmd : s.cmd = s'.cmd

/-- The state after a command that returns `Ok` with this output: `CODE` is 0, the sticky bits keep their values (R41, R241). -/
def okWith (out : Bytes) (s : State) : State :=
  { s with status := { code := 0, warn := s.status.warn, err := s.status.err }, result := some { st := .ok, out := out } }

/-- The state after a command that returns another status with no output: nothing but `STATUS` and the result changes (R230,
R240, R241). -/
def refusedWith (st : StatusCode) (s : State) : State :=
  { s with status := { code := st.code, warn := s.status.warn, err := true }, result := some { st := st, out := [] } }

/-- `k` steps, stopping at the first fault or refusal. -/
def runSteps : Nat → State → Outcome
  | 0, s => .next s
  | k + 1, s =>
    match step s with
    | .next t => runSteps k t
    | .fault r => .fault r
    | .refused r => .refused r

/-- The machine with these events pending and no others. -/
def State.withEvents (s : State) (es : List HostEvent) : State := { s with events := es }

/-- The machine executing a command with these operands. -/
def State.withOperands (s : State) (a b : Operand) (n : BitVec 32) : State := { s with cmd := { s.cmd with a := a, b := b, n := n } }

end Sys2Proof.Machine
end

