-- ==== Sys2Proof/Certificates/Slice0/Obligations.lean ====
section
/-! DEFINITION. Sys2Proof/Certificates/Slice0/Obligations.lean: the statements for the provers, from the spec's numbered rules.

Every statement about the block is about `Machine.params`, the parameters without a body, so it holds for every `compress`, `IV`,
`PW_CAP` and `SALT_CAP` of the spec. `Inv` is the invariant of Safety.lean; O13 and O14 state that reset meets it and that every
step keeps it. -/

open Sys2Proof Sys2Proof.Machine

/-! ### The command word -/

/-- O1. Rules R91, R98: every well-formed instruction is read back from its word, the tag at every value it admits. -/
def Obligations.DecodeOfEncode : Prop := ∀ i : Instr, i.wellFormed = true → decode (encode i) = .ok i

/-- O2. A legal word has one meaning: it is the word of the instruction it decodes to. -/
def Obligations.EncodeOfDecode : Prop :=
  ∀ (w : BitVec 32) (i : Instr), decode w = .ok i → i.wellFormed = true ∧ encode i = w

/-- O3. Rule R98: a word that selects a row decodes to that row's command, its tag then checked against R94; a word that selects
no row decodes to nothing. -/
def Obligations.DecodeFollowsOpcodeMap : Prop :=
  ∀ w : BitVec 32,
    (∀ r ∈ opcodeMap, w &&& r.mask = r.matchWord →
      decode w =
        if usesAlg r.unit r.op = true ∧ 6 ≤ (w.extractLsb' 16 8).toNat then .error .unrecognisedAlg
        else .ok (Instr.ofFields r.unit r.op (w.extractLsb' 16 8)))
    ∧ ((∀ r ∈ opcodeMap, w &&& r.mask ≠ r.matchWord) → ∃ e, decode w = .error e)

/-- O4. The examples of rule R98, and one word of each kind of the table of 95_test_vectors.md section 3.5. -/
def Obligations.WordsOfTheSpec : Prop :=
  decode 0x00030000#32 = .ok (.digCreate 3) ∧ decode 0x10000000#32 = .ok (.hmacCreate 0)
    ∧ decode 0x20010000#32 = .ok (.kdfCreate 1) ∧ decode 0x21050000#32 = .ok (.kdfReset 5)
    ∧ decode 0x22000000#32 = .ok .kdfUpdate ∧ decode 0x35000001#32 = .error .reservedUnit
    ∧ decode 0x05FF0001#32 = .error .reservedOp ∧ decode 0x00030001#32 = .error .nonzeroLowBits
    ∧ decode 0x02030000#32 = .error .algNotUsed ∧ decode 0x00060000#32 = .error .unrecognisedAlg

/-- O5. Rule R99: the status of an illegal word, tested in the rule's order on the fields of R91 read as numbers; `STATUS` and the
result are all that changes. -/
def Obligations.IllegalWordReturnsStatus : Prop :=
  ∀ (s : State) (c : Command) (rest : List HostEvent), s.events = .command c :: rest →
    let unit := c.w.toNat / 2 ^ 28
    let op := c.w.toNat / 2 ^ 24 % 16
    let alg := c.w.toNat / 2 ^ 16 % 256
    let low := c.w.toNat % 2 ^ 16
    let uses := op = 0 ∨ (unit = 2 ∧ op = 1)
    let s' : State := { s with events := rest, cmd := c }
    (3 ≤ unit → step s = .next (refusedWith .invalidAlgorithm s'))
    ∧ (unit < 3 → 5 ≤ op → step s = .next (refusedWith .invalidArgument s'))
    ∧ (unit < 3 → op < 5 → low ≠ 0 → step s = .next (refusedWith .invalidArgument s'))
    ∧ (unit < 3 → op < 5 → low = 0 → ¬uses → alg ≠ 0 → step s = .next (refusedWith .invalidArgument s'))
    ∧ (unit < 3 → op < 5 → low = 0 → uses → 6 ≤ alg → step s = .next (refusedWith .invalidAlgorithm s'))

/-! ### Steps, hardware reset and the invariant -/

/-- O6. A step runs the decoded command on the state that holds its operands. The command port is the model's own
(notes/assumptions/4.md). -/
def Obligations.StepRunsDecodedCommand : Prop :=
  ∀ (s : State) (c : Command) (rest : List HostEvent) (i : Instr), s.events = .command c :: rest → decode c.w = .ok i →
    step s = exec i { s with events := rest, cmd := c }

/-- O7. Between commands the block holds its state and does nothing (60_exceptions.md section 6). -/
def Obligations.IdleStepHoldsState : Prop := ∀ s : State, s.events = [] → step s = .next s

/-- O8. Overlapping commands have no meaning: the model stops (93_implementation_defined.md U6; the fault is the model's form of
it, notes/assumptions/5.md). -/
def Obligations.OverlappingCommandsStop : Prop :=
  ∀ (s : State) (a b : Command) (rest : List HostEvent), s.events = .overlap a b :: rest →
    step s = .fault .overlappingCommands

/-- O9. The machine answers a next state whatever the host does, but for overlapping commands: no command faults, none is
refused. -/
def Obligations.StepAlwaysAnswers : Prop :=
  ∀ s : State, (∀ (a b : Command) (rest : List HostEvent), s.events ≠ .overlap a b :: rest) → ∃ t, step s = .next t

/-- O10. Rule R270: hardware reset clears the eight `valid` bits and `STATUS`, and delivers no result, whatever command it
finds running. -/
def Obligations.HardwareResetClears : Prop :=
  ∀ (s : State) (c : Option Command) (rest : List HostEvent), s.events = .hardwareReset c :: rest →
    ∃ t, step s = .next t ∧ t.events = rest ∧ t.result = none
      ∧ t.status = { code := 0, warn := false, err := false }
      ∧ t.dig.valid = false ∧ t.hm.valid = false ∧ t.hm.inner.valid = false ∧ t.hm.outer.valid = false
      ∧ t.kdf.valid = false ∧ t.kdf.hmac.valid = false ∧ t.kdf.hmac.inner.valid = false
      ∧ t.kdf.hmac.outer.valid = false

/-- O11. The values rule R49 gives for reset: the eight `valid` bits and `STATUS` are 0, and `PHASE` reads 0. -/
def Obligations.ResetValues : Prop :=
  State.reset.dig.valid = false ∧ State.reset.hm.valid = false ∧ State.reset.hm.inner.valid = false
    ∧ State.reset.hm.outer.valid = false ∧ State.reset.kdf.valid = false ∧ State.reset.kdf.hmac.valid = false
    ∧ State.reset.kdf.hmac.inner.valid = false ∧ State.reset.kdf.hmac.outer.valid = false
    ∧ State.reset.status.word = 0 ∧ phase State.reset = 0

/-- O12. From reset only CREATE and DESTROY can succeed on a unit (70_reset_and_hazards.md section 1). -/
def Obligations.FirstSuccessIsCreateOrDestroy : Prop :=
  ∀ (i : Instr) (a b : Operand) (n : BitVec 32), i.op ≠ .create → i.op ≠ .destroy →
    exec i (State.reset.withOperands a b n) = .next (refusedWith
      (if i.wellFormed then .invalidArgument else .invalidAlgorithm) (State.reset.withOperands a b n))

/-- O13. The invariant holds at reset. -/
def Obligations.InvAtReset : Prop := State.Inv params State.reset

/-- O14. Every step keeps the invariant: fill counts and counter words (R23, R24), the pads and their relation (R31), which
contexts exist (R32, R38), the stored block is `T_i` (R35), `STATUS` holds only codes this block raises (R231). -/
def Obligations.StepKeepsInv : Prop := ∀ s t : State, s.Inv params → step s = .next t → t.Inv params

/-! ### Unit DIG -/

/-- O15. Rule R130: `DIG.CREATE`, its word, its checks in order and its effect. -/
def Obligations.DigCreateEffect : Prop :=
  ∀ s : State,
    (∀ (w : BitVec 32) (tag : BitVec 8), decode w = .ok (.digCreate tag) ↔
        w &&& 0xFF00FFFF#32 = 0x00000000#32 ∧ w.extractLsb' 16 8 = tag ∧ tag.toNat < 6)
    ∧ (∀ tag : BitVec 8, 6 ≤ tag.toNat → exec (.digCreate tag) s = .next (refusedWith .invalidAlgorithm s))
    ∧ (∀ a : Alg, s.dig.valid = true → exec (.digCreate a.tag) s = .next (refusedWith .outOfMemory s))
    ∧ (∀ a : Alg, s.dig.valid = false →
        exec (.digCreate a.tag) s = .next (okWith [] { s with dig := initialDigest params a }))

/-- O16. Rule R131: `DIG.RESET` loads the initial state and keeps the algorithm. -/
def Obligations.DigResetEffect : Prop :=
  ∀ s : State,
    (∀ w : BitVec 32, decode w = .ok .digReset ↔ w = 0x01000000#32)
    ∧ (s.dig.valid = true →
      exec .digReset s =
        .next (okWith [] { s with dig := { s.dig with h := iv params s.dig.alg, buf := [], lo := 0, hi := 0 } }))
    ∧ (s.dig.valid = false → exec .digReset s = .next (refusedWith .invalidArgument s))

/-- O17. Rules R132, R123: `DIG.UPDATE` compresses every whole block of the buffered bytes followed by the data, buffers the
rest and advances the bit counter; nothing else changes. -/
def Obligations.DigUpdateEffect : Prop :=
  ∀ s : State,
    (∀ w : BitVec 32, decode w = .ok .digUpdate ↔ w = 0x02000000#32)
    ∧ (s.dig.valid = true → s.dig.Inv →
      exec .digUpdate s = .next (okWith [] { s with dig := absorbed params s.dig s.cmd.a.val }))
    ∧ (s.dig.valid = false → exec .digUpdate s = .next (refusedWith .invalidArgument s))

/-- O18. Rules R133, R128: `DIG.FINISH` appends `0x80`, zeros and the length field of the counter on entry, and returns the
serialised chaining value; the context is not reset. -/
def Obligations.DigFinishEffect : Prop :=
  ∀ s : State,
    (∀ w : BitVec 32, decode w = .ok .digFinish ↔ w = 0x03000000#32)
    ∧ (s.dig.valid = true → s.dig.Inv →
      exec .digFinish s = .next (okWith (finished params s.dig).1 { s with dig := (finished params s.dig).2 }))
    ∧ (s.dig.valid = false → exec .digFinish s = .next (refusedWith .invalidArgument s))

/-- O19. Rule R134: `DIG.DESTROY` clears the `valid` bit, or warns; nothing outside `DIG` changes. What the other fields of `DIG`
hold afterwards is a free value (notes/assumptions/2.md). -/
def Obligations.DigDestroyEffect : Prop :=
  ∀ s : State,
    (∀ w : BitVec 32, decode w = .ok .digDestroy ↔ w = 0x04000000#32)
    ∧ (s.dig.valid = true →
      ∃ t, exec .digDestroy s = .next t ∧ t.dig.valid = false
        ∧ t = okWith [] { s with dig := t.dig, freeCount := t.freeCount })
    ∧ (s.dig.valid = false →
        exec .digDestroy s = .next (okWith [] { s with status := { s.status with warn := true } }))

/-- O20. Rule R122: the carry rule of the bit counter advances the pair, read as one number, by `8*L` modulo its range. -/
def Obligations.BitCounterAdvances : Prop :=
  ∀ (c : DigestCtx) (len : Nat), c.lo.toNat < c.alg.ctrModulus →
    let m := c.alg.ctrModulus
    let d := ctrAdd c len
    d.hi.toNat * m + d.lo.toNat = (c.hi.toNat * m + c.lo.toNat + 8 * len) % (m * m)
      ∧ d.lo.toNat < m ∧ d.hi.toNat < m ∧ d = { c with lo := d.lo, hi := d.hi }

/-- O21. Rule R125: between 1 and `B` padding bytes, ending at `B - LF` in a block. -/
def Obligations.PaddingEndsAtLengthField : Prop :=
  ∀ c : DigestCtx, c.n < c.alg.blockSize →
    1 ≤ padlen c ∧ padlen c ≤ c.alg.blockSize
      ∧ (c.n + padlen c) % c.alg.blockSize = c.alg.blockSize - c.alg.lenFieldSize

/-- O22. Rule R65: the length field is the counter as one number in `LF` bytes; and word by word, for each family. -/
def Obligations.LengthFieldLayout : Prop :=
  ∀ c : DigestCtx, c.lo.toNat < c.alg.ctrModulus → c.hi.toNat < c.alg.ctrModulus →
    lenfield c = enc c.alg.byteOrder c.alg.lenFieldSize (c.hi.toNat * c.alg.ctrModulus + c.lo.toNat)
    ∧ (c.alg = .md5 → lenfield c = le 4 c.lo.toNat ++ le 4 c.hi.toNat)
    ∧ (c.alg = .sha1 ∨ c.alg = .sha224 ∨ c.alg = .sha256 → lenfield c = be 4 c.hi.toNat ++ be 4 c.lo.toNat)
    ∧ (c.alg = .sha384 ∨ c.alg = .sha512 → lenfield c = be 8 c.hi.toNat ++ be 8 c.lo.toNat)

/-- O23. Rule R66: the digest is whole words, first word first; SHA-224 drops `h[7]`, SHA-384 drops `h[6]` and `h[7]`. -/
def Obligations.DigestIsWholeWords : Prop :=
  ∀ (a : Alg) (h : List Word), h.length = a.stateWords →
    serializeWords a h =
      ((h.take (a.outSize / a.wordBytes)).map fun w => enc a.byteOrder a.wordBytes w.toNat).flatten

/-- O24. Rules R124, R129: a context whose stream is `S` goes to the stream `S ‖ data` by UPDATE, and by FINISH to the padded
stream, returning `H(alg, S)`. -/
def Obligations.StreamCharacterisation : Prop :=
  ∀ (s : State) (d : DigestCtx) (stream : Bytes), s.dig = streamState params d stream → d.valid = true →
    exec .digUpdate s = .next (okWith [] { s with dig := streamState params d (stream ++ s.cmd.a.val) })
    ∧ exec .digFinish s =
        .next (okWith (hash params d.alg stream) { s with dig := streamState params d (padMessage d.alg stream) })

/-- O25. Rule R136: on a present context, RESET, UPDATE with `M`, FINISH return `H(DIG.alg, M)`, whatever the context held. -/
def Obligations.DigestOfMessage : Prop :=
  ∀ (s : State) (c1 c2 c3 : Command), c1.w = 0x01000000#32 → c2.w = 0x02000000#32 → c3.w = 0x03000000#32 →
    s.dig.valid = true →
    ∃ t, runSteps 3 (s.withEvents [.command c1, .command c2, .command c3]) = .next t
      ∧ t.result = some { st := .ok, out := hash params s.dig.alg c2.a.val }

/-- O26. Rule R135: any way of cutting a message into UPDATE commands leaves `DIG` in the same state as one UPDATE with the whole
message, and a following FINISH returns the same output. -/
def Obligations.ChunkingInvariance : Prop :=
  ∀ (s : State) (cs : List Command) (c : Command), s.dig.valid = true → s.dig.Inv →
    (∀ x ∈ cs, x.w = 0x02000000#32) → c.w = 0x02000000#32 → c.a.val = (cs.map fun x => x.a.val).flatten →
    ∃ t u, runSteps cs.length (s.withEvents (cs.map .command)) = .next t
      ∧ runSteps 1 (s.withEvents [.command c]) = .next u ∧ t.dig = u.dig
      ∧ ∃ t' u', exec .digFinish t = .next t' ∧ exec .digFinish u = .next u'
          ∧ t'.result.map (·.out) = u'.result.map (·.out)

/-- O27. Rule R139: the members of a family take the same `compress` and the same `B, LF, END, WW, NW`. -/
def Obligations.FamiliesShare : Prop :=
  (∀ (h : List Word) (b : Bytes), compress params .sha224 h b = compress params .sha256 h b
      ∧ compress params .sha384 h b = compress params .sha512 h b)
    ∧ (∀ p ∈ [(Alg.sha224, Alg.sha256), (Alg.sha384, Alg.sha512)],
        p.1.blockSize = p.2.blockSize ∧ p.1.lenFieldSize = p.2.lenFieldSize ∧ p.1.byteOrder = p.2.byteOrder
          ∧ p.1.wordBits = p.2.wordBits ∧ p.1.stateWords = p.2.stateWords)

/-! ### Unit HMAC -/

/-- O28. Rules R170, R163: `HMAC.CREATE`, its word, its checks in order and its effect: the pads of the key, the inner digest primed with
`ipad`, the outer one initial. The new `scratch` has `O` bytes, what they are is a free value (notes/assumptions/2.md). -/
def Obligations.HmacCreateEffect : Prop :=
  ∀ s : State,
    (∀ (w : BitVec 32) (tag : BitVec 8), decode w = .ok (.hmacCreate tag) ↔
        w &&& 0xFF00FFFF#32 = 0x10000000#32 ∧ w.extractLsb' 16 8 = tag ∧ tag.toNat < 6)
    ∧ (∀ tag : BitVec 8, 6 ≤ tag.toNat → exec (.hmacCreate tag) s = .next (refusedWith .invalidAlgorithm s))
    ∧ (∀ a : Alg, s.hm.valid = true → exec (.hmacCreate a.tag) s = .next (refusedWith .outOfMemory s))
    ∧ (∀ a : Alg, s.hm.valid = false → ∃ (scratch : Bytes) (count : Nat), scratch.length = a.outSize
        ∧ exec (.hmacCreate a.tag) s =
          .next (okWith [] { s with hm := keyedHmac params a s.cmd.a.val scratch, freeCount := count }))

/-- O29. Rules R171, R163: `HMAC.RESET`, legal in READY and in FINISHED, keeps the algorithm. -/
def Obligations.HmacResetEffect : Prop :=
  ∀ s : State,
    (∀ w : BitVec 32, decode w = .ok .hmacReset ↔ w = 0x11000000#32)
    ∧ (s.hm.valid = true → s.hm.Inv params →
      exec .hmacReset s = .next (okWith [] { s with hm := keyedHmac params s.hm.alg s.cmd.a.val s.hm.scratch }))
    ∧ (s.hm.valid = false → exec .hmacReset s = .next (refusedWith .invalidArgument s))

/-- O30. Rules R172, R164: `HMAC.UPDATE` updates the inner digest and nothing else; refused after FINISH. -/
def Obligations.HmacUpdateEffect : Prop :=
  ∀ s : State,
    (∀ w : BitVec 32, decode w = .ok .hmacUpdate ↔ w = 0x12000000#32)
    ∧ (s.hm.valid = true → s.hm.fin = false → s.hm.Inv params →
      exec .hmacUpdate s =
        .next (okWith [] { s with hm := { s.hm with inner := absorbed params s.hm.inner s.cmd.a.val } }))
    ∧ (s.hm.valid = true → s.hm.fin = true → exec .hmacUpdate s = .next (refusedWith .error s))
    ∧ (s.hm.valid = false → exec .hmacUpdate s = .next (refusedWith .invalidArgument s))

/-- O31. Rules R173, R165: `HMAC.FINISH` finishes the inner digest into `scratch`, feeds `opad` and `scratch` to the outer one and
finishes it; the pads are unchanged; a second FINISH is refused. -/
def Obligations.HmacFinishEffect : Prop :=
  ∀ s : State,
    (∀ w : BitVec 32, decode w = .ok .hmacFinish ↔ w = 0x13000000#32)
    ∧ (s.hm.valid = true → s.hm.fin = false → s.hm.Inv params →
      let innerDone := finished params s.hm.inner
      let outerDone := finished params (absorbed params s.hm.outer (s.hm.opad ++ innerDone.1))
      exec .hmacFinish s =
        .next (okWith outerDone.1
          { s with hm := { s.hm with inner := innerDone.2, outer := outerDone.2, scratch := innerDone.1, fin := true } }))
    ∧ (s.hm.valid = true → s.hm.fin = true → exec .hmacFinish s = .next (refusedWith .error s))
    ∧ (s.hm.valid = false → exec .hmacFinish s = .next (refusedWith .invalidArgument s))

/-- O32. Rule R174: `HMAC.DESTROY` clears the three `valid` bits, or warns; nothing outside `HM` changes. What the other fields
of `HM` hold afterwards is a free value (notes/assumptions/2.md). -/
def Obligations.HmacDestroyEffect : Prop :=
  ∀ s : State,
    (∀ w : BitVec 32, decode w = .ok .hmacDestroy ↔ w = 0x14000000#32)
    ∧ (s.hm.valid = true →
      ∃ t, exec .hmacDestroy s = .next t ∧ t.hm.valid = false ∧ t.hm.inner.valid = false ∧ t.hm.outer.valid = false
        ∧ t = okWith [] { s with hm := t.hm, freeCount := t.freeCount })
    ∧ (s.hm.valid = false →
        exec .hmacDestroy s = .next (okWith [] { s with status := { s.status with warn := true } }))

/-- O33. Rule R166: CREATE with a key, UPDATE with any chunks, FINISH return `HMAC(alg, K, M)` of the chunks together. -/
def Obligations.HmacOfMessage : Prop :=
  ∀ (s : State) (a : Alg) (c1 c3 : Command) (cs : List Command), s.hm.valid = false → c1.w = encode (.hmacCreate a.tag) →
    (∀ x ∈ cs, x.w = 0x12000000#32) → c3.w = 0x13000000#32 →
    ∃ t, runSteps (cs.length + 2)
        (s.withEvents (.command c1 :: (cs.map .command ++ [.command c3]))) = .next t
      ∧ t.result = some { st := .ok, out := hmac params a c1.a.val (cs.map fun x => x.a.val).flatten }

/-- O34. Rule R167: a key longer than a block and its own digest leave the same HMAC Context. -/
def Obligations.HmacKeyFolding : Prop :=
  ∀ (s : State) (key folded : Operand), s.hm.valid = true → s.hm.Inv params → s.hm.alg.blockSize < key.val.length →
    folded.val = hash params s.hm.alg key.val →
    ∃ t u, exec .hmacReset (s.withOperands key s.cmd.b s.cmd.n) = .next t
      ∧ exec .hmacReset (s.withOperands folded s.cmd.b s.cmd.n) = .next u ∧ t.hm = u.hm

/-! ### Unit KDF -/

/-- O35. Rules R200, R191: `KDF.CREATE`, its word, its checks in order and its effect. The new `blk`, `scr` and HMAC `scratch` have `O`
bytes, what they are is a free value (notes/assumptions/2.md). -/
def Obligations.KdfCreateEffect : Prop :=
  ∀ s : State,
    (∀ (w : BitVec 32) (tag : BitVec 8), decode w = .ok (.kdfCreate tag) ↔
        w &&& 0xFF00FFFF#32 = 0x20000000#32 ∧ w.extractLsb' 16 8 = tag ∧ tag.toNat < 6)
    ∧ (∀ tag : BitVec 8, 6 ≤ tag.toNat → exec (.kdfCreate tag) s = .next (refusedWith .invalidAlgorithm s))
    ∧ (∀ a : Alg, s.cmd.n = 0 → exec (.kdfCreate a.tag) s = .next (refusedWith .invalidArgument s))
    ∧ (∀ a : Alg, s.cmd.n ≠ 0 → s.kdf.valid = true → exec (.kdfCreate a.tag) s = .next (refusedWith .outOfMemory s))
    ∧ (∀ a : Alg, s.cmd.n ≠ 0 → s.kdf.valid = false →
        (params.pwCap < s.cmd.a.val.length ∨ params.saltCap < s.cmd.b.val.length) →
        exec (.kdfCreate a.tag) s = .next (refusedWith .outOfMemory s))
    ∧ (∀ a : Alg, s.cmd.n ≠ 0 → s.kdf.valid = false → s.cmd.a.val.length ≤ params.pwCap →
        s.cmd.b.val.length ≤ params.saltCap →
        ∃ (scratch blk scr : Bytes) (count : Nat),
          scratch.length = a.outSize ∧ blk.length = a.outSize ∧ scr.length = a.outSize
          ∧ exec (.kdfCreate a.tag) s =
            .next (okWith []
              { s with
                kdf := keyedKdf params a s.cmd.a.val s.cmd.b.val s.cmd.n scratch blk scr
                freeCount := count }))

/-- O36. Rules R201, R191: `KDF.RESET`, its checks in order and its effect; the algorithm must be the one fixed at CREATE. -/
def Obligations.KdfResetEffect : Prop :=
  ∀ s : State,
    (∀ (w : BitVec 32) (tag : BitVec 8), decode w = .ok (.kdfReset tag) ↔
        w &&& 0xFF00FFFF#32 = 0x21000000#32 ∧ w.extractLsb' 16 8 = tag ∧ tag.toNat < 6)
    ∧ (∀ tag : BitVec 8, 6 ≤ tag.toNat → exec (.kdfReset tag) s = .next (refusedWith .invalidAlgorithm s))
    ∧ (∀ a : Alg, s.kdf.valid = false → exec (.kdfReset a.tag) s = .next (refusedWith .invalidArgument s))
    ∧ (∀ a : Alg, s.kdf.valid = true → a ≠ s.kdf.alg → exec (.kdfReset a.tag) s = .next (refusedWith .invalidArgument s))
    ∧ (s.kdf.valid = true → s.cmd.n = 0 → exec (.kdfReset s.kdf.alg.tag) s = .next (refusedWith .invalidArgument s))
    ∧ (s.kdf.valid = true → s.cmd.n ≠ 0 → (params.pwCap < s.cmd.a.val.length ∨ params.saltCap < s.cmd.b.val.length) →
        exec (.kdfReset s.kdf.alg.tag) s = .next (refusedWith .outOfMemory s))
    ∧ (s.kdf.valid = true → s.kdf.Inv params → s.cmd.n ≠ 0 → s.cmd.a.val.length ≤ params.pwCap →
        s.cmd.b.val.length ≤ params.saltCap →
        exec (.kdfReset s.kdf.alg.tag) s =
          .next (okWith []
            { s with
              kdf := keyedKdf params s.kdf.alg s.cmd.a.val s.cmd.b.val s.cmd.n s.kdf.hmac.scratch s.kdf.blk s.kdf.scr }))

/-- O37. Rules R202, R194, R193, R196, R197, R236: `KDF.UPDATE` returns the next `N` bytes of the stream `T_1 ‖ T_2 ‖ ...`, or what is
left of it with `SourceExhausted`, and moves the position on; everything outside `KDF` is unchanged. The whole context
afterwards: while the block lasts only the cursor has moved; past it `ctr` names the last block begun, `blk` is its `T_i`, `scr`
its `U_c(i)`, and the HMAC Context is that of its last round. `N = 0` changes nothing. -/
def Obligations.KdfUpdateEmitsStream : Prop :=
  ∀ s : State,
    (∀ w : BitVec 32, decode w = .ok .kdfUpdate ↔ w = 0x22000000#32)
    ∧ (s.kdf.valid = true → s.kdf.Inv params →
      let k := s.kdf
      let o := k.alg.outSize
      let want := s.cmd.n.toNat
      let left := streamLength k.alg - k.position
      let w := min want left
      let out := derivedBytes params k.alg k.pw k.salt k.iter.toNat k.position w
      let i := (k.position + w + o - 1) / o
      ∃ k' : KdfCtx,
        exec .kdfUpdate s =
          .next (if want ≤ left then okWith out { s with kdf := k' }
            else { refusedWith .sourceExhausted { s with kdf := k' } with
                    result := some { st := .sourceExhausted, out := out } })
        ∧ (k.idx + w ≤ o → k' = { k with idx := k.idx + w })
        ∧ (o < k.idx + w → k' = derivedKdf params k i (k.position + w - (i - 1) * o))
        ∧ k'.position = k.position + w ∧ k'.Inv params
        ∧ (left < want → k'.ctr = [0xFF, 0xFF, 0xFF, 0xFF] ∧ k'.idx = o)
        ∧ (want = 0 → k' = k))
    ∧ (s.kdf.valid = false → exec .kdfUpdate s = .next (refusedWith .invalidArgument s))

/-- O38. Rules R192, R193, R195: where the block is used up, the first byte wanted makes the counter name the next block; `blk` is
then `T_i`, `scr` is `U_c(i)`, and one byte of the block is emitted. -/
def Obligations.KdfDerivesNextBlock : Prop :=
  ∀ s : State, s.kdf.valid = true → s.kdf.Inv params → s.kdf.idx = s.kdf.alg.outSize → intBe s.kdf.ctr + 1 < 2 ^ 32 →
    s.cmd.n = 1 →
    let i := intBe s.kdf.ctr + 1
    ∃ t, exec .kdfUpdate s = .next t ∧ t.kdf.ctr = be 4 i ∧ t.kdf.idx = 1
      ∧ t.kdf.blk = derivedBlock params s.kdf.alg s.kdf.pw s.kdf.salt s.kdf.iter.toNat i
      ∧ t.kdf.scr = prfRound params s.kdf.alg s.kdf.pw s.kdf.salt i (s.kdf.iter.toNat - 1)
      ∧ t.result = some { st := .ok, out := t.kdf.blk.take 1 }

/-- O39. Rule R196: between commands the counter is `ceil(e / O)` for the position `e`, and the cursor is what is left of it. -/
def Obligations.KdfCursorIsPosition : Prop :=
  ∀ s : State, s.kdf.valid = true → s.kdf.Inv params →
    let k := s.kdf
    let o := k.alg.outSize
    (k.position = 0 → intBe k.ctr = 0 ∧ k.idx = o)
    ∧ (0 < k.position → intBe k.ctr = (k.position + o - 1) / o ∧ k.idx = k.position - (intBe k.ctr - 1) * o)

/-- O40. Rule R196: two requests of `n1` and `n2` bytes return the bytes of one request of `n1 + n2`, and leave the same
context. -/
def Obligations.KdfSplitRequest : Prop :=
  ∀ (s : State) (n1 n2 : BitVec 32), s.kdf.valid = true → n1.toNat + n2.toNat < 2 ^ 32 →
    ∃ t1 t2 u r1 r2 r, exec .kdfUpdate (s.withOperands s.cmd.a s.cmd.b n1) = .next t1 ∧ t1.result = some r1
      ∧ exec .kdfUpdate (t1.withOperands s.cmd.a s.cmd.b n2) = .next t2 ∧ t2.result = some r2
      ∧ exec .kdfUpdate (s.withOperands s.cmd.a s.cmd.b (n1 + n2)) = .next u ∧ u.result = some r
      ∧ r.out = r1.out ++ r2.out ∧ u.kdf = t2.kdf

/-- O41. Rule R197: exhaustion is sticky. -/
def Obligations.KdfExhaustionSticky : Prop :=
  ∀ (s t : State) (out : Bytes), s.kdf.valid = true → exec .kdfUpdate s = .next t →
    t.result = some { st := .sourceExhausted, out := out } →
    ∀ n : BitVec 32, exec .kdfUpdate (t.withOperands t.cmd.a t.cmd.b n) =
      .next (if n = 0 then okWith [] (t.withOperands t.cmd.a t.cmd.b n)
        else refusedWith .sourceExhausted (t.withOperands t.cmd.a t.cmd.b n))

/-- O42. Rules R195, R200, R202: CREATE, then one UPDATE, return the first `w` bytes of the PBKDF2 stream of the password, the
salt and the iteration count. -/
def Obligations.Pbkdf2OfPassword : Prop :=
  ∀ (s : State) (a : Alg) (c1 c2 : Command), s.kdf.valid = false → c1.w = encode (.kdfCreate a.tag) → c1.n ≠ 0 →
    c1.a.val.length ≤ params.pwCap → c1.b.val.length ≤ params.saltCap → c2.w = 0x22000000#32 →
    ∃ t, runSteps 2 (s.withEvents [.command c1, .command c2]) = .next t
      ∧ t.result = some { st := .ok, out := derivedBytes params a c1.a.val c1.b.val c1.n.toNat 0 c2.n.toNat }

/-- O43. Rule R203: `KDF.FINISH` is a no-op on a present context. -/
def Obligations.KdfFinishEffect : Prop :=
  ∀ s : State,
    (∀ w : BitVec 32, decode w = .ok .kdfFinish ↔ w = 0x23000000#32)
    ∧ (s.kdf.valid = true → exec .kdfFinish s = .next (okWith [] s))
    ∧ (s.kdf.valid = false → exec .kdfFinish s = .next (refusedWith .invalidArgument s))

/-- O44. Rule R204: `KDF.DESTROY` clears the four `valid` bits, or warns; nothing outside `KDF` changes. What the other fields of
`KDF` hold afterwards is a free value (notes/assumptions/2.md). -/
def Obligations.KdfDestroyEffect : Prop :=
  ∀ s : State,
    (∀ w : BitVec 32, decode w = .ok .kdfDestroy ↔ w = 0x24000000#32)
    ∧ (s.kdf.valid = true →
      ∃ t, exec .kdfDestroy s = .next t ∧ t.kdf.valid = false ∧ t.kdf.hmac.valid = false
        ∧ t.kdf.hmac.inner.valid = false ∧ t.kdf.hmac.outer.valid = false
        ∧ t = okWith [] { s with kdf := t.kdf, freeCount := t.freeCount })
    ∧ (s.kdf.valid = false →
        exec .kdfDestroy s = .next (okWith [] { s with status := { s.status with warn := true } }))

/-! ### Whole-machine rules -/

/-- O45. Rule R240: a command, legal or not, that returns a status other than `Ok` has changed no field of any context, but for
`SourceExhausted`. -/
def Obligations.FailureChangesNothing : Prop :=
  ∀ (w : BitVec 32) (s : State), ∃ t r, runWord w s = .next t ∧ t.result = some r
    ∧ (r.st ≠ .ok → r.st ≠ .sourceExhausted → t = refusedWith r.st s)

/-- O46. Rule R241: the status-return step of every command, legal or not. -/
def Obligations.StatusReturn : Prop :=
  ∀ (w : BitVec 32) (s : State), ∃ t r, runWord w s = .next t ∧ t.result = some r ∧ t.status.code = r.st.code
    ∧ (r.st ≠ .ok → t.status.err = true) ∧ (r.st = .ok → t.status.err = s.status.err)

/-- O47. Rule R245: `WARN` is set by DESTROY of an absent unit and by nothing else; that command returns `Ok` and does not set
`ERR`. -/
def Obligations.WarningOnlyByDestroy : Prop :=
  ∀ (w : BitVec 32) (s : State), ∃ t, runWord w s = .next t
    ∧ (∀ i, decode w = .ok i → i.op = .destroy → unitPhase i.unit s = .absent →
        t.status.warn = true ∧ t.result = some { st := .ok, out := [] } ∧ t.status.err = s.status.err)
    ∧ ((∀ i, decode w = .ok i → ¬(i.op = .destroy ∧ unitPhase i.unit s = .absent)) → t.status.warn = s.status.warn)

/-- O48. Rule R237: who raises `Error`; and no command raises the two cipher statuses, only `KDF.UPDATE` `SourceExhausted`. -/
def Obligations.WhoRaisesWhat : Prop :=
  ∀ (i : Instr) (s t : State) (r : Reply), exec i s = .next t → t.result = some r →
    r.st ≠ .invalidKeySize ∧ r.st ≠ .invalidIVSize
    ∧ (r.st = .sourceExhausted → i = .kdfUpdate)
    ∧ (r.st = .error ↔ (i = .hmacUpdate ∨ i = .hmacFinish) ∧ hmacPhase s = .finished)

/-- O49. Rule R21: a command writes no field of another unit, and reads none: its result and its own unit's state are the same in
two machines that differ in the other units. The host's pending events and the operands are not written either. -/
def Obligations.UnitIsolation : Prop :=
  ∀ (i : Instr) (s s' : State),
    ∃ t t', exec i s = .next t ∧ exec i s' = .next t' ∧ t.events = s.events ∧ t.cmd = s.cmd
      ∧ (i.unit ≠ .dig → t.dig = s.dig) ∧ (i.unit ≠ .hmac → t.hm = s.hm) ∧ (i.unit ≠ .kdf → t.kdf = s.kdf)
      ∧ (s.cmd = s'.cmd → s.freeCount = s'.freeCount →
          (i.unit = .dig → s.dig = s'.dig → t.dig = t'.dig ∧ t.result = t'.result)
          ∧ (i.unit = .hmac → s.hm = s'.hm → t.hm = t'.hm ∧ t.result = t'.result)
          ∧ (i.unit = .kdf → s.kdf = s'.kdf → t.kdf = t'.kdf ∧ t.result = t'.result))

/-- O50. From rule R40: a command that succeeds is listed for the phase of its unit and leads where the table says; one that fails
leaves the phase unchanged. -/
def Obligations.LifecyclePhases : Prop :=
  ∀ (i : Instr) (s : State), ∃ t r, exec i s = .next t ∧ t.result = some r
    ∧ (r.st = .ok → lifecycle i.unit (unitPhase i.unit s) i.op = some (unitPhase i.unit t))
    ∧ (r.st ≠ .ok → unitPhase i.unit t = unitPhase i.unit s)

/-- O51. Rules R22, R279: the algorithm of a unit that exists before and after a command is the same. -/
def Obligations.AlgorithmFixedWhilePresent : Prop :=
  ∀ (i : Instr) (s t : State), exec i s = .next t →
    (s.dig.valid = true → t.dig.valid = true → t.dig.alg = s.dig.alg)
    ∧ (s.hm.valid = true → t.hm.valid = true → t.hm.alg = s.hm.alg)
    ∧ (s.kdf.valid = true → t.kdf.valid = true → t.kdf.alg = s.kdf.alg)

/-- O52. Rule R100: the commands that do nothing by their semantics, in every state where they succeed. -/
def Obligations.CommandsThatDoNothing : Prop :=
  ∀ s : State,
    (s.kdf.valid = true → exec .kdfFinish s = .next (okWith [] s))
    ∧ (s.dig.valid = true → s.cmd.a.val = [] → exec .digUpdate s = .next (okWith [] s))
    ∧ (s.hm.valid = true → s.hm.fin = false → s.cmd.a.val = [] → exec .hmacUpdate s = .next (okWith [] s))
    ∧ (s.kdf.valid = true → s.cmd.n = 0 → exec .kdfUpdate s = .next (okWith [] s))
    ∧ (s.dig.valid = false → ∃ t, exec .digDestroy s = .next t ∧ t.dig = s.dig ∧ t.status.warn = true)
    ∧ (s.hm.valid = false → ∃ t, exec .hmacDestroy s = .next t ∧ t.hm = s.hm ∧ t.status.warn = true)
    ∧ (s.kdf.valid = false → ∃ t, exec .kdfDestroy s = .next t ∧ t.kdf = s.kdf ∧ t.status.warn = true)

/-- O53. The lengths of the outputs (30_encoding.md section 2, 20_memory.md section 1): `O` bytes from a FINISH of DIG or HMAC,
`N` bytes from a `KDF.UPDATE` that returns `Ok` and fewer from one that is exhausted, none otherwise. -/
def Obligations.OutputLengths : Prop :=
  ∀ (i : Instr) (s : State), s.dig.Inv → s.hm.Inv params → ∃ t r, exec i s = .next t ∧ t.result = some r
    ∧ (i = .digFinish → r.st = .ok → r.out.length = s.dig.alg.outSize)
    ∧ (i = .hmacFinish → r.st = .ok → r.out.length = s.hm.alg.outSize)
    ∧ (i = .kdfUpdate → r.st = .ok → r.out.length = s.cmd.n.toNat)
    ∧ (i = .kdfUpdate → r.st = .sourceExhausted → r.out.length < s.cmd.n.toNat)
    ∧ (i ≠ .digFinish → i ≠ .hmacFinish → i ≠ .kdfUpdate → r.out = [])
    ∧ (r.st ≠ .ok → r.st ≠ .sourceExhausted → r.out = [])

/-- O54. The layout of `STATUS` as the host reads it (10_state.md section 6). -/
def Obligations.StatusLayout : Prop :=
  ∀ r : Status, r.word.extractLsb' 0 4 = r.code ∧ r.word.getLsbD 4 = r.warn ∧ r.word.getLsbD 5 = r.err
    ∧ r.word.extractLsb' 6 26 = 0

/-- O55. Rule R44: the `PHASE` view, `HM.fin` reading 0 while `HM.valid = 0`. -/
def Obligations.PhaseView : Prop :=
  ∀ s : State, (phase s).getLsbD 0 = s.dig.valid ∧ (phase s).getLsbD 1 = s.hm.valid
    ∧ (phase s).getLsbD 2 = (s.hm.valid && s.hm.fin) ∧ (phase s).getLsbD 3 = s.kdf.valid

/-- O56. Rules R103, R136, R134: the pseudo-instruction DIGEST, the sequence of commands of R103, on a block whose `DIG` unit is
absent, returns `Ok` and `H(alg, data)` (R136) and leaves the unit absent (R134). -/
def Obligations.DigestPseudoInstruction : Prop :=
  ∀ (s : State) (a : Alg) (data : Operand), s.dig.valid = false →
    let run := runCommands (digestExpansion a data) s
    firstFailure run.1 = .ok ∧ collectedOutput run.1 = hash params a data.val ∧ run.2.dig.valid = false

/-- O57. Rules R104, R166, R174: the pseudo-instruction HMACONE, the sequence of commands of R104, on a block whose `HMAC` unit is
absent, returns `Ok` and `HMAC(alg, key, data)` (R166) and leaves the unit absent (R174). -/
def Obligations.HmacOnePseudoInstruction : Prop :=
  ∀ (s : State) (a : Alg) (key data : Operand), s.hm.valid = false →
    let run := runCommands (hmacOneExpansion a key data) s
    firstFailure run.1 = .ok ∧ collectedOutput run.1 = hmac params a key.val data.val ∧ run.2.hm.valid = false

/-- O58. Rule R239: a command reports the first failing check of the table, in its order, and `Ok` where none fails; DESTROY of an
absent unit fails no check and sets `WARN`. -/
def Obligations.FirstFailingCheck : Prop :=
  ∀ (w : BitVec 32) (s : State), s.kdf.Inv params →
    ∃ t out, runWord w s = .next t ∧ t.result = some { st := firstFailingCheck params w s, out := out }
      ∧ (w = 0x04000000#32 ∧ s.dig.valid = false ∨ w = 0x14000000#32 ∧ s.hm.valid = false
          ∨ w = 0x24000000#32 ∧ s.kdf.valid = false →
        firstFailingCheck params w s = .ok ∧ t.status.warn = true)

/-- O59. Rule R50: no command reads a field that holds no value. Two machines that differ only in such fields (those of an absent
unit, `scratch` before the first FINISH, `blk` and `scr` while no byte of the block is left) return the same result for every
command word, legal or not, and differ afterwards only in such fields. -/
def Obligations.UnwrittenFieldsUnobservable : Prop :=
  ∀ (w : BitVec 32) (s s' : State), s.Inv params → s'.Inv params → s.Alike s' →
    ∃ t t', runWord w s = .next t ∧ runWord w s' = .next t' ∧ t.result = t'.result ∧ t.Alike t'
end

