-- ==== Sys2Proof/Laws/Bytes.lean ====
section
/-! SUPPORT. Sys2Proof/Laws/Bytes.lean: lemmas about byte orders and byte strings. -/

namespace Sys2Proof.Machine

@[simp] theorem zeros_length (k : Nat) : (zeros k).length = k := by simp [zeros]

@[simp] theorem le_length (n v : Nat) : (le n v).length = n := by
  induction n generalizing v with
  | zero => rfl
  | succ n ih => simp [le, ih]

@[simp] theorem be_length (n v : Nat) : (be n v).length = n := by simp [be]

@[simp] theorem enc_length (o : ByteOrder) (n v : Nat) : (enc o n v).length = n := by cases o <;> simp [enc]

theorem intLe_le (n v : Nat) : intLe (le n v) = v % 256 ^ n := by
  induction n generalizing v with
  | zero => simp [le, intLe, Nat.mod_one]
  | succ n ih =>
    simp only [le, intLe, ih, BitVec.toNat_ofNat]
    rw [pow_succ' 256 n, Nat.mod_mul (x := v) (a := 256) (b := 256 ^ n)]

/-- `int_be` is the inverse of `be`. -/
theorem intBe_be (n v : Nat) : intBe (be n v) = v % 256 ^ n := by simp [intBe, be, intLe_le]

theorem intLe_lt (s : Bytes) : intLe s < 256 ^ s.length := by
  induction s with
  | nil => simp [intLe]
  | cons b bs ih =>
    simp only [intLe, List.length_cons, pow_succ']
    have := b.isLt
    omega

theorem intBe_lt (s : Bytes) : intBe s < 256 ^ s.length := by simpa [intBe] using intLe_lt s.reverse

theorem le_intLe (s : Bytes) : le s.length (intLe s) = s := by
  induction s with
  | nil => rfl
  | cons b bs ih =>
    have hb := b.isLt
    simp only [List.length_cons, le, intLe]
    have h1 : (b.toNat + 256 * intLe bs) / 256 = intLe bs := by omega
    rw [h1, ih]
    congr 1
    apply BitVec.eq_of_toNat_eq
    simp only [BitVec.toNat_ofNat]
    omega

theorem be_intBe (s : Bytes) : be s.length (intBe s) = s := by
  have h := le_intLe s.reverse
  simp only [List.length_reverse] at h
  simp [be, intBe, h]

/-- The encoders see their argument modulo `256^n`. -/
theorem le_mod (n v : Nat) : le n (v % 256 ^ n) = le n v := by
  induction n generalizing v with
  | zero => rfl
  | succ n ih =>
    simp only [le]
    congr 1
    · apply BitVec.eq_of_toNat_eq
      simp only [BitVec.toNat_ofNat]
      rw [pow_succ']
      exact Nat.mod_mul_right_mod v (2 ^ 8) (256 ^ n)
    · rw [pow_succ', ← ih (v / 256), ← Nat.mod_mul_right_div_self]

theorem enc_mod (o : ByteOrder) (n v : Nat) : enc o n (v % 256 ^ n) = enc o n v := by
  cases o <;> simp [enc, be, le_mod]

@[simp] theorem xorBytes_length (s t : Bytes) : (xorBytes s t).length = min s.length t.length := by simp [xorBytes]

@[simp] theorem xorConst_length (s : Bytes) (b : Byte) : (xorConst s b).length = s.length := by simp [xorConst]

theorem zeros_xor (t : Bytes) : xorBytes (zeros t.length) t = t := by
  induction t with
  | nil => rfl
  | cons b bs ih => simpa [xorBytes, zeros, List.replicate_succ] using ih

/-- The two pads of one key differ by `0x6a` in every byte (R31). -/
theorem xor_pads (key : Bytes) :
    xorBytes (xorConst key 0x36#8) (xorConst key 0x5c#8) = List.replicate key.length 0x6a#8 := by
  induction key with
  | nil => rfl
  | cons b bs ih =>
    have hb : (b ^^^ 0x36#8) ^^^ (b ^^^ 0x5c#8) = 0x6a#8 := by
      rw [BitVec.xor_comm b 0x36#8, BitVec.xor_assoc, ← BitVec.xor_assoc b b, BitVec.xor_self]
      decide
    simp only [xorBytes, xorConst] at ih
    simp [xorBytes, xorConst, List.replicate_succ, ih, hb]

end Sys2Proof.Machine
end

