-- ==== Sys2Proof/Laws/Tables.lean ====
section
/-! SUPPORT. Sys2Proof/Laws/Tables.lean: facts about the algorithm table of rule R8, over its six rows. -/

namespace Sys2Proof

theorem Alg.blockSize_pos (a : Alg) : 0 < a.blockSize := by cases a <;> decide
theorem Alg.outSize_pos (a : Alg) : 0 < a.outSize := by cases a <;> decide
theorem Alg.outSize_le_blockSize (a : Alg) : a.outSize ≤ a.blockSize := by cases a <;> decide
theorem Alg.lenFieldSize_lt_blockSize (a : Alg) : a.lenFieldSize < a.blockSize := by cases a <;> decide
theorem Alg.outSize_le_state (a : Alg) : a.outSize ≤ a.stateWords * a.wordBytes := by cases a <;> decide
theorem Alg.wordBits_le (a : Alg) : a.wordBits ≤ 64 := by cases a <;> decide
theorem Alg.ctrModulus_pos (a : Alg) : 0 < a.ctrModulus := by cases a <;> decide
theorem Alg.ctrModulus_le (a : Alg) : a.ctrModulus ≤ 2 ^ 64 := by cases a <;> decide

/-- The counter pair is exactly as wide as the length field (R13). -/
theorem Alg.ctrModulus_sq (a : Alg) : a.ctrModulus * a.ctrModulus = 256 ^ a.lenFieldSize := by cases a <;> decide

/-- The bits of a block divide the range of the counter pair. -/
theorem Alg.blockBits_dvd (a : Alg) : 8 * a.blockSize ∣ a.ctrModulus * a.ctrModulus := by cases a <;> decide

theorem Alg.blockBits_lt_ctrModulus (a : Alg) : 16 * a.blockSize < a.ctrModulus := by cases a <;> decide

theorem Alg.outSize_lt (a : Alg) : a.outSize ≤ 64 := by cases a <;> decide

@[simp] theorem Alg.pad_length (a : Alg) : a.pad.length = a.blockSize := by cases a <;> decide

/-- The padding bytes are `0x80 ‖ 0^(k-1)` (R125). -/
theorem Alg.pad_take (a : Alg) (k : Nat) (h1 : 1 ≤ k) (h2 : k ≤ a.blockSize) :
    a.pad.take k = 0x80#8 :: Machine.zeros (k - 1) := by
  obtain ⟨j, rfl⟩ := Nat.exists_eq_add_of_le' h1
  simp only [Alg.pad, List.take_succ_cons, Machine.zeros, List.take_replicate, Nat.add_sub_cancel]
  congr 2
  omega

theorem Alg.ofTag_tag (a : Alg) : Alg.ofTag a.tag = some a := by cases a <;> rfl

/-- Rule R94: exactly the tags 0..5 name an algorithm. -/
theorem Alg.ofTag_isSome (tag : BitVec 8) : (Alg.ofTag tag).isSome = tagInRange tag := by
  revert tag; decide

theorem Alg.ofTag_some {tag : BitVec 8} {a : Alg} (h : Alg.ofTag tag = some a) : tag = a.tag := by
  cases a <;> revert tag <;> decide

end Sys2Proof
end

