-- ==== Sys2Proof/Laws/Digest.lean ====
section
/-! SUPPORT. Sys2Proof/Laws/Digest.lean: what the internal operations of the Digest Engine do, one lemma per operation: the
canonical forms of `ctr_add`, `dig_update` and `dig_finish`, that each keeps a good context good, and that they refine the
stream characterisation of rule R124. -/

namespace Sys2Proof.Machine

open Config (Params)

variable (P : Params)

/-! ### The chaining value -/

@[simp] theorem fit_length (a : Alg) (ws : List Word) : (fit a ws).length = a.stateWords := by simp [fit]

theorem fitWord_lt (a : Alg) (w : Word) : (fitWord a w).toNat < 2 ^ a.wordBits := by
  simp only [fitWord, BitVec.toNat_setWidth]
  exact lt_of_le_of_lt (Nat.mod_le _ _) (Nat.mod_lt _ (by positivity))

theorem fit_word_lt (a : Alg) (ws : List Word) : ∀ w ∈ fit a ws, w.toNat < 2 ^ a.wordBits := by
  simp only [fit, List.mem_map]
  rintro w ⟨i, -, rfl⟩
  exact fitWord_lt a _

@[simp] theorem iv_length (a : Alg) : (iv P a).length = a.stateWords := by simp [iv]

@[simp] theorem compress_length (a : Alg) (h : List Word) (b : Bytes) : (compress P a h b).length = a.stateWords := by
  simp [compress]

/-- A chaining value of the right shape: `NW` words of `WW` bits. -/
def wordsGood (a : Alg) (h : List Word) : Prop := h.length = a.stateWords ∧ ∀ w ∈ h, w.toNat < 2 ^ a.wordBits

theorem iv_good (a : Alg) : wordsGood a (iv P a) := ⟨iv_length P a, fit_word_lt a _⟩

theorem compress_good (a : Alg) (h : List Word) (b : Bytes) : wordsGood a (compress P a h b) :=
  ⟨compress_length P a h b, fit_word_lt a _⟩

theorem absorb_good (a : Alg) (q : Nat) {h : List Word} (hg : wordsGood a h) (d : Bytes) :
    wordsGood a (absorb P a q h d) := by
  induction q generalizing h d with
  | zero => exact hg
  | succ q ih => exact ih (compress_good P a _ _) _

/-- Blocks absorbed in two goes. -/
theorem absorb_add (a : Alg) (q r : Nat) (h : List Word) (d : Bytes) :
    absorb P a (q + r) h d = absorb P a r (absorb P a q h d) (d.drop (q * a.blockSize)) := by
  induction q generalizing h d with
  | zero => simp [absorb]
  | succ q ih =>
    rw [Nat.add_right_comm]
    simp only [absorb, ih, List.drop_drop]
    congr 2
    rw [Nat.add_mul]; omega

/-- Bytes behind the last whole block are not looked at. -/
theorem absorb_append (a : Alg) (q : Nat) (h : List Word) (x y : Bytes) (hx : q * a.blockSize ≤ x.length) :
    absorb P a q h (x ++ y) = absorb P a q h x := by
  induction q generalizing h x with
  | zero => rfl
  | succ q ih =>
    have h1 : a.blockSize ≤ x.length := by
      have : (q + 1) * a.blockSize = q * a.blockSize + a.blockSize := by ring
      omega
    simp only [absorb]
    rw [List.take_append_of_le_length h1, List.drop_append_of_le_length h1]
    apply ih
    simp only [List.length_drop]
    have : (q + 1) * a.blockSize = q * a.blockSize + a.blockSize := by ring
    omega

/-- `absorb` is the fold of rule R124. -/
theorem absorb_eq_fold (a : Alg) (q : Nat) (h : List Word) (s : Bytes) :
    absorb P a q h s
      = foldBlocks P a h ((List.range q).map fun i => (s.drop (i * a.blockSize)).take a.blockSize) := by
  induction q generalizing h s with
  | zero => rfl
  | succ q ih =>
    rw [List.range_succ_eq_map]
    simp only [absorb, ih, foldBlocks, List.map_cons, List.map_map, List.foldl_cons, Nat.zero_mul, List.drop_zero]
    congr 1
    apply List.map_congr_left
    intro i _
    simp only [Function.comp, List.drop_drop]
    congr 2
    rw [Nat.succ_mul]
    omega

theorem foldBlocks_blocksOf (a : Alg) (h : List Word) (s : Bytes) :
    foldBlocks P a h (blocksOf a s) = absorb P a (s.length / a.blockSize) h s := (absorb_eq_fold P a _ h s).symm

/-! ### The bit counter -/

theorem mod_sq_split (m x y : Nat) (hy : y < m) : (x * m + y) % (m * m) = x % m * m + y := by
  have hm : 0 < m := by omega
  rw [Nat.mod_mul, Nat.mul_comm x m, Nat.mul_add_mod, Nat.mod_eq_of_lt hy, Nat.mul_add_div hm, Nat.div_eq_of_lt hy]
  rw [Nat.add_zero, Nat.mul_comm, Nat.add_comm]

theorem pair_lo (m x y : Nat) (hy : y < m) : (x * m + y) % m = y := by
  rw [Nat.add_comm, Nat.add_mul_mod_self_right, Nat.mod_eq_of_lt hy]

theorem pair_hi (m x y : Nat) (hy : y < m) : (x * m + y) / m = x := by
  rw [Nat.add_comm, Nat.add_mul_div_right _ _ (by omega), Nat.div_eq_of_lt hy, Nat.zero_add]

/-- The carry rule of R122 adds exactly `8*L` to the pair, modulo the range of the pair. -/
theorem carry_add (m lo hi add : Nat) (hlo : lo < m) :
    ((hi + (if (lo + add % m) % m < lo then 1 else 0) + add / m) % m) * m + (lo + add % m) % m
      = (hi * m + lo + add) % (m * m) := by
  have hm : 0 < m := by omega
  have hr := Nat.mod_lt add hm
  have hadd := Nat.div_add_mod add m
  rw [← mod_sq_split m _ _ (Nat.mod_lt _ hm)]
  congr 1
  by_cases hc : lo + add % m < m
  · rw [Nat.mod_eq_of_lt hc, if_neg (by omega)]
    nlinarith
  · have h2 : (lo + add % m) % m = lo + add % m - m := by
      rw [Nat.mod_eq_sub_mod (by omega), Nat.mod_eq_of_lt (by omega)]
    rw [h2, if_pos (by omega)]
    have : lo + add % m - m + m = lo + add % m := by omega
    nlinarith

/-- The two words of a total. -/
theorem ctrAdd_eq (c : DigestCtx) (len : Nat) (hlo : c.lo.toNat < c.alg.ctrModulus) :
    ctrAdd c len =
      { c with
        lo := BitVec.ofNat 64 ((c.total + 8 * len) % (c.alg.ctrModulus * c.alg.ctrModulus) % c.alg.ctrModulus)
        hi := BitVec.ofNat 64 ((c.total + 8 * len) % (c.alg.ctrModulus * c.alg.ctrModulus) / c.alg.ctrModulus) } := by
  have hm := c.alg.ctrModulus_pos
  simp only [ctrAdd, DigestCtx.total]
  rw [← carry_add _ _ _ (8 * len) hlo]
  rw [pair_lo _ _ _ (Nat.mod_lt _ hm), pair_hi _ _ _ (Nat.mod_lt _ hm)]

theorem toNat_ofNat_mod (a : Alg) (t : Nat) : (BitVec.ofNat 64 (t % a.ctrModulus)).toNat = t % a.ctrModulus := by
  rw [BitVec.toNat_ofNat]
  exact Nat.mod_eq_of_lt (lt_of_lt_of_le (Nat.mod_lt _ a.ctrModulus_pos) a.ctrModulus_le)

theorem toNat_ofNat_div (a : Alg) (t : Nat) :
    (BitVec.ofNat 64 (t % (a.ctrModulus * a.ctrModulus) / a.ctrModulus)).toNat
      = t % (a.ctrModulus * a.ctrModulus) / a.ctrModulus := by
  rw [BitVec.toNat_ofNat]
  have h : t % (a.ctrModulus * a.ctrModulus) / a.ctrModulus < a.ctrModulus :=
    Nat.div_lt_of_lt_mul (Nat.mod_lt _ (Nat.mul_pos a.ctrModulus_pos a.ctrModulus_pos))
  exact Nat.mod_eq_of_lt (lt_of_lt_of_le h a.ctrModulus_le)

/-- Rule R122: the pair as one number advances by `8*L`, modulo its range. -/
theorem ctrAdd_total (c : DigestCtx) (len : Nat) (hlo : c.lo.toNat < c.alg.ctrModulus) :
    (ctrAdd c len).total = (c.total + 8 * len) % (c.alg.ctrModulus * c.alg.ctrModulus) := by
  rw [ctrAdd_eq c len hlo]
  simp only [DigestCtx.total, toNat_ofNat_mod, toNat_ofNat_div]
  rw [Nat.mul_comm]
  exact Nat.div_add_mod _ _

theorem ctrAdd_lo_lt (c : DigestCtx) (len : Nat) : (ctrAdd c len).lo.toNat < c.alg.ctrModulus := by
  simp only [ctrAdd, toNat_ofNat_mod]
  exact Nat.mod_lt _ c.alg.ctrModulus_pos

theorem ctrAdd_hi_lt (c : DigestCtx) (len : Nat) : (ctrAdd c len).hi.toNat < c.alg.ctrModulus := by
  simp only [ctrAdd, toNat_ofNat_mod]
  exact Nat.mod_lt _ c.alg.ctrModulus_pos

/-- The counter advances in one go or in two. -/
theorem ctrAdd_ctrAdd (c : DigestCtx) (x y : Nat) (hlo : c.lo.toNat < c.alg.ctrModulus) :
    ctrAdd (ctrAdd c x) y = ctrAdd c (x + y) := by
  rw [ctrAdd_eq (ctrAdd c x) y (ctrAdd_lo_lt c x), ctrAdd_eq c (x + y) hlo, ctrAdd_total c x hlo]
  simp only [ctrAdd, Nat.mod_add_mod]
  congr 4 <;> omega

theorem ctrAdd_zero (c : DigestCtx) (hlo : c.lo.toNat < c.alg.ctrModulus) (hhi : c.hi.toNat < c.alg.ctrModulus) :
    ctrAdd c 0 = c := by
  simp [ctrAdd, Nat.mod_eq_of_lt hlo, Nat.mod_eq_of_lt hhi]

/-! ### `dig_update` -/

@[simp] theorem ctrAdd_valid (c : DigestCtx) (k : Nat) : (ctrAdd c k).valid = c.valid := rfl
@[simp] theorem ctrAdd_alg (c : DigestCtx) (k : Nat) : (ctrAdd c k).alg = c.alg := rfl
@[simp] theorem ctrAdd_h (c : DigestCtx) (k : Nat) : (ctrAdd c k).h = c.h := rfl
@[simp] theorem ctrAdd_buf (c : DigestCtx) (k : Nat) : (ctrAdd c k).buf = c.buf := rfl

theorem keep_buf (l : Bytes) : (if l = [] then [] else l) = l := by split <;> simp_all

/-- The blocks of `dig_update` are taken from the buffered bytes followed by the data, whichever way they go. -/
theorem absorbRest_topOff (c : DigestCtx) (data : Bytes) (hn : c.n < c.bsz) :
    absorbRest P (topOff P c data).1 (topOff P c data).2 =
      { c with
        h := absorb P c.alg ((c.buf ++ data).length / c.alg.blockSize) c.h (c.buf ++ data)
        buf := (c.buf ++ data).drop ((c.buf ++ data).length / c.alg.blockSize * c.alg.blockSize) } := by
  obtain ⟨valid, alg, h, buf, lo, hi⟩ := c
  have hB : 0 < alg.blockSize := alg.blockSize_pos
  simp only [DigestCtx.n, DigestCtx.bsz] at hn
  simp only [topOff, DigestCtx.n, DigestCtx.bsz]
  by_cases hb : buf.length = 0
  · obtain rfl : buf = [] := List.length_eq_zero_iff.mp hb
    simp only [List.length_nil, if_true, absorbRest, DigestCtx.bsz, List.nil_append, keep_buf]
  rw [if_neg hb]
  by_cases hfull : alg.blockSize ≤ buf.length + data.length
  · have htake : min (alg.blockSize - buf.length) data.length = alg.blockSize - buf.length := by omega
    have hlen : data.length - (alg.blockSize - buf.length) = buf.length + data.length - alg.blockSize := by omega
    have hT : (buf ++ data).take alg.blockSize = buf ++ data.take (alg.blockSize - buf.length) := by
      rw [List.take_append, List.take_of_length_le (by omega)]
    have hD : (buf ++ data).drop alg.blockSize = data.drop (alg.blockSize - buf.length) := by
      rw [List.drop_append, List.drop_of_length_le (by omega), List.nil_append]
    have hq : (buf ++ data).length / alg.blockSize = (buf.length + data.length - alg.blockSize) / alg.blockSize + 1 := by
      rw [List.length_append, Nat.div_eq_sub_div hB hfull]
    rw [htake, if_pos (by simp only [List.length_append, List.length_take]; omega), hq]
    simp only [absorbRest, DigestCtx.bsz, keep_buf, List.length_drop, hlen, absorb, hT, hD]
    rw [Nat.add_mul, Nat.one_mul, Nat.add_comm _ alg.blockSize, ← List.drop_drop, hD]
  · have htake : min (alg.blockSize - buf.length) data.length = data.length := by omega
    have hq : (buf ++ data).length / alg.blockSize = 0 := by
      rw [List.length_append]
      exact Nat.div_eq_of_lt (by omega)
    rw [htake, if_neg (by simp only [List.length_append, List.length_take]; omega), hq]
    simp [absorbRest, absorb]

/-- Rule R123 in one form. -/
theorem digUpdate_eq (c : DigestCtx) (data : Bytes) (hn : c.n < c.bsz) (hlo : c.lo.toNat < c.alg.ctrModulus)
    (hhi : c.hi.toNat < c.alg.ctrModulus) :
    digUpdate P c data =
      { ctrAdd c data.length with
        h := absorb P c.alg ((c.buf ++ data).length / c.alg.blockSize) c.h (c.buf ++ data)
        buf := (c.buf ++ data).drop ((c.buf ++ data).length / c.alg.blockSize * c.alg.blockSize) } := by
  by_cases h0 : data.length = 0
  · obtain rfl : data = [] := List.length_eq_zero_iff.mp h0
    simp only [DigestCtx.n, DigestCtx.bsz] at hn
    simp [digUpdate, ctrAdd_zero c hlo hhi, Nat.div_eq_of_lt hn, absorb]
  · simp only [digUpdate, h0, if_false]
    exact absorbRest_topOff P (ctrAdd c data.length) data hn

theorem tail_length (b : Nat) (l : Bytes) : (l.drop (l.length / b * b)).length = l.length % b := by
  have := Nat.div_add_mod l.length b
  rw [List.length_drop, Nat.mul_comm]
  omega

/-- A good context stays good over `dig_update` (R23). -/
theorem digUpdate_good {c : DigestCtx} (hc : c.Good) (data : Bytes) : (digUpdate P c data).Good := by
  have hB : 0 < c.alg.blockSize := c.alg.blockSize_pos
  have htot := ctrAdd_total c data.length hc.lo_width
  have hw := absorb_good P c.alg ((c.buf ++ data).length / c.alg.blockSize) ⟨hc.words, hc.word_width⟩ (c.buf ++ data)
  rw [digUpdate_eq P c data hc.fill hc.lo_width hc.hi_width]
  refine ⟨?_, ctrAdd_lo_lt c _, ctrAdd_hi_lt c _, hw.1, hw.2, ?_⟩
  · simp only [DigestCtx.n, DigestCtx.bsz, tail_length]
    exact Nat.mod_lt _ hB
  · have hcount := hc.count
    have htot' : (ctrAdd c data.length).hi.toNat * c.alg.ctrModulus + (ctrAdd c data.length).lo.toNat
        = (c.total + 8 * data.length) % (c.alg.ctrModulus * c.alg.ctrModulus) := htot
    simp only [DigestCtx.total, DigestCtx.n, DigestCtx.bsz, ctrAdd_alg] at hcount htot' ⊢
    rw [htot', tail_length, Nat.mod_mod_of_dvd _ c.alg.blockBits_dvd, Nat.add_mod, hcount, List.length_append,
      Nat.mul_mod_mul_left 8 data.length, ← Nat.mul_add, Nat.mul_mod_mul_left, Nat.add_mod_mod]

/-- What `dig_update` never touches. -/
@[simp] theorem digUpdate_alg (c : DigestCtx) (data : Bytes) : (digUpdate P c data).alg = c.alg := by
  simp only [digUpdate, absorbRest, topOff]
  split <;> [rfl; (split <;> [rfl; (split <;> rfl)])]

@[simp] theorem digUpdate_valid (c : DigestCtx) (data : Bytes) : (digUpdate P c data).valid = c.valid := by
  simp only [digUpdate, absorbRest, topOff]
  split <;> [rfl; (split <;> [rfl; (split <;> rfl)])]

theorem digUpdate_nil (c : DigestCtx) : digUpdate P c [] = c := rfl

/-- Chunking (R135): two updates are one update over the concatenation, in the whole state. -/
theorem digUpdate_append {c : DigestCtx} (hc : c.Good) (x y : Bytes) :
    digUpdate P (digUpdate P c x) y = digUpdate P c (x ++ y) := by
  have hx := digUpdate_good P hc x
  have hB : 0 < c.alg.blockSize := c.alg.blockSize_pos
  rw [digUpdate_eq P _ y hx.fill hx.lo_width hx.hi_width, digUpdate_eq P c (x ++ y) hc.fill hc.lo_width hc.hi_width]
  have hctr : ctrAdd (digUpdate P c x) y.length =
      { ctrAdd c (x ++ y).length with h := (digUpdate P c x).h, buf := (digUpdate P c x).buf } := by
    rw [List.length_append, ← ctrAdd_ctrAdd c _ _ hc.lo_width, digUpdate_eq P c x hc.fill hc.lo_width hc.hi_width]
    rfl
  rw [hctr, digUpdate_eq P c x hc.fill hc.lo_width hc.hi_width]
  simp only [ctrAdd_alg]
  generalize hq : (c.buf ++ x).length / c.alg.blockSize = q
  have hqle : q * c.alg.blockSize ≤ (c.buf ++ x).length := hq ▸ Nat.div_mul_le_self _ _
  have hcat : (c.buf ++ x).drop (q * c.alg.blockSize) ++ y = (c.buf ++ (x ++ y)).drop (q * c.alg.blockSize) := by
    rw [← List.append_assoc, List.drop_append_of_le_length hqle]
  have hlen : (c.buf ++ (x ++ y)).length / c.alg.blockSize
      = q + ((c.buf ++ (x ++ y)).drop (q * c.alg.blockSize)).length / c.alg.blockSize := by
    have hle : q * c.alg.blockSize ≤ (c.buf ++ (x ++ y)).length := by
      simp only [List.length_append] at hqle ⊢
      omega
    rw [List.length_drop]
    conv_lhs => rw [← Nat.sub_add_cancel hle]
    rw [Nat.add_mul_div_right _ _ hB, Nat.add_comm]
  have habs : absorb P c.alg q c.h (c.buf ++ (x ++ y)) = absorb P c.alg q c.h (c.buf ++ x) := by
    rw [← List.append_assoc]
    exact absorb_append P c.alg q c.h _ _ hqle
  rw [hcat, hlen, absorb_add, habs, Nat.add_mul, ← List.drop_drop]

/-! ### `dig_init`, the stream and `dig_finish` -/

@[simp] theorem digInit_valid (c : DigestCtx) : (digInit P c).valid = c.valid := rfl
@[simp] theorem digInit_alg (c : DigestCtx) : (digInit P c).alg = c.alg := rfl

theorem digInit_good (c : DigestCtx) : (digInit P c).Good := by
  refine ⟨c.alg.blockSize_pos, c.alg.ctrModulus_pos, c.alg.ctrModulus_pos, (iv_good P c.alg).1, (iv_good P c.alg).2, ?_⟩
  simp [DigestCtx.total, digInit, DigestCtx.n]

@[simp] theorem streamState_alg (c : DigestCtx) (s : Bytes) : (streamState P c s).alg = c.alg := rfl
@[simp] theorem streamState_valid (c : DigestCtx) (s : Bytes) : (streamState P c s).valid = c.valid := rfl

/-- After `dig_init` the stream is empty. -/
theorem digInit_eq_stream (c : DigestCtx) : digInit P c = streamState P c [] := by
  simp [digInit, streamState, blocksOf, foldBlocks]

theorem streamState_total (c : DigestCtx) (s : Bytes) :
    (streamState P c s).total = 8 * s.length % (c.alg.ctrModulus * c.alg.ctrModulus) := by
  simp only [DigestCtx.total, streamState, toNat_ofNat_mod, toNat_ofNat_div]
  rw [Nat.mul_comm]
  exact Nat.div_add_mod _ _

/-- Rule R124: `dig_update` from the initial state gives the state of its data as a stream. -/
theorem digUpdate_init (c : DigestCtx) (s : Bytes) : digUpdate P (digInit P c) s = streamState P c s := by
  have hg := digInit_good P c
  rw [digUpdate_eq P _ s hg.fill hg.lo_width hg.hi_width, ctrAdd_eq _ _ hg.lo_width]
  simp [digInit, streamState, DigestCtx.total, foldBlocks_blocksOf]

theorem streamState_good (c : DigestCtx) (s : Bytes) : (streamState P c s).Good := by
  rw [← digUpdate_init]
  exact digUpdate_good P (digInit_good P c) s

/-- Rule R124: `dig_update` appends to the stream. -/
theorem digUpdate_stream (c : DigestCtx) (s data : Bytes) :
    digUpdate P (streamState P c s) data = streamState P c (s ++ data) := by
  rw [← digUpdate_init, ← digUpdate_init, digUpdate_append P (digInit_good P c)]

theorem streamState_n (c : DigestCtx) (s : Bytes) : (streamState P c s).n = s.length % c.alg.blockSize :=
  tail_length _ _

/-- Rule R125, the buffer below `B - LF`. -/
theorem padlen_of_lt {c : DigestCtx} (h : c.n < c.bsz - c.alg.lenFieldSize) :
    padlen c = c.bsz - c.alg.lenFieldSize - c.n := if_pos h

/-- Rule R125, the buffer at `B - LF` or above. -/
theorem padlen_of_ge {c : DigestCtx} (h : c.bsz - c.alg.lenFieldSize ≤ c.n) :
    padlen c = c.bsz + (c.bsz - c.alg.lenFieldSize) - c.n := if_neg (Nat.not_lt.mpr h)

theorem padlen_bounds {c : DigestCtx} (hc : c.n < c.bsz) : 1 ≤ padlen c ∧ padlen c ≤ c.bsz := by
  have := c.alg.lenFieldSize_lt_blockSize
  rcases Nat.lt_or_ge c.n (c.bsz - c.alg.lenFieldSize) with h | h
  · rw [padlen_of_lt h]
    simp only [DigestCtx.bsz] at *
    omega
  · rw [padlen_of_ge h]
    simp only [DigestCtx.bsz] at *
    omega

/-- Rule R125: the padding ends at `B - LF`. -/
theorem padlen_end {c : DigestCtx} (hc : c.n < c.bsz) : (c.n + padlen c) % c.bsz = c.bsz - c.alg.lenFieldSize := by
  have : c.alg.lenFieldSize < c.bsz := c.alg.lenFieldSize_lt_blockSize
  have : 0 < c.alg.lenFieldSize := by cases c.alg <;> decide
  rcases Nat.lt_or_ge c.n (c.bsz - c.alg.lenFieldSize) with h | h
  · rw [padlen_of_lt h, Nat.add_sub_cancel' h.le]
    exact Nat.mod_eq_of_lt (by omega)
  · rw [padlen_of_ge h, Nat.add_sub_cancel' (by omega), Nat.add_mod_left]
    exact Nat.mod_eq_of_lt (by omega)

/-- `padlen` is one byte and the least number of zeros (R125, R136). -/
theorem padlen_stream (c : DigestCtx) (s : Bytes) : padlen (streamState P c s) = padZeros c.alg s.length + 1 := by
  have hn := streamState_n P c s
  simp only [padZeros]
  rcases Nat.lt_or_ge (streamState P c s).n ((streamState P c s).bsz - c.alg.lenFieldSize) with h | h
  · rw [padlen_of_lt h]
    simp only [hn, DigestCtx.bsz, streamState_alg] at *
    cases hA : c.alg <;> simp only [hA, Alg.blockSize, Alg.lenFieldSize] at * <;> omega
  · rw [padlen_of_ge h]
    simp only [hn, DigestCtx.bsz, streamState_alg] at *
    cases hA : c.alg <;> simp only [hA, Alg.blockSize, Alg.lenFieldSize] at * <;> omega

/-- The bytes `dig_finish` appends are those of `pad(M)` (R128, R136). -/
theorem finish_stream (c : DigestCtx) (s : Bytes) :
    s ++ c.alg.pad.take (padlen (streamState P c s)) ++ lenfield (streamState P c s) = padMessage c.alg s := by
  have hb := padlen_bounds (streamState_good P c s).fill
  rw [Alg.pad_take c.alg _ hb.1 hb.2, padlen_stream, Nat.add_sub_cancel]
  simp only [lenfield, streamState_alg, streamState_total, c.alg.ctrModulus_sq, enc_mod, padMessage]

/-- `dig_finish` on a stream: the state of the padded stream and its serialisation (R128, R129). -/
theorem digFinish_stream (c : DigestCtx) (s : Bytes) :
    digFinish P (streamState P c s) = (hash P c.alg s, streamState P c (padMessage c.alg s)) := by
  simp only [digFinish, digUpdate_stream, streamState_alg, finish_stream]
  rfl

theorem padMessage_length (a : Alg) (s : Bytes) :
    (padMessage a s).length = s.length + 1 + padZeros a s.length + a.lenFieldSize := by
  simp [padMessage]
  ring

/-- The padded message is a whole number of blocks (R129). -/
theorem padMessage_whole (a : Alg) (s : Bytes) : (padMessage a s).length % a.blockSize = 0 := by
  rw [padMessage_length]
  simp only [padZeros]
  cases a <;> simp only [Alg.blockSize, Alg.lenFieldSize] <;> omega

@[simp] theorem digFinish_alg (c : DigestCtx) : (digFinish P c).2.alg = c.alg := by simp [digFinish]
@[simp] theorem digFinish_valid (c : DigestCtx) : (digFinish P c).2.valid = c.valid := by simp [digFinish]

theorem digFinish_good {c : DigestCtx} (hc : c.Good) : (digFinish P c).2.Good :=
  digUpdate_good P (digUpdate_good P hc _) _

theorem flatten_enc_length (o : ByteOrder) (n : Nat) (h : List Word) :
    (h.map fun w => enc o n w.toNat).flatten.length = h.length * n := by
  induction h with
  | nil => simp
  | cons w ws ih =>
    simp only [List.map_cons, List.flatten_cons, List.length_append, enc_length, ih, List.length_cons]
    ring

/-- A digest has `O` bytes (R62). -/
theorem serializeWords_length (a : Alg) (h : List Word) (hl : h.length = a.stateWords) :
    (serializeWords a h).length = a.outSize := by
  simp only [serializeWords, List.length_take, flatten_enc_length, hl]
  exact Nat.min_eq_left a.outSize_le_state

theorem digFinish_out_length {c : DigestCtx} (hc : c.Good) : (digFinish P c).1.length = c.alg.outSize := by
  have h := serializeWords_length (digFinish P c).2.alg _ (digFinish_good P hc).words
  rw [digFinish_alg] at h
  rw [← h]
  simp [digFinish, serialize]

theorem digUpdate_n {c : DigestCtx} (hc : c.Good) (data : Bytes) :
    (digUpdate P c data).n = (c.n + data.length) % c.bsz := by
  rw [digUpdate_eq P c data hc.fill hc.lo_width hc.hi_width]
  simp only [DigestCtx.n, tail_length]
  rw [List.length_append]

@[simp] theorem lenfield_length (c : DigestCtx) : (lenfield c).length = c.alg.lenFieldSize := by simp [lenfield]

/-- After `dig_finish` the block buffer is empty (R129). -/
theorem digFinish_n {c : DigestCtx} (hc : c.Good) : (digFinish P c).2.n = 0 := by
  have h1 := digUpdate_good P hc (c.alg.pad.take (padlen c))
  have hb := padlen_bounds hc.fill
  have hlt := c.alg.lenFieldSize_lt_blockSize
  have hsum : (digUpdate P c (c.alg.pad.take (padlen c))).n = c.alg.blockSize - c.alg.lenFieldSize := by
    rw [digUpdate_n P hc, List.length_take, Alg.pad_length, Nat.min_eq_left hb.2, padlen_end hc.fill]
  simp only [digFinish]
  rw [digUpdate_n P h1, hsum, lenfield_length, Nat.sub_add_cancel hlt.le]
  simp only [DigestCtx.bsz, digUpdate_alg, Nat.mod_self]

/-- `dig_update` in the form of `absorbed`. -/
theorem digUpdate_absorbed {c : DigestCtx} (hc : c.Good) (data : Bytes) : digUpdate P c data = absorbed P c data := by
  rw [digUpdate_eq P c data hc.fill hc.lo_width hc.hi_width, ctrAdd_eq c data.length hc.lo_width]
  simp only [absorbed, foldBlocks_blocksOf]

/-- The bytes of `finishBytes` are the padding and the length field (R125, R126). -/
theorem finishBytes_eq {c : DigestCtx} (hc : c.n < c.bsz) : c.alg.pad.take (padlen c) ++ lenfield c = finishBytes c := by
  have hb := padlen_bounds hc
  have hlt : c.alg.lenFieldSize < c.bsz := c.alg.lenFieldSize_lt_blockSize
  have hz : padlen c - 1 = (2 * c.bsz - 1 - c.alg.lenFieldSize - c.n) % c.bsz := by
    rcases Nat.lt_or_ge c.n (c.bsz - c.alg.lenFieldSize) with h | h
    · rw [padlen_of_lt h, show 2 * c.bsz - 1 - c.alg.lenFieldSize - c.n
          = c.bsz - c.alg.lenFieldSize - c.n - 1 + c.bsz by omega, Nat.add_mod_right, Nat.mod_eq_of_lt (by omega)]
    · rw [padlen_of_ge h, Nat.mod_eq_of_lt (by omega)]
      omega
  rw [Alg.pad_take c.alg _ hb.1 hb.2, hz]
  rfl

/-- `dig_finish` in the form of `finished` (R128). -/
theorem digFinish_finished {c : DigestCtx} (hc : c.Good) : digFinish P c = finished P c := by
  simp only [digFinish, finished]
  rw [digUpdate_append P hc, finishBytes_eq hc.fill, digUpdate_absorbed P hc]
  rfl

/-- The initial stream state of a present context (R121). -/
theorem digInit_initial {c : DigestCtx} (hv : c.valid = true) : digInit P c = initialDigest P c.alg := by
  simp [digInit, initialDigest, hv]

/-- One block in an initial context (R163). -/
theorem streamState_block {c : DigestCtx} (hv : c.valid = true) (block : Bytes) (hb : block.length = c.alg.blockSize) :
    streamState P c block = primedDigest P c.alg block := by
  have hpos := c.alg.blockSize_pos
  have hlt : 8 * c.alg.blockSize < c.alg.ctrModulus := by
    have := c.alg.blockBits_lt_ctrModulus
    omega
  have hlt2 : 8 * c.alg.blockSize < c.alg.ctrModulus * c.alg.ctrModulus :=
    lt_of_lt_of_le hlt (Nat.le_mul_of_pos_left _ c.alg.ctrModulus_pos)
  have hd : block.drop c.alg.blockSize = [] := List.drop_of_length_le hb.le
  have ht : block.take c.alg.blockSize = block := List.take_of_length_le hb.le
  simp [streamState, primedDigest, foldBlocks_blocksOf, hb, Nat.div_self hpos, absorb, hd, ht, hv, Nat.mod_eq_of_lt hlt,
    Nat.mod_eq_of_lt hlt2, Nat.div_eq_of_lt hlt]

end Sys2Proof.Machine
end

