-- ==== Sys2Proof/Laws/Hmac.lean ====
section
/-! SUPPORT. Sys2Proof/Laws/Hmac.lean: what the internal operations of HMAC do, one lemma per operation, and that they compute
`HMAC` of rule R166. -/

namespace Sys2Proof.Machine

open Config (Params)

variable (P : Params)

theorem hash_length (a : Alg) (msg : Bytes) : (hash P a msg).length = a.outSize := by
  have h := (absorb_good P a ((padMessage a msg).length / a.blockSize) (iv_good P a) (padMessage a msg)).1
  exact serializeWords_length a _ (by rw [foldBlocks_blocksOf]; exact h)

theorem hmacKey_length (a : Alg) (key : Bytes) : (hmacKey P a key).length = a.blockSize := by
  have := a.outSize_le_blockSize
  simp only [hmacKey]
  split
  · simp only [List.length_append, hash_length, zeros_length]
    omega
  · simp only [List.length_append, zeros_length]
    omega

/-- A stream state takes from the context only what `dig_init` and `dig_update` keep. -/
theorem streamState_congr {c d : DigestCtx} (s : Bytes) (hv : c.valid = d.valid) (ha : c.alg = d.alg) :
    streamState P c s = streamState P d s := by simp [streamState, hv, ha]

theorem digInit_congr {c d : DigestCtx} (hv : c.valid = d.valid) (ha : c.alg = d.alg) : digInit P c = digInit P d := by
  simp [digInit, hv, ha]

/-- `derive_key` computes `key'` (R161). -/
theorem deriveKey_key (m : HmacCtx) (key : Bytes) (ha : m.inner.alg = m.alg) :
    (deriveKey P m key).1 = hmacKey P m.alg key := by
  simp only [deriveKey, hmacKey]
  split
  · simp [digUpdate_init, digFinish_stream, ha]
  · rfl

/-- What `derive_key` keeps: everything but the working state of the inner Digest Context. -/
theorem deriveKey_ctx (m : HmacCtx) (key : Bytes) :
    ∃ d : DigestCtx, d.valid = m.inner.valid ∧ d.alg = m.inner.alg ∧ (deriveKey P m key).2 = { m with inner := d } := by
  simp only [deriveKey]
  split
  · exact ⟨_, by simp, by simp, rfl⟩
  · exact ⟨m.inner, rfl, rfl, rfl⟩

/-- `hmac_reset` in one form (R163): the pads of the key, the inner digest primed with `ipad`, the outer one initial. -/
theorem hmacReset_eq (m : HmacCtx) (key : Bytes) (ha : m.inner.alg = m.alg) :
    hmacReset P m key =
      { m with
        ipad := xorConst (hmacKey P m.alg key) 0x36#8
        opad := xorConst (hmacKey P m.alg key) 0x5c#8
        inner := streamState P m.inner (xorConst (hmacKey P m.alg key) 0x36#8)
        outer := digInit P m.outer
        fin := false } := by
  obtain ⟨d, hv, hd, hctx⟩ := deriveKey_ctx P m key
  have hlen : (xorConst (hmacKey P m.alg key) 0x36#8).length = m.alg.blockSize := by simp [hmacKey_length]
  simp only [hmacReset, writePads, hctx, deriveKey_key P m key ha]
  rw [List.take_of_length_le hlen.le, digUpdate_init, streamState_congr P _ hv hd]

@[simp] theorem hmacReset_valid (m : HmacCtx) (key : Bytes) : (hmacReset P m key).valid = m.valid := by
  obtain ⟨d, -, -, hctx⟩ := deriveKey_ctx P m key
  simp [hmacReset, writePads, hctx]

@[simp] theorem hmacReset_alg (m : HmacCtx) (key : Bytes) : (hmacReset P m key).alg = m.alg := by
  obtain ⟨d, -, -, hctx⟩ := deriveKey_ctx P m key
  simp [hmacReset, writePads, hctx]

@[simp] theorem hmacReset_scratch (m : HmacCtx) (key : Bytes) : (hmacReset P m key).scratch = m.scratch := by
  obtain ⟨d, -, -, hctx⟩ := deriveKey_ctx P m key
  simp [hmacReset, writePads, hctx]

@[simp] theorem hmacReset_fin (m : HmacCtx) (key : Bytes) : (hmacReset P m key).fin = false := rfl

@[simp] theorem hmacReset_inner_valid (m : HmacCtx) (key : Bytes) : (hmacReset P m key).inner.valid = m.inner.valid := by
  obtain ⟨d, hv, -, hctx⟩ := deriveKey_ctx P m key
  simp [hmacReset, writePads, hctx, hv]

@[simp] theorem hmacReset_inner_alg (m : HmacCtx) (key : Bytes) : (hmacReset P m key).inner.alg = m.inner.alg := by
  obtain ⟨d, -, hd, hctx⟩ := deriveKey_ctx P m key
  simp [hmacReset, writePads, hctx, hd]

@[simp] theorem hmacReset_outer (m : HmacCtx) (key : Bytes) : (hmacReset P m key).outer = digInit P m.outer := by
  obtain ⟨d, -, -, hctx⟩ := deriveKey_ctx P m key
  simp [hmacReset, writePads, hctx]

/-- What `hmac_init` sets up and every later operation keeps: the context and its Digest Contexts exist, for one algorithm, and
`scratch` has `O` bytes. -/
structure HmacCtx.Formed (m : HmacCtx) : Prop where
  valid : m.valid = true
  inner_valid : m.inner.valid = true
  outer_valid : m.outer.valid = true
  inner_alg : m.inner.alg = m.alg
  outer_alg : m.outer.alg = m.alg
  scratch_size : m.scratch.length = m.alg.outSize

theorem HmacCtx.Good.formed {m : HmacCtx} (hm : m.Good P) : m.Formed :=
  ⟨hm.present, hm.inner_present, hm.outer_present, hm.inner_alg, hm.outer_alg, hm.scratch_size⟩

/-- `hmac_init` forms a context, whatever was in it (R160). -/
theorem hmacInit_formed (m : HmacCtx) (a : Alg) {scratch : Bytes} (hs : scratch.length = a.outSize) :
    ({ hmacInit m a scratch with valid := true } : HmacCtx).Formed := ⟨rfl, rfl, rfl, rfl, rfl, hs⟩

/-- `hmac_reset` makes a good HMAC Context of a formed one, whatever its working state. -/
theorem hmacReset_good {m : HmacCtx} (key : Bytes) (hm : m.Formed) : (hmacReset P m key).Good P := by
  have hk := hmacKey_length P m.alg key
  rw [hmacReset_eq P m key hm.inner_alg]
  exact
    { present := hm.valid
      inner_present := hm.inner_valid
      outer_present := hm.outer_valid
      inner_alg := hm.inner_alg
      outer_alg := hm.outer_alg
      inner_good := streamState_good P _ _
      outer_good := digInit_good P _
      ipad_size := by simp [hk]
      opad_size := by simp [hk]
      pads := by simp only [xor_pads, hk]
      ready := fun _ => rfl
      scratch_size := hm.scratch_size
      finished := fun h => by simp at h }

/-- `hmac_reset` of a formed context is the context of the key (R163). -/
theorem hmacReset_keyed {m : HmacCtx} (key : Bytes) (hm : m.Formed) :
    hmacReset P m key = keyedHmac P m.alg key m.scratch := by
  have hb : (xorConst (hmacKey P m.alg key) 0x36#8).length = m.inner.alg.blockSize := by
    rw [xorConst_length, hmacKey_length, hm.inner_alg]
  rw [hmacReset_eq P m key hm.inner_alg, streamState_block P hm.inner_valid _ hb, digInit_initial P hm.outer_valid, hm.inner_alg,
    hm.outer_alg]
  simp [keyedHmac, hm.valid]

/-- A second reset with the same key changes nothing more. -/
theorem hmacReset_again (m : HmacCtx) (key : Bytes) (hi : m.inner.alg = m.alg) :
    hmacReset P (hmacReset P m key) key = hmacReset P m key := by
  have hi' : (hmacReset P m key).inner.alg = (hmacReset P m key).alg := by simp [hi]
  rw [hmacReset_eq P _ key hi', hmacReset_eq P m key hi]
  simp only [HmacCtx.mk.injEq, true_and, and_true]
  exact ⟨streamState_congr P _ rfl rfl, digInit_congr P rfl rfl⟩

theorem hmacUpdate_good {m : HmacCtx} (hm : m.Good P) (hf : m.fin = false) (data : Bytes) :
    (hmacUpdate P m data).Good P :=
  { present := hm.present
    inner_present := by simp [hmacUpdate, hm.inner_present]
    outer_present := hm.outer_present
    inner_alg := by simp [hmacUpdate, hm.inner_alg]
    outer_alg := hm.outer_alg
    inner_good := digUpdate_good P hm.inner_good data
    outer_good := hm.outer_good
    ipad_size := hm.ipad_size
    opad_size := hm.opad_size
    pads := hm.pads
    ready := hm.ready
    scratch_size := hm.scratch_size
    finished := fun h => by simp [hmacUpdate, hf] at h }

/-- `hmac_update` twice is `hmac_update` of the concatenation. -/
theorem hmacUpdate_append {m : HmacCtx} (hm : m.Good P) (x y : Bytes) :
    hmacUpdate P (hmacUpdate P m x) y = hmacUpdate P m (x ++ y) := by
  simp [hmacUpdate, digUpdate_append P hm.inner_good]

/-- What `hmac_finish` never touches. -/
@[simp] theorem hmacFinish_valid (m : HmacCtx) : (hmacFinish P m).2.valid = m.valid := rfl
@[simp] theorem hmacFinish_alg (m : HmacCtx) : (hmacFinish P m).2.alg = m.alg := rfl
@[simp] theorem hmacFinish_ipad (m : HmacCtx) : (hmacFinish P m).2.ipad = m.ipad := rfl
@[simp] theorem hmacFinish_opad (m : HmacCtx) : (hmacFinish P m).2.opad = m.opad := rfl
@[simp] theorem hmacFinish_fin (m : HmacCtx) : (hmacFinish P m).2.fin = true := rfl
@[simp] theorem hmacFinish_inner_valid (m : HmacCtx) : (hmacFinish P m).2.inner.valid = m.inner.valid := by
  simp [hmacFinish]
@[simp] theorem hmacFinish_outer_valid (m : HmacCtx) : (hmacFinish P m).2.outer.valid = m.outer.valid := by
  simp [hmacFinish]
@[simp] theorem hmacFinish_inner_alg (m : HmacCtx) : (hmacFinish P m).2.inner.alg = m.inner.alg := by simp [hmacFinish]
@[simp] theorem hmacFinish_outer_alg (m : HmacCtx) : (hmacFinish P m).2.outer.alg = m.outer.alg := by simp [hmacFinish]

theorem hmacFinish_good {m : HmacCtx} (hm : m.Good P) : (hmacFinish P m).2.Good P := by
  have ho := digUpdate_good P (digUpdate_good P hm.outer_good (m.opad.take m.alg.blockSize))
    ((digFinish P m.inner).1.take m.alg.outSize)
  exact
    { present := hm.present
      inner_present := by simp [hm.inner_present]
      outer_present := by simp [hm.outer_present]
      inner_alg := by simp [hm.inner_alg]
      outer_alg := by simp [hm.outer_alg]
      inner_good := digFinish_good P hm.inner_good
      outer_good := digFinish_good P ho
      ipad_size := hm.ipad_size
      opad_size := hm.opad_size
      pads := hm.pads
      ready := fun h => by simp at h
      scratch_size := by simp only [hmacFinish, digFinish_out_length P hm.inner_good, hm.inner_alg]
      finished := fun _ => ⟨digFinish_n P hm.inner_good, digFinish_n P ho⟩ }

theorem hmacFinish_out_length {m : HmacCtx} (hm : m.Good P) : (hmacFinish P m).1.length = m.alg.outSize := by
  have ho := digUpdate_good P (digUpdate_good P hm.outer_good (m.opad.take m.alg.blockSize))
    ((digFinish P m.inner).1.take m.alg.outSize)
  have h := digFinish_out_length P ho
  simpa [hmacFinish, hm.outer_alg] using h

/-- The inner Digest Context of a key has taken `ipad` (R163). -/
theorem primedDigest_stream (a : Alg) (key : Bytes) :
    primedDigest P a (xorConst (hmacKey P a key) 0x36#8)
      = streamState P (initialDigest P a) (xorConst (hmacKey P a key) 0x36#8) := by
  have hb : (xorConst (hmacKey P a key) 0x36#8).length = (initialDigest P a).alg.blockSize := by
    rw [xorConst_length, hmacKey_length]
    rfl
  rw [streamState_block P rfl _ hb]
  rfl

/-- Rules R165, R166: finish after a key and a message returns the HMAC and leaves a context that depends on them only. -/
theorem hmacFinish_keyed (a : Alg) (key msg scratch : Bytes) :
    hmacFinish P (hmacUpdate P (keyedHmac P a key scratch) msg) = (hmac P a key msg, finishedHmac P a key msg) := by
  have hb : (xorConst (hmacKey P a key) 0x5c#8).length ≤ a.blockSize := by simp [hmacKey_length]
  have hin : (hmacUpdate P (keyedHmac P a key scratch) msg).inner
      = streamState P (initialDigest P a) (xorConst (hmacKey P a key) 0x36#8 ++ msg) := by
    rw [← digUpdate_stream, ← primedDigest_stream]
    rfl
  have hout : (hmacUpdate P (keyedHmac P a key scratch) msg).outer = digInit P (initialDigest P a) := rfl
  have hopad : (hmacUpdate P (keyedHmac P a key scratch) msg).opad.take a.blockSize = xorConst (hmacKey P a key) 0x5c#8 :=
    List.take_of_length_le hb
  have hh := hash_length P a (xorConst (hmacKey P a key) 0x36#8 ++ msg)
  have ha : (initialDigest P a).alg = a := rfl
  have hm : (hmacUpdate P (keyedHmac P a key scratch) msg).alg = a := rfl
  simp only [hmacFinish, hin, hout, hm, hopad, digFinish_stream, ha, List.take_of_length_le hh.le, digUpdate_init,
    digUpdate_stream]
  rfl

/-- The same from any formed context. -/
theorem hmacFinish_reset {m : HmacCtx} (key msg : Bytes) (hm : m.Formed) :
    hmacFinish P (hmacUpdate P (hmacReset P m key) msg) = (hmac P m.alg key msg, finishedHmac P m.alg key msg) := by
  rw [hmacReset_keyed P key hm, hmacFinish_keyed]

theorem keyedHmac_formed (a : Alg) (key : Bytes) {scratch : Bytes} (hs : scratch.length = a.outSize) :
    (keyedHmac P a key scratch).Formed := ⟨rfl, rfl, rfl, rfl, rfl, hs⟩

theorem keyedHmac_good (a : Alg) (key : Bytes) {scratch : Bytes} (hs : scratch.length = a.outSize) :
    (keyedHmac P a key scratch).Good P := by
  have h := hmacReset_good P key (hmacInit_formed HmacCtx.reset a hs)
  rwa [hmacReset_keyed P key (hmacInit_formed HmacCtx.reset a hs)] at h

theorem finishedHmac_good (a : Alg) (key msg : Bytes) : (finishedHmac P a key msg).Good P := by
  have hs : (zeros a.outSize).length = a.outSize := by simp
  have h := hmacFinish_good P (hmacUpdate_good P (keyedHmac_good P a key hs) rfl msg)
  rwa [hmacFinish_keyed] at h

end Sys2Proof.Machine
end

