-- ==== Sys2Proof/Laws/Kdf.lean ====
section
/-! SUPPORT. Sys2Proof/Laws/Kdf.lean: what the internal operations of PBKDF2 do, one lemma per operation, and that they
compute the derived stream of rules R195 and R196. -/

namespace Sys2Proof.Machine

open Config (Params)

variable (P : Params)

/-! ### `kdf_reset` and `ctr_inc` -/

/-- What `KDF.CREATE` sets up before `kdf_reset` and every later operation keeps. -/
structure KdfCtx.Formed (k : KdfCtx) : Prop where
  hmac : k.hmac.Formed
  alg : k.hmac.alg = k.alg

theorem KdfCtx.Sound.formed {k : KdfCtx} (hk : k.Sound P) : k.Formed := ⟨hk.hmac_good.formed, hk.hmac_alg⟩

theorem kdfInit_formed (k : KdfCtx) (a : Alg) {scratch : Bytes} (blk scr : Bytes) (hs : scratch.length = a.outSize) :
    (kdfInit k a scratch blk scr).Formed := ⟨hmacInit_formed k.hmac a hs, rfl⟩

/-- `kdf_reset` of a formed context is the context of the password, the salt and the iteration count (R191). -/
theorem kdfReset_keyed {k : KdfCtx} (pw salt : Bytes) (iters : BitVec 32) (hk : k.Formed) :
    ({ kdfReset P k pw salt iters with valid := true } : KdfCtx)
      = keyedKdf P k.alg pw salt iters k.hmac.scratch k.blk k.scr := by
  have hr := hmacReset_keyed P pw hk.hmac
  simp [kdfReset, keyedKdf, hr, hk.alg, zeros, List.replicate]

theorem keyedKdf_position (a : Alg) (pw salt : Bytes) (iters : BitVec 32) (scratch blk scr : Bytes) :
    (keyedKdf P a pw salt iters scratch blk scr).position = 0 := by
  have h : intBe [0#8, 0#8, 0#8, 0#8] = 0 := by decide
  simp [KdfCtx.position, keyedKdf, h]

theorem keyedKdf_good (a : Alg) {pw salt : Bytes} {iters : BitVec 32} {scratch blk scr : Bytes}
    (hpw : pw.length ≤ P.pwCap) (hsalt : salt.length ≤ P.saltCap) (hit : iters ≠ 0) (hscratch : scratch.length = a.outSize)
    (hblk : blk.length = a.outSize) (hscr : scr.length = a.outSize) :
    (keyedKdf P a pw salt iters scratch blk scr).Good P := by
  have hpos : 1 ≤ iters.toNat := by
    have : iters.toNat ≠ 0 := fun h => hit (BitVec.eq_of_toNat_eq h)
    omega
  exact
    { hmac_alg := rfl
      hmac_good := keyedHmac_good P a pw hscratch
      pw_fits := hpw
      salt_fits := hsalt
      iter_pos := hpos
      ctr_size := rfl
      blk_size := hblk
      scr_size := hscr
      cursor := le_refl _
      ipad := rfl
      opad := rfl
      primed := fun _ => (hmacReset_keyed P pw (keyedHmac_formed P a pw hscratch)).symm
      block := fun h => absurd h (lt_irrefl _)
      lazy := a.outSize_pos }

theorem ctr_lt {k : KdfCtx} (h : k.ctr.length = 4) : intBe k.ctr < 2 ^ 32 := by
  have := intBe_lt k.ctr
  rw [h] at this
  exact this

theorem saturated : (List.replicate 4 0xFF#8 : Bytes) = be 4 (2 ^ 32 - 1) := by decide

/-- `ctr_inc` below the top (R192). -/
theorem ctrInc_ok {k : KdfCtx} (hlt : intBe k.ctr + 1 < 2 ^ 32) :
    ctrInc k = ({ k with ctr := be 4 (intBe k.ctr + 1) }, false) := by
  simp only [ctrInc, Nat.mod_eq_of_lt hlt]
  rw [if_neg (by omega)]

/-- `ctr_inc` at the top: exhausted, and the counter keeps its value (R192). -/
theorem ctrInc_exhausted {k : KdfCtx} (h4 : k.ctr.length = 4) (htop : intBe k.ctr + 1 = 2 ^ 32) : ctrInc k = (k, true) := by
  have hv : intBe k.ctr = 2 ^ 32 - 1 := by omega
  have hc : k.ctr = be 4 (2 ^ 32 - 1) := by rw [← hv, ← h4, be_intBe]
  simp only [ctrInc, htop, Nat.mod_self, if_true, saturated, ← hc]

/-! ### `derive_block` -/

/-- What round `j` feeds the HMAC (R193). -/
def roundMessage (j : Nat) (k : KdfCtx) : Bytes := if j = 0 then k.salt ++ k.ctr.take 4 else k.scr.take k.alg.outSize

/-- One round in one form (R193). -/
theorem kdfRound_spec (j : Nat) {k : KdfCtx} (hk : k.Formed) :
    kdfRound P j k =
      { k with
        hmac := finishedHmac P k.alg k.pw (roundMessage j k)
        scr := hmac P k.alg k.pw (roundMessage j k)
        blk := xorBytes k.blk (hmac P k.alg k.pw (roundMessage j k)) } := by
  have hfed : (if j = 0 then hmacUpdate P (hmacUpdate P (hmacReset P k.hmac k.pw) k.salt) (k.ctr.take 4)
      else hmacUpdate P (hmacReset P k.hmac k.pw) (k.scr.take k.alg.outSize))
        = hmacUpdate P (hmacReset P k.hmac k.pw) (roundMessage j k) := by
    simp only [roundMessage]
    split
    · rw [hmacUpdate_append P (hmacReset_good P k.pw hk.hmac)]
    · rfl
  simp only [kdfRound, hfed, hmacFinish_reset P k.pw (roundMessage j k) hk.hmac, hk.alg]

theorem hmac_length (a : Alg) (key msg : Bytes) : (hmac P a key msg).length = a.outSize := hash_length P a _

theorem prfRound_length (a : Alg) (pw salt : Bytes) (i j : Nat) : (prfRound P a pw salt i j).length = a.outSize := by
  cases j <;> exact hmac_length P a _ _

theorem prfXor_length (a : Alg) (pw salt : Bytes) (i j : Nat) : (prfXor P a pw salt i j).length = a.outSize := by
  induction j with
  | zero => exact prfRound_length P a pw salt i 0
  | succ j ih => simp [prfXor, ih, prfRound_length]

theorem derivedBlock_length (a : Alg) (pw salt : Bytes) (c i : Nat) : (derivedBlock P a pw salt c i).length = a.outSize :=
  prfXor_length P a pw salt i (c - 1)

/-- `U_(j+1)` is the HMAC of its message (R195). -/
theorem prfRound_message (a : Alg) (pw salt : Bytes) (i j : Nat) :
    prfRound P a pw salt i j = hmac P a pw (prfMessage P a pw salt i j) := by
  cases j <;> rfl

/-- The context after round `j` of `derive_block` for block `i` (R195): `scr` is `U_(j+1)`, `blk` the exclusive-or so far. -/
def afterRound (k : KdfCtx) (i j : Nat) : KdfCtx :=
  { k with
    hmac := finishedHmac P k.alg k.pw (prfMessage P k.alg k.pw k.salt i j)
    scr := prfRound P k.alg k.pw k.salt i j
    blk := prfXor P k.alg k.pw k.salt i j }

theorem afterRound_formed (k : KdfCtx) (i j : Nat) : (afterRound P k i j).Formed :=
  ⟨(finishedHmac_good P _ _ _).formed, rfl⟩

/-- The first round, from a block of zeros. -/
theorem kdfRound_zero {k : KdfCtx} (hk : k.Formed) (h4 : k.ctr.length = 4) :
    kdfRound P 0 { k with blk := zeros k.alg.outSize } = afterRound P k (intBe k.ctr) 0 := by
  have hmsg : roundMessage 0 { k with blk := zeros k.alg.outSize } = prfMessage P k.alg k.pw k.salt (intBe k.ctr) 0 := by
    rw [roundMessage, if_pos rfl, List.take_of_length_le h4.le, prfMessage, ← h4, be_intBe]
  have hx := zeros_xor (prfRound P k.alg k.pw k.salt (intBe k.ctr) 0)
  rw [prfRound_length] at hx
  rw [kdfRound_spec P 0 (k := { k with blk := zeros k.alg.outSize }) ⟨hk.hmac, hk.alg⟩, hmsg, ← prfRound_message, hx]
  rfl

/-- A further round. -/
theorem kdfRound_succ (k : KdfCtx) (i j : Nat) : kdfRound P (j + 1) (afterRound P k i j) = afterRound P k i (j + 1) := by
  have hmsg : roundMessage (j + 1) (afterRound P k i j) = prfMessage P k.alg k.pw k.salt i (j + 1) := by
    rw [roundMessage, if_neg (by omega)]
    exact List.take_of_length_le (prfRound_length P _ _ _ _ _).le
  rw [kdfRound_spec P (j + 1) (afterRound_formed P k i j), hmsg]
  rfl

theorem kdfRounds_afterRound (k : KdfCtx) (i r j : Nat) :
    kdfRounds P r (j + 1) (afterRound P k i j) = afterRound P k i (j + r) := by
  induction r generalizing j with
  | zero => rfl
  | succ r ih => rw [kdfRounds, kdfRound_succ, ih, show j + 1 + r = j + (r + 1) by omega]

/-- `derive_block` computes `T_i` for `i = int_be(k.ctr)` (R195). -/
theorem deriveBlock_spec {k : KdfCtx} (hk : k.Formed) (h4 : k.ctr.length = 4) (hit : 1 ≤ k.iter.toNat) :
    deriveBlock P k = derivedKdf P k (intBe k.ctr) 0 := by
  obtain ⟨r, hr⟩ := Nat.exists_eq_add_of_le' hit
  have hc : be 4 (intBe k.ctr) = k.ctr := by rw [← h4, be_intBe]
  have h := kdfRounds_afterRound P k (intBe k.ctr) r 0
  simp only [Nat.zero_add] at h
  simp only [deriveBlock, hr, kdfRounds, kdfRound_zero P hk h4, Nat.zero_add, h, derivedKdf, derivedBlock, hc,
    Nat.add_sub_cancel]
  rfl

/-- Deriving the next block from a sound context with a counter below the top (R192, R193). -/
theorem deriveNext {k : KdfCtx} (hk : k.Sound P) (hlt : intBe k.ctr + 1 < 2 ^ 32) :
    deriveBlock P (ctrInc k).1 = derivedKdf P k (intBe k.ctr + 1) 0 := by
  have hc : intBe (be 4 (intBe k.ctr + 1)) = intBe k.ctr + 1 := by
    rw [intBe_be, Nat.mod_eq_of_lt (by omega)]
  have h := deriveBlock_spec P (k := { k with ctr := be 4 (intBe k.ctr + 1) }) ⟨hk.hmac_good.formed, hk.hmac_alg⟩ (by simp)
    hk.iter_pos
  rw [ctrInc_ok hlt, h]
  simp only [hc]
  rfl

theorem derivedKdf_sound {k : KdfCtx} (hk : k.Sound P) {i idx : Nat} (h1 : 1 ≤ i) (h2 : i < 2 ^ 32)
    (hidx : idx ≤ k.alg.outSize) : (derivedKdf P k i idx).Sound P := by
  have hc : intBe (be 4 i) = i := by rw [intBe_be, Nat.mod_eq_of_lt (by omega)]
  exact
    { hmac_alg := rfl
      hmac_good := finishedHmac_good P _ _ _
      pw_fits := hk.pw_fits
      salt_fits := hk.salt_fits
      iter_pos := hk.iter_pos
      ctr_size := by simp [derivedKdf]
      blk_size := derivedBlock_length P _ _ _ _ _
      scr_size := prfRound_length P _ _ _ _ _
      cursor := hidx
      ipad := rfl
      opad := rfl
      primed := fun h => by cases h
      block := fun _ => by simp only [derivedKdf, hc, h1, true_and] }

/-! The fields of `derivedKdf`. -/

@[simp] theorem derivedKdf_alg (k : KdfCtx) (i idx : Nat) : (derivedKdf P k i idx).alg = k.alg := rfl
@[simp] theorem derivedKdf_idx (k : KdfCtx) (i idx : Nat) : (derivedKdf P k i idx).idx = idx := rfl
@[simp] theorem derivedKdf_ctr (k : KdfCtx) (i idx : Nat) : (derivedKdf P k i idx).ctr = be 4 i := rfl

theorem derivedKdf_position (k : KdfCtx) {i : Nat} (idx : Nat) (h2 : i < 2 ^ 32) :
    (derivedKdf P k i idx).position = i * k.alg.outSize + idx - k.alg.outSize := by
  have hc : intBe (be 4 i) = i := by rw [intBe_be, Nat.mod_eq_of_lt (by omega)]
  simp only [KdfCtx.position, derivedKdf, hc]

/-! ### `kdf_emit` -/

theorem position_le {k : KdfCtx} (hk : k.Sound P) : k.position ≤ streamLength k.alg := by
  have h := ctr_lt hk.ctr_size
  have hc := hk.cursor
  have : intBe k.ctr * k.alg.outSize ≤ (2 ^ 32 - 1) * k.alg.outSize := Nat.mul_le_mul_right _ (by omega)
  simp only [KdfCtx.position, streamLength]
  omega

/-- The byte under the cursor is the byte of the derived stream at this position (R196). -/
theorem cursor_byte {k : KdfCtx} (hk : k.Sound P) (hlt : k.idx < k.alg.outSize) :
    byteAt k.blk k.idx = derivedByte P k.alg k.pw k.salt k.iter.toNat k.position := by
  obtain ⟨h1, hb⟩ := hk.block hlt
  obtain ⟨c, hc⟩ := Nat.exists_eq_add_of_le' h1
  have hpos : k.position = c * k.alg.outSize + k.idx := by
    simp only [KdfCtx.position, hc, Nat.add_mul, Nat.one_mul]
    omega
  rw [derivedByte, hpos, pair_hi _ _ _ hlt, pair_lo _ _ _ hlt, hb, hc]

/-- One emitted byte: the context afterwards, from a sound one whose block has bytes left. -/
theorem advance_good {k : KdfCtx} (hk : k.Sound P) (hlt : k.idx < k.alg.outSize) :
    ({ k with idx := k.idx + 1 } : KdfCtx).Good P ∧ ({ k with idx := k.idx + 1 } : KdfCtx).position = k.position + 1 := by
  obtain ⟨h1, -⟩ := hk.block hlt
  have hle : k.alg.outSize ≤ intBe k.ctr * k.alg.outSize := Nat.le_mul_of_pos_left _ h1
  refine ⟨?_, ?_⟩
  · exact
      { hmac_alg := hk.hmac_alg, hmac_good := hk.hmac_good, pw_fits := hk.pw_fits, salt_fits := hk.salt_fits
        iter_pos := hk.iter_pos, ctr_size := hk.ctr_size, blk_size := hk.blk_size, scr_size := hk.scr_size, cursor := hlt
        ipad := hk.ipad, opad := hk.opad, primed := hk.primed, block := fun h => hk.block hlt, lazy := Nat.succ_pos _ }
  · simp only [KdfCtx.position]
    omega

/-- What the context of a unit is after `w` more bytes of the stream (R194): while the block lasts only the cursor moves; past
it the context is that of the last block begun. -/
def KdfCtx.advanced (k : KdfCtx) (w : Nat) : KdfCtx :=
  if k.idx + w ≤ k.alg.outSize then { k with idx := k.idx + w }
  else
    let i := (k.position + w + k.alg.outSize - 1) / k.alg.outSize
    derivedKdf P k i (k.position + w - (i - 1) * k.alg.outSize)

/-- The three cases of `kdfRefill` (R194), by the position in the stream. -/
theorem kdfRefill_spec {k : KdfCtx} (hk : k.Good P) :
    (k.idx < k.alg.outSize ∧ kdfRefill P k = (k, false) ∧ k.position < streamLength k.alg)
      ∨ (k.idx = k.alg.outSize ∧ intBe k.ctr + 1 < 2 ^ 32 ∧ kdfRefill P k = (derivedKdf P k (intBe k.ctr + 1) 0, false)
        ∧ k.position = intBe k.ctr * k.alg.outSize ∧ k.position < streamLength k.alg)
      ∨ (k.idx = k.alg.outSize ∧ k.ctr = List.replicate 4 0xFF#8 ∧ kdfRefill P k = (k, true)
        ∧ k.position = streamLength k.alg) := by
  have h32 := ctr_lt hk.ctr_size
  have hO := k.alg.outSize_pos
  by_cases hidx : k.idx = k.alg.outSize
  · have hp : k.position = intBe k.ctr * k.alg.outSize := by simp only [KdfCtx.position, hidx, Nat.add_sub_cancel]
    by_cases htop : intBe k.ctr + 1 = 2 ^ 32
    · have hv : intBe k.ctr = 2 ^ 32 - 1 := by omega
      refine .inr (.inr ⟨hidx, ?_, ?_, ?_⟩)
      · rw [saturated, ← hv, ← hk.ctr_size, be_intBe]
      · simp [kdfRefill, hidx, ctrInc_exhausted hk.ctr_size htop]
      · rw [hp, hv, streamLength]
    · have hlt : intBe k.ctr + 1 < 2 ^ 32 := by omega
      refine .inr (.inl ⟨hidx, hlt, ?_, hp, ?_⟩)
      · rw [kdfRefill, if_pos hidx, ← deriveNext P hk.toSound hlt, ctrInc_ok hlt]
        rfl
      · rw [hp, streamLength]
        exact Nat.mul_lt_mul_of_pos_right (by omega) hO
  · have hlt : k.idx < k.alg.outSize := lt_of_le_of_ne hk.cursor hidx
    refine .inl ⟨hlt, by simp [kdfRefill, hidx], ?_⟩
    have : intBe k.ctr * k.alg.outSize ≤ (2 ^ 32 - 1) * k.alg.outSize := Nat.mul_le_mul_right _ (by omega)
    have h1 := (hk.block hlt).1
    have hle : k.alg.outSize ≤ intBe k.ctr * k.alg.outSize := Nat.le_mul_of_pos_left _ h1
    simp only [KdfCtx.position, streamLength]
    omega

theorem derivedBytes_succ (a : Alg) (pw salt : Bytes) (c e w : Nat) :
    derivedBytes P a pw salt c e (w + 1)
      = derivedByte P a pw salt c e :: derivedBytes P a pw salt c (e + 1) w := by
  simp only [derivedBytes, List.range_succ_eq_map, List.map_cons, List.map_map, Nat.add_zero]
  congr 1
  apply List.map_congr_left
  intro t _
  simp only [Function.comp, Nat.succ_eq_add_one, Nat.add_assoc, Nat.add_comm 1]

/-- No byte wanted: nothing changes. -/
theorem advanced_zero {k : KdfCtx} (h : k.idx ≤ k.alg.outSize) : k.advanced P 0 = k := by
  simp only [KdfCtx.advanced, Nat.add_zero, if_pos h]

/-- One byte and then `w` more, from a block with bytes left. -/
theorem advanced_succ {k : KdfCtx} (hk : k.Sound P) (hlt : k.idx < k.alg.outSize) (w : Nat) :
    KdfCtx.advanced P { k with idx := k.idx + 1 } w = KdfCtx.advanced P k (w + 1) := by
  have hp := (advance_good P hk hlt).2
  simp only [KdfCtx.advanced, hp]
  rw [show k.idx + 1 + w = k.idx + (w + 1) by omega, show k.position + 1 + w = k.position + (w + 1) by omega]
  rfl

/-- The first byte of the next block and then `w` more. -/
theorem advanced_next {k : KdfCtx} (hidx : k.idx = k.alg.outSize) (hlt : intBe k.ctr + 1 < 2 ^ 32) (w : Nat) :
    KdfCtx.advanced P (derivedKdf P k (intBe k.ctr + 1) 1) w = KdfCtx.advanced P k (w + 1) := by
  have hO := k.alg.outSize_pos
  have hp : k.position = intBe k.ctr * k.alg.outSize := by simp only [KdfCtx.position, hidx, Nat.add_sub_cancel]
  have hq : (derivedKdf P k (intBe k.ctr + 1) 1).position = k.position + 1 := by
    rw [derivedKdf_position P k 1 hlt, hp, Nat.add_mul]
    omega
  have hsplit : ∀ x, intBe k.ctr * k.alg.outSize + x + 1 + k.alg.outSize - 1
      = x + k.alg.outSize * (intBe k.ctr + 1) := fun x => by
    rw [Nat.mul_add, Nat.mul_comm k.alg.outSize]
    omega
  simp only [KdfCtx.advanced, hq, derivedKdf_idx, derivedKdf_alg]
  rw [if_neg (show ¬k.idx + (w + 1) ≤ k.alg.outSize by omega), show k.position + 1 + w = k.position + (w + 1) by omega]
  by_cases h : 1 + w ≤ k.alg.outSize
  · rw [if_pos h]
    have hi : (k.position + (w + 1) + k.alg.outSize - 1) / k.alg.outSize = intBe k.ctr + 1 := by
      rw [hp, ← Nat.add_assoc, hsplit, Nat.add_mul_div_left _ _ hO, Nat.div_eq_of_lt (by omega), Nat.zero_add]
    rw [hi, hp, Nat.add_sub_cancel, Nat.add_sub_cancel_left, Nat.add_comm w 1]
    rfl
  · rw [if_neg h]
    rfl

/-- The result of `kdf_emit` by the position in the stream (R194, R196): the bytes wanted, or what is left of the stream and
`SourceExhausted`; and the whole context afterwards. -/
structure Emitted (k : KdfCtx) (want : Nat) (r : StatusCode × Bytes × KdfCtx) : Prop where
  status : r.1 = if k.position + want ≤ streamLength k.alg then .ok else .sourceExhausted
  bytes : r.2.1 = derivedBytes P k.alg k.pw k.salt k.iter.toNat k.position (min want (streamLength k.alg - k.position))
  state : r.2.2 = k.advanced P (min want (streamLength k.alg - k.position))
  good : r.2.2.Good P
  position : r.2.2.position = min (k.position + want) (streamLength k.alg)
  exhausted : r.1 ≠ .ok → r.2.2.idx = k.alg.outSize ∧ r.2.2.ctr = List.replicate 4 0xFF#8

/-- One turn of `kdf_emit` that emits a byte of the sound context `k1`, and the turns after it. -/
theorem Emitted.cons {k k1 : KdfCtx} {w : Nat} {r : StatusCode × Bytes × KdfCtx} (hs : k1.Sound P)
    (hidx : k1.idx < k1.alg.outSize) (hpos : k1.position = k.position) (htop : k.position < streamLength k.alg)
    (ha : k1.alg = k.alg) (hpw : k1.pw = k.pw) (hsalt : k1.salt = k.salt) (hit : k1.iter = k.iter)
    (hadv : ∀ v, KdfCtx.advanced P { k1 with idx := k1.idx + 1 } v = k.advanced P (v + 1))
    (h : Emitted P { k1 with idx := k1.idx + 1 } w r) :
    Emitted P k (w + 1) (r.1, byteAt k1.blk k1.idx :: r.2.1, r.2.2) := by
  have hb := cursor_byte P hs hidx
  obtain ⟨h1, h2, h3, h4, h5, h6⟩ := h
  rw [(advance_good P hs hidx).2, hpos] at h1 h2 h3 h5
  simp only [hadv] at h3
  simp only [ha, hpw, hsalt, hit, hpos] at h1 h2 h3 h5 h6 hb
  have hmin : min (w + 1) (streamLength k.alg - k.position) = min w (streamLength k.alg - (k.position + 1)) + 1 := by omega
  refine ⟨?_, ?_, ?_, h4, ?_, h6⟩
  · rw [h1, show k.position + 1 + w = k.position + (w + 1) by omega]
  · simp only [hmin, derivedBytes_succ, hb, h2]
  · rw [h3, hmin]
  · rw [h5, show k.position + 1 + w = k.position + (w + 1) by omega]

theorem kdfEmit_spec (want : Nat) {k : KdfCtx} (hk : k.Good P) : Emitted P k want (kdfEmit P want k) := by
  induction want generalizing k with
  | zero =>
    have hp := position_le P hk.toSound
    have h0 := advanced_zero P hk.cursor
    exact ⟨by simp [kdfEmit, hp], by simp [kdfEmit, derivedBytes], by simp [kdfEmit, h0], hk, by simp [kdfEmit, hp],
      fun h => by simp [kdfEmit] at h⟩
  | succ w ih =>
    have hO := k.alg.outSize_pos
    rcases kdfRefill_spec P hk with ⟨hidx, hr, htop⟩ | ⟨hidx, hlt, hr, hp, htop⟩ | ⟨hidx, hctr, hr, htop⟩
    · simp only [kdfEmit, hr]
      exact .cons P hk.toSound hidx rfl htop rfl rfl rfl rfl (advanced_succ P hk.toSound hidx)
        (ih (advance_good P hk.toSound hidx).1)
    · have hs := derivedKdf_sound P hk.toSound (Nat.succ_pos (intBe k.ctr)) hlt (Nat.zero_le _)
      have hpos : (derivedKdf P k (intBe k.ctr + 1) 0).position = k.position := by
        rw [derivedKdf_position P k 0 hlt, hp, Nat.add_mul]
        omega
      simp only [kdfEmit, hr]
      exact .cons P hs hO hpos htop rfl rfl rfl rfl (advanced_next P hidx hlt) (ih (advance_good P hs hO).1)
    · have h0 := advanced_zero P hk.cursor
      simp only [kdfEmit, hr, if_true]
      exact ⟨by simp [htop], by simp [htop, derivedBytes], by simp [htop, h0], hk, by simp [htop], fun _ => ⟨hidx, hctr⟩⟩

end Sys2Proof.Machine
end

