-- ==== Sys2Proof/Laws/State.lean ====
section
/-! SUPPORT. Sys2Proof/Laws/State.lean: one lemma per field per named update of the state, all by `rfl`, so that no later proof
unfolds a record update; and the small lemmas of the status register. -/

namespace Sys2Proof.Machine

/-! ### The status return (R241) -/

@[simp] theorem returnStatus_dig (st : StatusCode) (out : Bytes) (s : State) : (returnStatus st out s).dig = s.dig := rfl
@[simp] theorem returnStatus_hm (st : StatusCode) (out : Bytes) (s : State) : (returnStatus st out s).hm = s.hm := rfl
@[simp] theorem returnStatus_kdf (st : StatusCode) (out : Bytes) (s : State) : (returnStatus st out s).kdf = s.kdf := rfl
@[simp] theorem returnStatus_code (st : StatusCode) (out : Bytes) (s : State) :
    (returnStatus st out s).status.code = st.code := rfl
@[simp] theorem returnStatus_warn (st : StatusCode) (out : Bytes) (s : State) :
    (returnStatus st out s).status.warn = s.status.warn := rfl
@[simp] theorem returnStatus_err (st : StatusCode) (out : Bytes) (s : State) :
    (returnStatus st out s).status.err = (s.status.err || decide (st ≠ .ok)) := rfl
@[simp] theorem returnStatus_events (st : StatusCode) (out : Bytes) (s : State) :
    (returnStatus st out s).events = s.events := rfl
@[simp] theorem returnStatus_cmd (st : StatusCode) (out : Bytes) (s : State) : (returnStatus st out s).cmd = s.cmd := rfl
@[simp] theorem returnStatus_result (st : StatusCode) (out : Bytes) (s : State) :
    (returnStatus st out s).result = some { st := st, out := out } := rfl
@[simp] theorem returnStatus_freeCount (st : StatusCode) (out : Bytes) (s : State) :
    (returnStatus st out s).freeCount = s.freeCount := rfl

/-! ### The warning (R42) -/

@[simp] theorem surfaceWarning_dig (s : State) : (surfaceWarning s).dig = s.dig := rfl
@[simp] theorem surfaceWarning_hm (s : State) : (surfaceWarning s).hm = s.hm := rfl
@[simp] theorem surfaceWarning_kdf (s : State) : (surfaceWarning s).kdf = s.kdf := rfl
@[simp] theorem surfaceWarning_code (s : State) : (surfaceWarning s).status.code = s.status.code := rfl
@[simp] theorem surfaceWarning_warn (s : State) : (surfaceWarning s).status.warn = true := rfl
@[simp] theorem surfaceWarning_err (s : State) : (surfaceWarning s).status.err = s.status.err := rfl
@[simp] theorem surfaceWarning_events (s : State) : (surfaceWarning s).events = s.events := rfl
@[simp] theorem surfaceWarning_cmd (s : State) : (surfaceWarning s).cmd = s.cmd := rfl
@[simp] theorem surfaceWarning_result (s : State) : (surfaceWarning s).result = s.result := rfl
@[simp] theorem surfaceWarning_freeCount (s : State) : (surfaceWarning s).freeCount = s.freeCount := rfl

/-! ### Accepting a command -/

@[simp] theorem acceptCommand_dig (c : Command) (r : List HostEvent) (s : State) : (acceptCommand c r s).dig = s.dig := rfl
@[simp] theorem acceptCommand_hm (c : Command) (r : List HostEvent) (s : State) : (acceptCommand c r s).hm = s.hm := rfl
@[simp] theorem acceptCommand_kdf (c : Command) (r : List HostEvent) (s : State) : (acceptCommand c r s).kdf = s.kdf := rfl
@[simp] theorem acceptCommand_status (c : Command) (r : List HostEvent) (s : State) :
    (acceptCommand c r s).status = s.status := rfl
@[simp] theorem acceptCommand_events (c : Command) (r : List HostEvent) (s : State) : (acceptCommand c r s).events = r := rfl
@[simp] theorem acceptCommand_cmd (c : Command) (r : List HostEvent) (s : State) : (acceptCommand c r s).cmd = c := rfl
@[simp] theorem acceptCommand_result (c : Command) (r : List HostEvent) (s : State) :
    (acceptCommand c r s).result = s.result := rfl
@[simp] theorem acceptCommand_freeCount (c : Command) (r : List HostEvent) (s : State) :
    (acceptCommand c r s).freeCount = s.freeCount := rfl

/-! ### Absent contexts (R51) -/

@[simp] theorem digestAbsent_valid (c : DigestCtx) : c.absent.valid = false := rfl
@[simp] theorem hmacAbsent_valid (m : HmacCtx) : m.absent.valid = false := rfl
@[simp] theorem hmacAbsent_inner_valid (m : HmacCtx) : m.absent.inner.valid = false := rfl
@[simp] theorem hmacAbsent_outer_valid (m : HmacCtx) : m.absent.outer.valid = false := rfl
@[simp] theorem kdfAbsent_valid (k : KdfCtx) : k.absent.valid = false := rfl
@[simp] theorem kdfAbsent_hmac_valid (k : KdfCtx) : k.absent.hmac.valid = false := rfl
@[simp] theorem kdfAbsent_inner_valid (k : KdfCtx) : k.absent.hmac.inner.valid = false := rfl
@[simp] theorem kdfAbsent_outer_valid (k : KdfCtx) : k.absent.hmac.outer.valid = false := rfl

@[simp] theorem dropDig_valid (s : State) : (dropDig s).dig.valid = false := rfl
@[simp] theorem dropDig_hm (s : State) : (dropDig s).hm = s.hm := rfl
@[simp] theorem dropDig_kdf (s : State) : (dropDig s).kdf = s.kdf := rfl
@[simp] theorem dropDig_status (s : State) : (dropDig s).status = s.status := rfl
@[simp] theorem dropDig_events (s : State) : (dropDig s).events = s.events := rfl
@[simp] theorem dropDig_cmd (s : State) : (dropDig s).cmd = s.cmd := rfl
@[simp] theorem dropDig_result (s : State) : (dropDig s).result = s.result := rfl

@[simp] theorem dropHmac_valid (s : State) : (dropHmac s).hm.valid = false := rfl
@[simp] theorem dropHmac_inner_valid (s : State) : (dropHmac s).hm.inner.valid = false := rfl
@[simp] theorem dropHmac_outer_valid (s : State) : (dropHmac s).hm.outer.valid = false := rfl
@[simp] theorem dropHmac_dig (s : State) : (dropHmac s).dig = s.dig := rfl
@[simp] theorem dropHmac_kdf (s : State) : (dropHmac s).kdf = s.kdf := rfl
@[simp] theorem dropHmac_status (s : State) : (dropHmac s).status = s.status := rfl
@[simp] theorem dropHmac_events (s : State) : (dropHmac s).events = s.events := rfl
@[simp] theorem dropHmac_cmd (s : State) : (dropHmac s).cmd = s.cmd := rfl
@[simp] theorem dropHmac_result (s : State) : (dropHmac s).result = s.result := rfl

@[simp] theorem dropKdf_valid (s : State) : (dropKdf s).kdf.valid = false := rfl
@[simp] theorem dropKdf_hmac_valid (s : State) : (dropKdf s).kdf.hmac.valid = false := rfl
@[simp] theorem dropKdf_inner_valid (s : State) : (dropKdf s).kdf.hmac.inner.valid = false := rfl
@[simp] theorem dropKdf_outer_valid (s : State) : (dropKdf s).kdf.hmac.outer.valid = false := rfl
@[simp] theorem dropKdf_dig (s : State) : (dropKdf s).dig = s.dig := rfl
@[simp] theorem dropKdf_hm (s : State) : (dropKdf s).hm = s.hm := rfl
@[simp] theorem dropKdf_status (s : State) : (dropKdf s).status = s.status := rfl
@[simp] theorem dropKdf_events (s : State) : (dropKdf s).events = s.events := rfl
@[simp] theorem dropKdf_cmd (s : State) : (dropKdf s).cmd = s.cmd := rfl
@[simp] theorem dropKdf_result (s : State) : (dropKdf s).result = s.result := rfl

/-! ### Hardware reset (R270) -/

@[simp] theorem hardwareReset_status (s : State) : (hardwareReset s).status = Status.reset := rfl
@[simp] theorem hardwareReset_result (s : State) : (hardwareReset s).result = none := rfl
@[simp] theorem hardwareReset_events (s : State) : (hardwareReset s).events = s.events := rfl

/-! ### The two forms of a status return that the statements use -/

@[simp] theorem okWith_dig (out : Bytes) (s : State) : (okWith out s).dig = s.dig := rfl
@[simp] theorem okWith_hm (out : Bytes) (s : State) : (okWith out s).hm = s.hm := rfl
@[simp] theorem okWith_kdf (out : Bytes) (s : State) : (okWith out s).kdf = s.kdf := rfl
@[simp] theorem okWith_events (out : Bytes) (s : State) : (okWith out s).events = s.events := rfl
@[simp] theorem okWith_cmd (out : Bytes) (s : State) : (okWith out s).cmd = s.cmd := rfl
@[simp] theorem okWith_freeCount (out : Bytes) (s : State) : (okWith out s).freeCount = s.freeCount := rfl
@[simp] theorem okWith_code (out : Bytes) (s : State) : (okWith out s).status.code = 0 := rfl
@[simp] theorem okWith_warn (out : Bytes) (s : State) : (okWith out s).status.warn = s.status.warn := rfl
@[simp] theorem okWith_err (out : Bytes) (s : State) : (okWith out s).status.err = s.status.err := rfl
@[simp] theorem okWith_result (out : Bytes) (s : State) :
    (okWith out s).result = some { st := .ok, out := out } := rfl

@[simp] theorem refusedWith_dig (st : StatusCode) (s : State) : (refusedWith st s).dig = s.dig := rfl
@[simp] theorem refusedWith_hm (st : StatusCode) (s : State) : (refusedWith st s).hm = s.hm := rfl
@[simp] theorem refusedWith_kdf (st : StatusCode) (s : State) : (refusedWith st s).kdf = s.kdf := rfl
@[simp] theorem refusedWith_events (st : StatusCode) (s : State) : (refusedWith st s).events = s.events := rfl
@[simp] theorem refusedWith_cmd (st : StatusCode) (s : State) : (refusedWith st s).cmd = s.cmd := rfl
@[simp] theorem refusedWith_freeCount (st : StatusCode) (s : State) : (refusedWith st s).freeCount = s.freeCount := rfl
@[simp] theorem refusedWith_code (st : StatusCode) (s : State) : (refusedWith st s).status.code = st.code := rfl
@[simp] theorem refusedWith_warn (st : StatusCode) (s : State) : (refusedWith st s).status.warn = s.status.warn := rfl
@[simp] theorem refusedWith_err (st : StatusCode) (s : State) : (refusedWith st s).status.err = true := rfl
@[simp] theorem refusedWith_result (st : StatusCode) (s : State) :
    (refusedWith st s).result = some { st := st, out := [] } := rfl

/-! ### Events and operands -/

@[simp] theorem withEvents_dig (s : State) (es : List HostEvent) : (s.withEvents es).dig = s.dig := rfl
@[simp] theorem withEvents_hm (s : State) (es : List HostEvent) : (s.withEvents es).hm = s.hm := rfl
@[simp] theorem withEvents_kdf (s : State) (es : List HostEvent) : (s.withEvents es).kdf = s.kdf := rfl
@[simp] theorem withEvents_status (s : State) (es : List HostEvent) : (s.withEvents es).status = s.status := rfl
@[simp] theorem withEvents_cmd (s : State) (es : List HostEvent) : (s.withEvents es).cmd = s.cmd := rfl
@[simp] theorem withEvents_result (s : State) (es : List HostEvent) : (s.withEvents es).result = s.result := rfl
@[simp] theorem withEvents_freeCount (s : State) (es : List HostEvent) : (s.withEvents es).freeCount = s.freeCount := rfl
@[simp] theorem withEvents_events (s : State) (es : List HostEvent) : (s.withEvents es).events = es := rfl

@[simp] theorem withOperands_dig (s : State) (a b : Operand) (n : BitVec 32) :
    (s.withOperands a b n).dig = s.dig := rfl
@[simp] theorem withOperands_hm (s : State) (a b : Operand) (n : BitVec 32) :
    (s.withOperands a b n).hm = s.hm := rfl
@[simp] theorem withOperands_kdf (s : State) (a b : Operand) (n : BitVec 32) :
    (s.withOperands a b n).kdf = s.kdf := rfl
@[simp] theorem withOperands_status (s : State) (a b : Operand) (n : BitVec 32) :
    (s.withOperands a b n).status = s.status := rfl
@[simp] theorem withOperands_events (s : State) (a b : Operand) (n : BitVec 32) :
    (s.withOperands a b n).events = s.events := rfl
@[simp] theorem withOperands_result (s : State) (a b : Operand) (n : BitVec 32) :
    (s.withOperands a b n).result = s.result := rfl
@[simp] theorem withOperands_freeCount (s : State) (a b : Operand) (n : BitVec 32) :
    (s.withOperands a b n).freeCount = s.freeCount := rfl
@[simp] theorem withOperands_a (s : State) (a b : Operand) (n : BitVec 32) : (s.withOperands a b n).cmd.a = a := rfl
@[simp] theorem withOperands_b (s : State) (a b : Operand) (n : BitVec 32) : (s.withOperands a b n).cmd.b = b := rfl
@[simp] theorem withOperands_n (s : State) (a b : Operand) (n : BitVec 32) : (s.withOperands a b n).cmd.n = n := rfl

/-! ### Steps -/

/-- One step more (the first of `k + 1`). -/
theorem runSteps_succ (k : Nat) {s t : State} (h : step s = .next t) : runSteps (k + 1) s = runSteps k t := by
  simp [runSteps, h]

/-! ### Outcomes -/

@[simp] theorem complete_eq (st : StatusCode) (out : Bytes) (s : State) :
    complete st out s = .next (returnStatus st out s) := rfl

@[simp] theorem raise_eq (st : StatusCode) (s : State) : raise st s = .next (returnStatus st [] s) := rfl

/-- Two next states are one. -/
theorem next_inj {s t : State} (h : (Host.Outcome.next s : Outcome) = .next t) : s = t := by cases h; rfl

/-- Only the code of `Ok` is zero (R231). -/
theorem code_eq_zero (st : StatusCode) : st.code = 0 ↔ st = .ok := by cases st <;> decide

end Sys2Proof.Machine
end

