-- ==== Sys2Proof/Laws/Commands.lean ====
section
/-! SUPPORT. Sys2Proof/Laws/Commands.lean: the status return in the forms the statements use, and the internal operations in the
forms of Functions.lean (`keyedHmac`, `finished`). -/

namespace Sys2Proof.Machine

open Config (Params)

variable (P : Params)

/-! ### The status return -/

/-- A successful return changes `CODE` and the result, and keeps both sticky bits (R241). -/
theorem returnStatus_ok (out : Bytes) (s : State) : returnStatus .ok out s = okWith out s := by
  simp [returnStatus, okWith, Status.afterReturn, StatusCode.code]

/-- A failing return changes `STATUS` and the result (R230, R241). -/
theorem returnStatus_refused (st : StatusCode) (s : State) (h : st ≠ .ok) : returnStatus st [] s = refusedWith st s := by
  simp [returnStatus, refusedWith, Status.afterReturn, h]

/-- `complete` with `Ok` is `okWith`. -/
theorem complete_ok (out : Bytes) (s : State) : complete .ok out s = .next (okWith out s) := by
  rw [complete_eq, returnStatus_ok]

/-- `raise` of a status other than `Ok` is `refusedWith`. -/
theorem raise_refused (st : StatusCode) (s : State) (h : st ≠ .ok) : raise st s = .next (refusedWith st s) := by
  rw [raise_eq, returnStatus_refused st s h]

/-! ### Tags -/

/-- Rule R94: no algorithm for a tag of 6 or more. -/
theorem ofTag_none {tag : BitVec 8} (h : 6 ≤ tag.toNat) : Alg.ofTag tag = none := by
  have hs := Alg.ofTag_isSome tag
  have hr : tagInRange tag = false := by simpa [tagInRange] using h
  rw [hr] at hs
  simpa using hs

/-! ### HMAC -/

/-- `hmac_init` then `hmac_reset`, whatever was in the context (R160, R163). -/
theorem hmacInit_keyed (m : HmacCtx) (a : Alg) (key scratch : Bytes) :
    ({ hmacReset P (hmacInit m a scratch) key with valid := true } : HmacCtx) = keyedHmac P a key scratch := by
  have hb : (xorConst (hmacKey P a key) 0x36#8).length = a.blockSize := by rw [xorConst_length, hmacKey_length]
  rw [hmacReset_eq P _ key rfl]
  simp only [hmacInit]
  rw [streamState_block P rfl _ hb, digInit_initial P rfl]
  rfl

/-- `hmac_finish` of a good context in the READY phase (R165). -/
theorem hmacFinish_finished {m : HmacCtx} (hm : m.Good P) :
    hmacFinish P m =
      ((finished P (absorbed P m.outer (m.opad ++ (finished P m.inner).1))).1,
        { m with
          inner := (finished P m.inner).2
          outer := (finished P (absorbed P m.outer (m.opad ++ (finished P m.inner).1))).2
          scratch := (finished P m.inner).1
          fin := true }) := by
  have hlen := digFinish_out_length P hm.inner_good
  rw [hm.inner_alg] at hlen
  have ho : digUpdate P (digUpdate P m.outer (m.opad.take m.alg.blockSize)) ((digFinish P m.inner).1.take m.alg.outSize)
      = absorbed P m.outer (m.opad ++ (digFinish P m.inner).1) := by
    rw [List.take_of_length_le hm.opad_size.le, List.take_of_length_le hlen.le, digUpdate_append P hm.outer_good,
      digUpdate_absorbed P hm.outer_good]
  have hg : (absorbed P m.outer (m.opad ++ (digFinish P m.inner).1)).Good := by
    rw [← digUpdate_absorbed P hm.outer_good]
    exact digUpdate_good P hm.outer_good _
  rw [digFinish_finished P hm.inner_good] at ho hg
  simp only [hmacFinish, digFinish_finished P hm.inner_good, ho, digFinish_finished P hg]

/-! ### The contexts of Functions.lean are good -/

theorem initialDigest_good (a : Alg) : (initialDigest P a).Good := by
  have h := digInit_good P { DigestCtx.reset with valid := true, alg := a }
  rwa [digInit_initial P rfl] at h

theorem keyedHmac_inv (a : Alg) (key : Bytes) {scratch : Bytes} (hs : scratch.length = a.outSize) :
    (keyedHmac P a key scratch).Inv P :=
  ⟨rfl, rfl, fun _ => keyedHmac_good P a key hs⟩

/-- `KDF.CREATE` from `kdfInit` on (R200). -/
theorem kdfInit_keyed (k : KdfCtx) (a : Alg) (pw salt : Bytes) (iters : BitVec 32) {scratch : Bytes} (blk scr : Bytes)
    (hs : scratch.length = a.outSize) :
    ({ kdfReset P (kdfInit k a scratch blk scr) pw salt iters with valid := true } : KdfCtx)
      = keyedKdf P a pw salt iters scratch blk scr :=
  kdfReset_keyed P pw salt iters (kdfInit_formed k a blk scr hs)

/-- `KDF.RESET` of a present context (R201). -/
theorem kdfReset_present {k : KdfCtx} (pw salt : Bytes) (iters : BitVec 32) (hv : k.valid = true) (hk : k.Formed) :
    kdfReset P k pw salt iters = keyedKdf P k.alg pw salt iters k.hmac.scratch k.blk k.scr := by
  rw [← kdfReset_keyed P pw salt iters hk, ← hv]
  rfl

/-- The new buffers of `CREATE` have their sizes (R60). -/
@[simp] theorem freeBytes_length (draw n : Nat) : (freeBytes draw n).length = n := by simp [freeBytes]

/-- `CREATE` and `RESET` make a context that meets the invariant. -/
theorem keyedKdf_inv (a : Alg) {pw salt : Bytes} {iters : BitVec 32} {scratch blk scr : Bytes} (hpw : pw.length ≤ P.pwCap)
    (hsalt : salt.length ≤ P.saltCap) (hit : iters ≠ 0) (hscratch : scratch.length = a.outSize)
    (hblk : blk.length = a.outSize) (hscr : scr.length = a.outSize) : (keyedKdf P a pw salt iters scratch blk scr).Inv P :=
  ⟨rfl, rfl, rfl, fun _ => keyedKdf_good P a hpw hsalt hit hscratch hblk hscr⟩

end Sys2Proof.Machine
end

