-- ==== Sys2Proof/Laws/Cases.lean ====
section
/-! SUPPORT. Sys2Proof/Laws/Cases.lean: what a command can do, said once for all fifteen: `exec_cases`. -/

namespace Sys2Proof.Machine

/-! ### The dispatch, one equation per command -/

theorem exec_digCreate (tag : BitVec 8) (s : State) : exec (.digCreate tag) s = cmdDigCreate params tag s := rfl
theorem exec_digReset (s : State) : exec .digReset s = cmdDigReset params s := rfl
theorem exec_digUpdate (s : State) : exec .digUpdate s = cmdDigUpdate params s := rfl
theorem exec_digFinish (s : State) : exec .digFinish s = cmdDigFinish params s := rfl
theorem exec_digDestroy (s : State) : exec .digDestroy s = cmdDigDestroy s := rfl
theorem exec_hmacCreate (tag : BitVec 8) (s : State) : exec (.hmacCreate tag) s = cmdHmacCreate params tag s := rfl
theorem exec_hmacReset (s : State) : exec .hmacReset s = cmdHmacReset params s := rfl
theorem exec_hmacUpdate (s : State) : exec .hmacUpdate s = cmdHmacUpdate params s := rfl
theorem exec_hmacFinish (s : State) : exec .hmacFinish s = cmdHmacFinish params s := rfl
theorem exec_hmacDestroy (s : State) : exec .hmacDestroy s = cmdHmacDestroy s := rfl
theorem exec_kdfCreate (tag : BitVec 8) (s : State) : exec (.kdfCreate tag) s = cmdKdfCreate params tag s := rfl
theorem exec_kdfReset (tag : BitVec 8) (s : State) : exec (.kdfReset tag) s = cmdKdfReset params tag s := rfl
theorem exec_kdfUpdate (s : State) : exec .kdfUpdate s = cmdKdfUpdate params s := rfl
theorem exec_kdfFinish (s : State) : exec .kdfFinish s = cmdKdfFinish s := rfl
theorem exec_kdfDestroy (s : State) : exec .kdfDestroy s = cmdKdfDestroy s := rfl

/-! ### What `kdf_emit` never touches -/

theorem kdfEmit_status (P : Config.Params) (w : Nat) (k : KdfCtx) :
    (kdfEmit P w k).1 = .ok ∨ (kdfEmit P w k).1 = .sourceExhausted := by
  induction w generalizing k with
  | zero => exact .inl rfl
  | succ w ih =>
    simp only [kdfEmit]
    split
    · exact .inr rfl
    · exact ih _

theorem kdfRounds_kept (P : Config.Params) (r j : Nat) (k : KdfCtx) :
    (kdfRounds P r j k).valid = k.valid ∧ (kdfRounds P r j k).alg = k.alg := by
  induction r generalizing j k with
  | zero => exact ⟨rfl, rfl⟩
  | succ r ih => exact ih (j + 1) (kdfRound P j k)

theorem kdfRefill_kept (P : Config.Params) (k : KdfCtx) :
    (kdfRefill P k).1.valid = k.valid ∧ (kdfRefill P k).1.alg = k.alg := by
  have hc : (ctrInc k).1.valid = k.valid ∧ (ctrInc k).1.alg = k.alg := by
    simp only [ctrInc]
    split <;> exact ⟨rfl, rfl⟩
  simp only [kdfRefill]
  split
  · split
    · exact hc
    · have h := kdfRounds_kept P (ctrInc k).1.iter.toNat 0 { (ctrInc k).1 with blk := zeros (ctrInc k).1.alg.outSize }
      exact ⟨h.1.trans hc.1, h.2.trans hc.2⟩
  · exact ⟨rfl, rfl⟩

/-- In every state, good or not. -/
theorem kdfEmit_kept (P : Config.Params) (w : Nat) (k : KdfCtx) :
    (kdfEmit P w k).2.2.valid = k.valid ∧ (kdfEmit P w k).2.2.alg = k.alg := by
  induction w generalizing k with
  | zero => exact ⟨rfl, rfl⟩
  | succ w ih =>
    have hr := kdfRefill_kept P k
    simp only [kdfEmit]
    split
    · exact hr
    · have h := ih { (kdfRefill P k).1 with idx := (kdfRefill P k).1.idx + 1 }
      exact ⟨h.1.trans hr.1, h.2.trans hr.2⟩

/-- `KDF.UPDATE` of a present context (R202). -/
theorem exec_kdfUpdate_present (s : State) (h : s.kdf.valid = true) :
    exec .kdfUpdate s =
      .next (returnStatus (kdfEmit params s.cmd.n.toNat s.kdf).1 (kdfEmit params s.cmd.n.toNat s.kdf).2.1
        { s with kdf := (kdfEmit params s.cmd.n.toNat s.kdf).2.2 }) := by
  rw [exec_kdfUpdate, cmdKdfUpdate, if_pos h]
  rfl

/-! ### The ways a command ends -/

/-- What the command `i` does in the state `s`: it is refused with a status and changes nothing else; or it is DESTROY of an
absent unit and warns; or it succeeds on its unit (for `KDF.UPDATE` also: is exhausted) and changes only that unit's
    context.
`d` is the context afterwards, `n` the count of free values. -/
inductive Answer : Instr → State → Prop where
  | refused (i : Instr) (s : State) (st : StatusCode) (ok : st ≠ .ok) (exhausted : st ≠ .sourceExhausted)
      (keySize : st ≠ .invalidKeySize) (ivSize : st ≠ .invalidIVSize) (answer : exec i s = .next (refusedWith st s))
      (error : st = .error ↔ (i = .hmacUpdate ∨ i = .hmacFinish) ∧ hmacPhase s = .finished) (op : i.op ≠ .destroy) :
      Answer i s
  | warned (i : Instr) (s : State)
      (answer : exec i s = .next (okWith [] { s with status := { s.status with warn := true } })) (op : i.op = .destroy)
      (absent : unitPhase i.unit s = .absent) : Answer i s
  | onDig (i : Instr) (s : State) (out : Bytes) (d : DigestCtx) (n : Nat) (unit : i.unit = .dig)
      (answer : exec i s = .next (okWith out { s with dig := d, freeCount := n }))
      (after : d.valid = true ∧ i.op ≠ .destroy ∨ d.valid = false ∧ i.op = .destroy ∧ s.dig.valid = true)
      (create : i.op = .create → s.dig.valid = false) (present : i.op ≠ .create → s.dig.valid = true)
      (alg : s.dig.valid = true → d.valid = true → d.alg = s.dig.alg) (output : i ≠ .digFinish → out = []) : Answer i s
  | onHmac (i : Instr) (s : State) (out : Bytes) (d : HmacCtx) (n : Nat) (unit : i.unit = .hmac)
      (answer : exec i s = .next (okWith out { s with hm := d, freeCount := n }))
      (after : d.valid = true ∧ i.op ≠ .destroy ∨ d.valid = false ∧ i.op = .destroy ∧ s.hm.valid = true)
      (create : i.op = .create → s.hm.valid = false) (present : i.op ≠ .create → s.hm.valid = true)
      (ready : i.op = .finish ∨ i.op = .update → s.hm.fin = false)
      (fin : d.valid = true → (d.fin = true ↔ i.op = .finish))
      (alg : s.hm.valid = true → d.valid = true → d.alg = s.hm.alg) (output : i ≠ .hmacFinish → out = []) : Answer i s
  | onKdf (i : Instr) (s : State) (st : StatusCode) (out : Bytes) (d : KdfCtx) (n : Nat) (unit : i.unit = .kdf)
      (answer : exec i s = .next (returnStatus st out { s with kdf := d, freeCount := n }))
      (after : d.valid = true ∧ i.op ≠ .destroy ∨ d.valid = false ∧ i.op = .destroy ∧ s.kdf.valid = true)
      (create : i.op = .create → s.kdf.valid = false) (present : i.op ≠ .create → s.kdf.valid = true)
      (status : st = .ok ∨ st = .sourceExhausted ∧ i = .kdfUpdate)
      (alg : s.kdf.valid = true → d.valid = true → d.alg = s.kdf.alg) (output : i ≠ .kdfUpdate → out = []) : Answer i s

/-- Every command ends in one of the ways of `Answer`. -/
theorem exec_cases (i : Instr) (s : State) : Answer i s := by
  have R : ∀ st, st ≠ .ok → st ≠ .sourceExhausted → st ≠ .invalidKeySize → st ≠ .invalidIVSize → exec i s = raise st s →
      (st = .error ↔ (i = .hmacUpdate ∨ i = .hmacFinish) ∧ hmacPhase s = .finished) → ¬(i.op = .destroy) → Answer i s :=
      by
    intro st h1 h2 h3 h3' h4 h5 h6
    exact .refused i s st h1 h2 h3 h3' (by rw [h4, raise_refused _ _ h1]) h5 h6
  cases i with
  | digCreate tag =>
    have e := exec_digCreate tag s
    rw [cmdDigCreate] at e
    split at e
    · exact R .invalidAlgorithm (by decide) (by decide) (by decide) (by decide) e (by simp) (by simp [Instr.op])
    · split at e
      · exact R .outOfMemory (by decide) (by decide) (by decide) (by decide) e (by simp) (by simp [Instr.op])
      · rename_i hv
        exact .onDig _ s [] _ s.freeCount rfl (by rw [e, complete_ok]) (.inl ⟨rfl, by simp [Instr.op]⟩)
            (fun _ => by simpa using hv) (by simp [Instr.op]) (fun h => absurd h hv) (fun _ => rfl)
  | digReset =>
    have e := exec_digReset s
    rw [cmdDigReset] at e
    split at e
    · rename_i hv
      exact .onDig _ s [] (digInit params s.dig) s.freeCount rfl (by rw [e, complete_ok]) (.inl ⟨by exact hv, by decide⟩)
          (by simp [Instr.op]) (fun _ => hv) (fun _ _ => rfl) (fun _ => rfl)
    · rename_i hv
      exact R .invalidArgument (by decide) (by decide) (by decide) (by decide) e (by simp) (by simp [Instr.op])
  | digUpdate =>
    have e := exec_digUpdate s
    rw [cmdDigUpdate] at e
    split at e
    · rename_i hv
      exact .onDig _ s [] _ s.freeCount rfl (by rw [e, complete_ok]) (.inl ⟨by simpa using hv, by decide⟩)
          (by simp [Instr.op]) (fun _ => hv) (fun _ _ => by simp) (fun _ => rfl)
    · exact R .invalidArgument (by decide) (by decide) (by decide) (by decide) e (by simp) (by simp [Instr.op])
  | digFinish =>
    have e := exec_digFinish s
    rw [cmdDigFinish] at e
    split at e
    · rename_i hv
      exact .onDig _ s _ _ s.freeCount rfl (by rw [e, complete_ok]) (.inl ⟨by simpa using hv, by decide⟩)
          (by simp [Instr.op]) (fun _ => hv) (fun _ _ => by simp) (fun h => absurd rfl h)
    · exact R .invalidArgument (by decide) (by decide) (by decide) (by decide) e (by simp) (by simp [Instr.op])
  | digDestroy =>
    have e := exec_digDestroy s
    rw [cmdDigDestroy] at e
    split at e
    · rename_i hv
      exact .onDig _ s [] _ _ rfl (by rw [e, complete_ok]; rfl) (.inr ⟨rfl, rfl, hv⟩) (by simp [Instr.op]) (fun _ => hv)
          (fun _ h => by cases h) (fun h => rfl)
    · rename_i hv
      exact .warned _ s (by rw [e, complete_ok]; rfl) rfl (by simp [Instr.unit, unitPhase, digPhase, hv])
  | hmacCreate tag =>
    have e := exec_hmacCreate tag s
    rw [cmdHmacCreate] at e
    split at e
    · exact R .invalidAlgorithm (by decide) (by decide) (by decide) (by decide) e (by simp) (by simp [Instr.op])
    · split at e
      · exact R .outOfMemory (by decide) (by decide) (by decide) (by decide) e (by simp) (by simp [Instr.op])
      · rename_i hv
        exact .onHmac _ s [] _ _ rfl (by rw [e]; exact complete_ok _ _) (.inl ⟨rfl, by simp [Instr.op]⟩)
            (fun _ => by simpa using hv) (by simp [Instr.op]) (by simp [Instr.op]) (by simp [Instr.op])
            (fun h => absurd h hv) (fun _ => rfl)
  | hmacReset =>
    have e := exec_hmacReset s
    rw [cmdHmacReset] at e
    split at e
    · rename_i hv
      exact .onHmac _ s [] _ s.freeCount rfl (by rw [e, complete_ok]) (.inl ⟨by simpa using hv, by decide⟩)
          (by simp [Instr.op]) (fun _ => hv) (by simp [Instr.op]) (by simp [Instr.op]) (fun _ _ => by simp) (fun _ => rfl)
    · exact R .invalidArgument (by decide) (by decide) (by decide) (by decide) e (by simp) (by simp [Instr.op])
  | hmacUpdate =>
    have e := exec_hmacUpdate s
    rw [cmdHmacUpdate] at e
    split at e
    · rename_i hv
      split at e
      · rename_i hf
        exact R .error (by decide) (by decide) (by decide) (by decide) e (by simp [hmacPhase, hv, hf]) (by decide)
      · rename_i hf
        exact .onHmac _ s [] (Machine.hmacUpdate params s.hm (opA s)) s.freeCount rfl (by rw [e, complete_ok])
            (.inl ⟨hv, by decide⟩) (by simp [Instr.op]) (fun _ => hv) (fun _ => by simpa using hf)
            (fun _ => by simpa [Instr.op, Machine.hmacUpdate] using hf) (fun _ _ => rfl) (fun _ => rfl)
    · rename_i hv
      exact R .invalidArgument (by decide) (by decide) (by decide) (by decide) e (by simp [hmacPhase, hv]) (by decide)
  | hmacFinish =>
    have e := exec_hmacFinish s
    rw [cmdHmacFinish] at e
    split at e
    · rename_i hv
      split at e
      · rename_i hf
        exact R .error (by decide) (by decide) (by decide) (by decide) e (by simp [hmacPhase, hv, hf]) (by decide)
      · rename_i hf
        exact .onHmac _ s (Machine.hmacFinish params s.hm).1 (Machine.hmacFinish params s.hm).2 s.freeCount rfl
            (by rw [e, complete_ok]) (.inl ⟨hv, by decide⟩) (by simp [Instr.op]) (fun _ => hv)
            (fun _ => by simpa using hf) (by simp [Instr.op]) (fun _ _ => rfl) (fun h => absurd rfl h)
    · rename_i hv
      exact R .invalidArgument (by decide) (by decide) (by decide) (by decide) e (by simp [hmacPhase, hv]) (by decide)
  | hmacDestroy =>
    have e := exec_hmacDestroy s
    rw [cmdHmacDestroy] at e
    split at e
    · rename_i hv
      exact .onHmac _ s [] _ _ rfl (by rw [e, complete_ok]; rfl) (.inr ⟨rfl, rfl, hv⟩) (by simp [Instr.op]) (fun _ => hv)
          (by simp [Instr.op]) (by intro h; cases h) (fun _ h => by cases h) (fun h => rfl)
    · rename_i hv
      exact .warned _ s (by rw [e, complete_ok]; rfl) rfl (by simp [Instr.unit, unitPhase, hmacPhase, hv])
  | kdfCreate tag =>
    have e := exec_kdfCreate tag s
    rw [cmdKdfCreate] at e
    split at e
    · exact R .invalidAlgorithm (by decide) (by decide) (by decide) (by decide) e (by simp) (by simp [Instr.op])
    split at e
    · exact R .invalidArgument (by decide) (by decide) (by decide) (by decide) e (by simp) (by simp [Instr.op])
    split at e
    · exact R .outOfMemory (by decide) (by decide) (by decide) (by decide) e (by simp) (by simp [Instr.op])
    rename_i hv
    split at e
    · exact R .outOfMemory (by decide) (by decide) (by decide) (by decide) e (by simp) (by simp [Instr.op])
    exact .onKdf _ s .ok [] _ _ rfl (by rw [e]; rfl) (.inl ⟨rfl, by simp [Instr.op]⟩)
        (fun _ => by simpa using hv) (by simp [Instr.op]) (.inl rfl) (fun h => absurd h hv) (fun _ => rfl)
  | kdfReset tag =>
    have e := exec_kdfReset tag s
    rw [cmdKdfReset] at e
    split at e
    · exact R .invalidAlgorithm (by decide) (by decide) (by decide) (by decide) e (by simp) (by simp [Instr.op])
    split at e
    · exact R .invalidArgument (by decide) (by decide) (by decide) (by decide) e (by simp) (by simp [Instr.op])
    rename_i hv
    split at e
    · exact R .invalidArgument (by decide) (by decide) (by decide) (by decide) e (by simp) (by simp [Instr.op])
    split at e
    · exact R .invalidArgument (by decide) (by decide) (by decide) (by decide) e (by simp) (by simp [Instr.op])
    split at e
    · exact R .outOfMemory (by decide) (by decide) (by decide) (by decide) e (by simp) (by simp [Instr.op])
    have hv' : s.kdf.valid = true := by simpa using hv
    exact .onKdf _ s .ok [] (Machine.kdfReset params s.kdf (opA s) (opB s) (opN s)) s.freeCount rfl (by rw [e]; rfl)
        (.inl ⟨hv', by simp [Instr.op]⟩) (by simp [Instr.op]) (fun _ => hv') (.inl rfl) (fun _ _ => rfl) (fun _ => rfl)
  | kdfUpdate =>
    by_cases hv : s.kdf.valid = true
    · exact .onKdf _ s _ _ _ s.freeCount rfl (exec_kdfUpdate_present s hv)
        (.inl ⟨by rw [(kdfEmit_kept _ _ _).1, hv], by decide⟩) (by simp [Instr.op]) (fun _ => hv)
        (by rcases kdfEmit_status params s.cmd.n.toNat s.kdf with h | h <;> simp [h]) (fun _ _ => (kdfEmit_kept _ _ _).2)
        (fun h => absurd rfl h)
    · exact R .invalidArgument (by decide) (by decide) (by decide) (by decide)
        (by rw [exec_kdfUpdate, cmdKdfUpdate, if_neg hv]) (by simp) (by decide)
  | kdfFinish =>
    have e := exec_kdfFinish s
    rw [cmdKdfFinish] at e
    split at e
    · rename_i hv
      exact .onKdf _ s .ok [] s.kdf s.freeCount rfl (by rw [e]; rfl) (.inl ⟨hv, by decide⟩) (by simp [Instr.op])
          (fun _ => hv) (.inl rfl) (fun _ _ => rfl) (fun _ => rfl)
    · exact R .invalidArgument (by decide) (by decide) (by decide) (by decide) e (by simp) (by simp [Instr.op])
  | kdfDestroy =>
    have e := exec_kdfDestroy s
    rw [cmdKdfDestroy] at e
    split at e
    · rename_i hv
      exact .onKdf _ s .ok [] _ _ rfl (by rw [e]; rfl) (.inr ⟨rfl, rfl, hv⟩) (by simp [Instr.op]) (fun _ => hv) (.inl rfl)
          (fun _ h => by cases h) (fun h => rfl)
    · rename_i hv
      exact .warned _ s (by rw [e, complete_ok]; rfl) rfl (by simp [Instr.unit, unitPhase, kdfPhase, hv])

end Sys2Proof.Machine
end

