-- ==== Sys2Proof/Laws/PerInstr.lean ====
section
/-! SUPPORT. Sys2Proof/Laws/PerInstr.lean: statements made for every instruction, one lemma per constructor.

`RowSelected`: the word of an instruction selects the row of its own unit and call in the opcode map of rule R98, and no
other row. -/

namespace Sys2Proof.Laws.RowSelected

/-- The rows the word of `i` selects are exactly the row of its unit and call (R98). -/
def Statement (i : Instr) : Prop :=
  ∀ r ∈ opcodeMap, r.selects (encode i) = decide (r.unit = i.unit ∧ r.op = i.op)

theorem digCreate (tag : BitVec 8) : Statement (.digCreate tag) := by
  unfold Statement
  revert tag
  decide +kernel
theorem digReset : Statement .digReset := by unfold Statement; decide
theorem digUpdate : Statement .digUpdate := by unfold Statement; decide
theorem digFinish : Statement .digFinish := by unfold Statement; decide
theorem digDestroy : Statement .digDestroy := by unfold Statement; decide
theorem hmacCreate (tag : BitVec 8) : Statement (.hmacCreate tag) := by
  unfold Statement
  revert tag
  decide +kernel
theorem hmacReset : Statement .hmacReset := by unfold Statement; decide
theorem hmacUpdate : Statement .hmacUpdate := by unfold Statement; decide
theorem hmacFinish : Statement .hmacFinish := by unfold Statement; decide
theorem hmacDestroy : Statement .hmacDestroy := by unfold Statement; decide
theorem kdfCreate (tag : BitVec 8) : Statement (.kdfCreate tag) := by
  unfold Statement
  revert tag
  decide +kernel
theorem kdfReset (tag : BitVec 8) : Statement (.kdfReset tag) := by
  unfold Statement
  revert tag
  decide +kernel
theorem kdfUpdate : Statement .kdfUpdate := by unfold Statement; decide
theorem kdfFinish : Statement .kdfFinish := by unfold Statement; decide
theorem kdfDestroy : Statement .kdfDestroy := by unfold Statement; decide

end Sys2Proof.Laws.RowSelected
end

