-- ==== Sys2Proof/Machine/Standard.lean ====
section
/-! DEFINITION. Sys2Proof/Machine/Standard.lean: the values the open parameters `compress` and `IV` are meant to carry
(00_scope.md rules R9, R10; 93_implementation_defined.md G2, G3).

PRESUMED: the chaining values are the spec's own list G2; the compression functions are RFC 1321 and FIPS 180-4, which the
spec names and does not reproduce. No meaning uses them: the block runs over `Machine.params`, which has no body. The tests
run the same rules over them to reproduce the known answers of 95_test_vectors.md. Words are natural numbers here, so that
the kernel evaluates them fast. -/

namespace Sys2Proof.Machine.Standard

/-! ### Words and blocks -/

/-- The `n` words of `bits` bits written one after another in the number `v`, first word first. -/
def wordsOf (bits n v : Nat) : List Nat := (List.range n).map fun i => v >>> (bits * (n - 1 - i)) % 2 ^ bits

/-- Rotation to the right of a word of `bits` bits. -/
def rotr (bits x r : Nat) : Nat := x >>> r + (x % 2 ^ r) <<< (bits - r)

/-- Rotation to the left of a word of 32 bits. -/
def rotl32 (x r : Nat) : Nat := rotr 32 x (32 - r)

/-- Complement of a word of `bits` bits. -/
def flip (bits x : Nat) : Nat := 2 ^ bits - 1 - x

/-- The words of a block of `k * n` bytes, `k` words of `n` bytes each. -/
def blockWords (order : ByteOrder) (n : Nat) : Nat → Bytes → List Nat
  | 0, _ => []
  | k + 1, s => (match order with | .big => intBe (s.take n) | .little => intLe (s.take n)) :: blockWords order n k (s.drop n)

/-- Feed-forward: the working words are added to the chaining value, word by word. -/
def feedForward (bits : Nat) (h : List Word) (work : List Nat) : List Word :=
  List.zipWith (fun x y => BitVec.ofNat 64 ((x.toNat + y) % 2 ^ bits)) h work

/-! ### MD5 (RFC 1321) and SHA-1 (FIPS 180-4) -/

/-- The working words of MD5 and SHA-1; MD5 has no `e`. -/
structure Work where
  a : Nat
  b : Nat
  c : Nat
  d : Nat
  e : Nat

def Work.ofWords (ws : List Word) : Work :=
  let v := fun i => (ws.getD i 0#64).toNat
  ⟨v 0, v 1, v 2, v 3, v 4⟩

def Work.toList (w : Work) : List Nat := [w.a, w.b, w.c, w.d, w.e]

/-- The bits of `y` where `x` has ones, those of `z` where it has zeros. -/
def choose (bits x y z : Nat) : Nat := (x &&& y) ||| (flip bits x &&& z)

/-- The bit two of the three words agree on. -/
def majority (x y z : Nat) : Nat := (x &&& y) ||| (z &&& (x ||| y))

/-- Additive constants of MD5, sixteen words of a round in one number. -/
def md5K : List Nat :=
  wordsOf 32 16 0xd76aa478e8c7b756242070dbc1bdceeef57c0faf4787c62aa8304613fd469501698098d88b44f7afffff5bb1895cd7be6b901122fd987193a679438e49b40821 ++
  wordsOf 32 16 0xf61e2562c040b340265e5a51e9b6c7aad62f105d02441453d8a1e681e7d3fbc821e1cde6c33707d6f4d50d87455a14eda9e3e905fcefa3f8676f02d98d2a4c8a ++
  wordsOf 32 16 0xfffa39428771f6816d9d6122fde5380ca4beea444bdecfa9f6bb4b60bebfbc70289b7ec6eaa127fad4ef308504881d05d9d4d039e6db99e51fa27cf8c4ac5665 ++
  wordsOf 32 16 0xf4292244432aff97ab9423a7fc93a039655b59c38f0ccc92ffeff47d85845dd16fa87e4ffe2ce6e0a30143144e0811a1f7537e82bd3af2352ad7d2bbeb86d391

/-- Rotation amounts of MD5, by round and step. -/
def md5Shift : Nat → Nat → Nat
  | 0, 0 => 7 | 0, 1 => 12 | 0, 2 => 17 | 0, _ => 22
  | 1, 0 => 5 | 1, 1 => 9 | 1, 2 => 14 | 1, _ => 20
  | 2, 0 => 4 | 2, 1 => 11 | 2, 2 => 16 | 2, _ => 23
  | _, 0 => 6 | _, 1 => 10 | _, 2 => 15 | _, _ => 21

/-- The round function of MD5 and the block word its step `i` takes. -/
def md5Step (m : List Nat) (i k : Nat) (w : Work) : Work :=
  let fg : Nat × Nat :=
    match i / 16 with
    | 0 => (choose 32 w.b w.c w.d, i)
    | 1 => (choose 32 w.d w.b w.c, 5 * i + 1)
    | 2 => (w.b ^^^ w.c ^^^ w.d, 3 * i + 5)
    | _ => (w.c ^^^ (w.b ||| flip 32 w.d), 7 * i)
  let x := (w.a + fg.1 + k + m.getD (fg.2 % 16) 0) % 2 ^ 32
  { w with a := w.d, b := (w.b + rotl32 x (md5Shift (i / 16) (i % 4))) % 2 ^ 32, c := w.b, d := w.c }

def md5Steps (m : List Nat) : List Nat → Nat → Work → Work
  | [], _, w => w
  | k :: ks, i, w => md5Steps m ks (i + 1) (md5Step m i k w)

def md5 (h : List Word) (block : Bytes) : List Word :=
  feedForward 32 h (md5Steps (blockWords .little 4 16 block) md5K 0 (Work.ofWords h)).toList

/-- Message schedule of SHA-1: `n` further words after the sixteen of the window. -/
def sha1Schedule : Nat → List Nat → List Nat
  | 0, win => win
  | n + 1, win =>
    let v := fun i => win.getD i 0
    v 0 :: sha1Schedule n (win.tail ++ [rotl32 (v 13 ^^^ v 8 ^^^ v 2 ^^^ v 0) 1])

def sha1Step (i x : Nat) (w : Work) : Work :=
  let fk : Nat × Nat :=
    match i / 20 with
    | 0 => (choose 32 w.b w.c w.d, 0x5a827999)
    | 1 => (w.b ^^^ w.c ^^^ w.d, 0x6ed9eba1)
    | 2 => (majority w.b w.c w.d, 0x8f1bbcdc)
    | _ => (w.b ^^^ w.c ^^^ w.d, 0xca62c1d6)
  { a := (rotl32 w.a 5 + fk.1 + w.e + fk.2 + x) % 2 ^ 32, b := w.a, c := rotl32 w.b 30, d := w.c, e := w.d }

def sha1Steps : List Nat → Nat → Work → Work
  | [], _, w => w
  | x :: xs, i, w => sha1Steps xs (i + 1) (sha1Step i x w)

def sha1 (h : List Word) (block : Bytes) : List Word :=
  feedForward 32 h (sha1Steps (sha1Schedule 64 (blockWords .big 4 16 block)) 0 (Work.ofWords h)).toList

/-! ### SHA-2 (FIPS 180-4), once for both word sizes -/

/-- The largest `x` with `x * x * x ≤ n` and `r ≤ x < r + 2 ^ b`, one bit at a time. -/
def cubeRoot : Nat → Nat → Nat → Nat
  | 0, r, _ => r
  | b + 1, r, n => if (r + 2 ^ b) ^ 3 ≤ n then cubeRoot b (r + 2 ^ b) n else cubeRoot b r n

/-- The primes below 410: the first eighty. -/
def primes : List Nat :=
  (List.range 410).filter fun n => decide (2 ≤ n) && (List.range 21).all fun d => d < 2 || n ≤ d || n % d ≠ 0

/-- The additive constants: the first 64 bits of the fractional parts of the cube roots of the first eighty primes. -/
def cubeRootBits : List Nat := primes.map fun p => cubeRoot 67 0 (p * 2 ^ 192) % 2 ^ 64

/-- What the two word sizes of SHA-2 differ in: rotations, shifts and additive constants. -/
structure Sha2 where
  bits : Nat
  /-- Rotations of the functions on the working words: of `e`, of `a`. -/
  workE : List Nat
  workA : List Nat
  /-- Rotations, then the shift, of the functions on the schedule: of the recent word, of the old one. -/
  recent : List Nat × Nat
  old : List Nat × Nat
  constants : List Nat

/-- Words of 32 bits: SHA-224 and SHA-256. -/
def words32 : Sha2 :=
  { bits := 32, workE := [6, 11, 25], workA := [2, 13, 22], recent := ([17, 19], 10), old := ([7, 18], 3)
    constants := (cubeRootBits.take 64).map fun k => k >>> 32 }

/-- Words of 64 bits: SHA-384 and SHA-512. -/
def words64 : Sha2 :=
  { bits := 64, workE := [14, 18, 41], workA := [28, 34, 39], recent := ([19, 61], 6), old := ([1, 8], 7)
    constants := cubeRootBits }

/-- Exclusive-or of several rotations of a word. -/
def mixed (bits : Nat) (rs : List Nat) (x : Nat) : Nat := rs.foldr (fun r acc => rotr bits x r ^^^ acc) 0

/-- `n` more words of the schedule, which is kept newest word first. -/
def Sha2.extend (p : Sha2) : Nat → List Nat → List Nat
  | 0, ws => ws
  | n + 1, ws =>
    let part := fun (f : List Nat × Nat) (x : Nat) => mixed p.bits f.1 x ^^^ x >>> f.2
    p.extend n ((part p.recent (ws.getD 1 0) + ws.getD 6 0 + part p.old (ws.getD 14 0) + ws.getD 15 0) % 2 ^ p.bits :: ws)

/-- The rounds, on the values `a` and `e` have had, newest first: `b`, `c`, `d` are the older values of `a`, and `f`, `g`, `h`
those of `e`. The first argument has the additive constant plus the schedule word of each round. -/
def Sha2.rounds (p : Sha2) : List Nat → List Nat → List Nat → List Nat
  | [], as, es => as.take 4 ++ es.take 4
  | kx :: kxs, as, es =>
    let e := es.getD 0 0
    let a := as.getD 0 0
    let t := es.getD 3 0 + mixed p.bits p.workE e + choose p.bits e (es.getD 1 0) (es.getD 2 0) + kx
    p.rounds kxs ((t + mixed p.bits p.workA a + majority a (as.getD 1 0) (as.getD 2 0)) % 2 ^ p.bits :: as)
      ((as.getD 3 0 + t) % 2 ^ p.bits :: es)

def Sha2.compress (p : Sha2) (h : List Word) (block : Bytes) : List Word :=
  let start := (blockWords .big (p.bits / 8) 16 block).reverse
  let schedule := (p.extend (p.constants.length - 16) start).reverse
  let work := h.map BitVec.toNat
  feedForward p.bits h (p.rounds (List.zipWith (· + ·) p.constants schedule) (work.take 4) (work.drop 4))

/-- The standard compression functions (G3). -/
def compress : Transform → List Word → Bytes → List Word
  | .md5 => md5
  | .sha1 => sha1
  | .sha256 => words32.compress
  | .sha512 => words64.compress

/-- A row of the table of G2, its words written as one number. -/
def row (bits n v : Nat) : List Word := (wordsOf bits n v).map (BitVec.ofNat 64)

/-- The standard initial chaining values: the table of G2. -/
def iv : Alg → List Word
  | .md5 => row 32 4 0x67452301efcdab8998badcfe10325476
  | .sha1 => row 32 5 0x67452301efcdab8998badcfe10325476c3d2e1f0
  | .sha224 => row 32 8 0xc1059ed8367cd5073070dd17f70e5939ffc00b316858151164f98fa7befa4fa4
  | .sha256 => row 32 8 0x6a09e667bb67ae853c6ef372a54ff53a510e527f9b05688c1f83d9ab5be0cd19
  | .sha384 =>
    row 64 8 0xcbbb9d5dc1059ed8629a292a367cd5079159015a3070dd17152fecd8f70e593967332667ffc00b318eb44a8768581511db0c2e0d64f98fa747b5481dbefa4fa4
  | .sha512 =>
    row 64 8 0x6a09e667f3bcc908bb67ae8584caa73b3c6ef372fe94f82ba54ff53a5f1d36f1510e527fade682d19b05688c2b3e6c1f1f83d9abfb41bd6b5be0cd19137e2179

/-- The suggested parameters: G2, G3, and the capacities of D19 ("suggested 1024"). -/
def params : Config.Params := { compress := compress, iv := iv, pwCap := 1024, saltCap := 1024 }

end Sys2Proof.Machine.Standard
end

