-- ==== Sys2Proof/Tests/Slice0.lean ====
section
/-! SUPPORT. Sys2Proof/Tests/Slice0.lean: the model's own tests: the WellFormed smoke test, words decoded from the encodings of
30_encoding.md, known answers of 95_test_vectors.md (named beside each test) over the standard parameters, and a witness of the
hypotheses of each statement. -/

open Sys2Proof Sys2Proof.Machine

namespace Sys2Proof.Tests

-- One theorem at a time: a kernel evaluation beside every other one takes more threads than the check allows.
set_option Elab.async false

/-! ### WellFormed: the one check, the tag, on each constructor that has one (R94) -/

theorem test_illFormed_digCreate : (Instr.digCreate 6).wellFormed = false ∧ (Instr.digCreate 255).wellFormed = false := by decide
theorem test_illFormed_hmacCreate : (Instr.hmacCreate 6).wellFormed = false ∧ (Instr.hmacCreate 255).wellFormed = false := by
  decide
theorem test_illFormed_kdfCreate : (Instr.kdfCreate 6).wellFormed = false ∧ (Instr.kdfCreate 255).wellFormed = false := by decide
theorem test_illFormed_kdfReset : (Instr.kdfReset 6).wellFormed = false ∧ (Instr.kdfReset 255).wellFormed = false := by decide
theorem test_wellFormed_tag5 : (Instr.kdfReset 5).wellFormed = true := by decide

/-! ### Decoding: `UNIT` 4 bits, `OP` 4 bits, `ALG` 8 bits, 16 zeros (R91), written out bit by bit for every constructor -/

theorem test_decode_digCreate : decode 0b0000_0000_00000011_0000000000000000#32 = .ok (.digCreate 3) := by rfl
theorem test_decode_digReset : decode 0b0000_0001_00000000_0000000000000000#32 = .ok .digReset := by rfl
theorem test_decode_digUpdate : decode 0b0000_0010_00000000_0000000000000000#32 = .ok .digUpdate := by rfl
theorem test_decode_digFinish : decode 0b0000_0011_00000000_0000000000000000#32 = .ok .digFinish := by rfl
theorem test_decode_digDestroy : decode 0b0000_0100_00000000_0000000000000000#32 = .ok .digDestroy := by rfl
theorem test_decode_hmacCreate : decode 0b0001_0000_00000000_0000000000000000#32 = .ok (.hmacCreate 0) := by rfl
theorem test_decode_hmacReset : decode 0b0001_0001_00000000_0000000000000000#32 = .ok .hmacReset := by rfl
theorem test_decode_hmacUpdate : decode 0b0001_0010_00000000_0000000000000000#32 = .ok .hmacUpdate := by rfl
theorem test_decode_hmacFinish : decode 0b0001_0011_00000000_0000000000000000#32 = .ok .hmacFinish := by rfl
theorem test_decode_hmacDestroy : decode 0b0001_0100_00000000_0000000000000000#32 = .ok .hmacDestroy := by rfl
theorem test_decode_kdfCreate : decode 0b0010_0000_00000001_0000000000000000#32 = .ok (.kdfCreate 1) := by rfl
theorem test_decode_kdfReset : decode 0b0010_0001_00000101_0000000000000000#32 = .ok (.kdfReset 5) := by rfl
theorem test_decode_kdfUpdate : decode 0b0010_0010_00000000_0000000000000000#32 = .ok .kdfUpdate := by rfl
theorem test_decode_kdfFinish : decode 0b0010_0011_00000000_0000000000000000#32 = .ok .kdfFinish := by rfl
theorem test_decode_kdfDestroy : decode 0b0010_0100_00000000_0000000000000000#32 = .ok .kdfDestroy := by rfl

/-! ### Illegal words on a block after reset (95_test_vectors.md section 3.5) -/

/-- The status of one command on the block after reset, its operands empty and zero. -/
def statusOf (w : BitVec 32) : Option StatusCode :=
  match step (State.reset.withEvents [.command { w := w, a := Operand.empty, b := Operand.empty, n := 0 }]) with
  | .next t => t.result.map fun r => r.st
  | .fault _ => none
  | .refused _ => none

theorem test_status_invalidAlgorithm :
    [0x30000000#32, 0xF2000000#32, 0x35000001#32, 0x00060000#32, 0x10FF0000#32, 0x20060000#32].map statusOf
      = List.replicate 6 (some .invalidAlgorithm) := by rfl
theorem test_status_invalidArgument :
    [0x05000000#32, 0x05FF0001#32, 0x00030001#32, 0x02030000#32, 0x20010000#32, 0x02000000#32].map statusOf
      = List.replicate 6 (some .invalidArgument) := by rfl
theorem test_status_absent :
    [0x03000000#32, 0x01000000#32, 0x12000000#32, 0x22000000#32, 0x04000000#32].map statusOf
      = List.replicate 4 (some .invalidArgument) ++ [some .ok] := by rfl

/-! ### Known answers of 95_test_vectors.md, over the standard `compress` and `IV` -/

/-- A byte string written as numbers. -/
def bytes (l : List Nat) : Bytes := l.map (BitVec.ofNat 8)

/-- The state after a command; reset where there is none. -/
def after : Outcome → State
  | .next s => s
  | .fault _ => State.reset
  | .refused _ => State.reset

/-- The result of a command. -/
def reply (o : Outcome) : Option Reply := (after o).result

/-- A block whose unit DIG has taken the stream `s` since CREATE. -/
def digWith (a : Alg) (s : Bytes) : State :=
  { State.reset with dig := digUpdate Standard.params (digInit Standard.params { DigestCtx.reset with valid := true, alg := a }) s }

/-- A byte string as an operand; no byte where it is too long to be one. -/
def operand (s : Bytes) : Operand := if h : s.length < 2 ^ 32 then ⟨s, h⟩ else Operand.empty

/-- A block with these operands for the next command. -/
def with_ (s : State) (a b : Bytes) (n : Nat) : State := s.withOperands (operand a) (operand b) (BitVec.ofNat 32 n)

/-- V-DIG-1. -/
theorem test_digCreate :
    (after (cmdDigCreate Standard.params 3 State.reset)).dig
      = { valid := true, alg := .sha256, h := Standard.iv .sha256, buf := [], lo := 0, hi := 0 } := by decide +kernel
/-- R130: the slot is occupied. -/
theorem test_digCreate_occupied :
    reply (cmdDigCreate Standard.params 0 (digWith .md5 [])) = some ⟨.outOfMemory, []⟩ := by decide +kernel
/-- P1: RESET after a message. -/
theorem test_digReset :
    (after (cmdDigReset Standard.params (digWith .sha1 (bytes [0x61, 0x62, 0x63])))).dig = (digWith .sha1 []).dig := by decide +kernel
/-- V-DIG-1. -/
theorem test_digUpdate_buffers :
    (after (cmdDigUpdate Standard.params (with_ (digWith .sha256 []) (bytes [0x61, 0x62, 0x63]) [] 0))).dig
      = { valid := true, alg := .sha256, h := Standard.iv .sha256, buf := bytes [0x61, 0x62, 0x63], lo := 24, hi := 0 } := by decide +kernel
/-- V-CTR-9: the carry through a command, and the block compressed. -/
theorem test_digUpdate_carry :
    (after (cmdDigUpdate Standard.params (with_
      { State.reset with dig :=
          { valid := true, alg := .sha256, h := Standard.iv .sha256, buf := List.replicate 63 0x61, lo := 0xfffffff8, hi := 0 } }
      [0x61] [] 0))).dig
      = { valid := true, alg := .sha256, buf := [], lo := 0, hi := 1,
          h := [0xdf5bb81c, 0xe81e0626, 0xfb45a894, 0x4fd40f31, 0xb25e6816, 0xd6d499c1, 0xab904929, 0x00635e66] } := by
  decide +kernel
/-- V-DIG-1. -/
theorem test_digFinish_abc :
    reply (cmdDigFinish Standard.params (digWith .sha256 (bytes [0x61, 0x62, 0x63])))
      = some ⟨.ok, be 32 0xba7816bf8f01cfea414140de5dae2223b00361a396177a9cb410ff61f20015ad⟩ := by decide +kernel
/-- V-DIG-3, SHA512 at `L = 112`: the length field does not fit in the first block. -/
theorem test_digFinish_boundary :
    reply (cmdDigFinish Standard.params (digWith .sha512 (List.replicate 112 0x61)))
      = some ⟨.ok, be 64 0xc01d080efd492776a1c43bd23dd99d0a2e626d481e16782e75d54c2503b5dc32bd05f0f1ba33e568b88fd2d970929b719ecbb152f58f130a407c8830604b70ca⟩ := by
  decide +kernel
/-- Section 2: MD5, SHA-1, SHA-224 and SHA-384 of "abc". -/
theorem test_digests_abc :
    [Alg.md5, .sha1, .sha224, .sha384].map (fun a => reply (cmdDigFinish Standard.params (digWith a (bytes [0x61, 0x62, 0x63]))))
      = [some ⟨.ok, be 16 0x900150983cd24fb0d6963f7d28e17f72⟩,
         some ⟨.ok, be 20 0xa9993e364706816aba3e25717850c26c9cd0d89d⟩,
         some ⟨.ok, be 28 0x23097d223405d8228642a477bda255b32aadbce4bda0b3f7e36c9da7⟩,
         some ⟨.ok, be 48 0xcb00753f45a35e8bb5a03d699ac65007272c32ab0eded1631a8b605a43ff5bed8086072ba1e7cc2358baeca134c825a7⟩] := by
  decide +kernel
/-- V-CTR-1 to V-CTR-8. -/
theorem test_ctrAdd :
    [(Alg.md5, 0xfffffff8#64, 0#64, 1), (.sha1, 0xfffffff0#64, 0#64, 1), (.sha224, 0#64, 0#64, 0x20000000),
     (.sha256, 0x80000000#64, 5#64, 0x30000000), (.sha384, 0xfffffffffffffff8#64, 0#64, 1),
     (.sha256, 0xfffffff8#64, 0xffffffff#64, 1), (.sha512, 0#64, 0#64, 0xffffffff), (.md5, 0xfffffe00#64, 0#64, 0x40)].map
      (fun v => let c := ctrAdd { DigestCtx.reset with alg := v.1, lo := v.2.1, hi := v.2.2.1 } v.2.2.2; (c.hi, c.lo))
      = [(1, 0), (0, 0xfffffff8), (1, 0), (7, 0), (1, 0), (0, 0), (0, 0x7fffffff8), (1, 0)] := by decide +kernel
/-- R134 and R245. -/
theorem test_digDestroy :
    (after (cmdDigDestroy (digWith .md5 []))).dig.valid = false ∧ (after (cmdDigDestroy (digWith .md5 []))).status.word = 0
      ∧ (after (cmdDigDestroy State.reset)).status.word = 16 := by
  refine ⟨rfl, ?_, ?_⟩ <;> decide +kernel

/-- Unit HMAC after CREATE with a key. -/
def hmacWith (a : Alg) (key : Bytes) : State :=
  { State.reset with hm := { hmacReset Standard.params (hmacInit HmacCtx.reset a (zeros a.outSize)) key with valid := true } }

/-- Unit HMAC after CREATE with a key, UPDATE and FINISH. -/
def hmacDone (a : Alg) (key msg : Bytes) : State :=
  { State.reset with
    hm := (hmacFinish Standard.params (hmacUpdate Standard.params (hmacWith a key).hm msg)).2 }

/-- The key "Jefe" of V-HM-1 and its message. -/
def jefe : Bytes := bytes [0x4a, 0x65, 0x66, 0x65]
def whatDoYaWant : Bytes :=
  bytes [0x77, 0x68, 0x61, 0x74, 0x20, 0x64, 0x6f, 0x20, 0x79, 0x61, 0x20, 0x77, 0x61, 0x6e, 0x74, 0x20] ++
  bytes [0x66, 0x6f, 0x72, 0x20, 0x6e, 0x6f, 0x74, 0x68, 0x69, 0x6e, 0x67, 0x3f]

/-- P2 after CREATE. -/
theorem test_hmacCreate :
    let t := (after (cmdHmacCreate Standard.params 0 (with_ State.reset jefe [] 0))).hm
    t.valid = true ∧ t.fin = false ∧ t.ipad = bytes [0x7c, 0x53, 0x50, 0x53] ++ List.replicate 60 0x36
      ∧ t.opad = bytes [0x16, 0x39, 0x3a, 0x39] ++ List.replicate 60 0x5c ∧ t.inner.n = 0 ∧ t.inner.lo = 512
      ∧ t.inner.h = [0xcb6180e8, 0x2fa83ea8, 0x43278d6c, 0xb9526934] ∧ t.outer.lo = 0 := by decide +kernel
/-- V-HM-5: a key of `B + 1` bytes is hashed. -/
theorem test_hmacReset_longKey :
    let t := (after (cmdHmacReset Standard.params (with_ (hmacDone .sha256 jefe []) ((List.range 65).map (BitVec.ofNat 8)) [] 0))).hm
    t.fin = false ∧ t.ipad.take 4 = bytes [0x7d, 0xcb, 0x1a, 0xbd] ∧ t.ipad.drop 32 = List.replicate 32 0x36 := by
  decide +kernel
/-- P2: UPDATE is refused after FINISH. -/
theorem test_hmacUpdate_afterFinish :
    let s := with_ (hmacDone .md5 jefe whatDoYaWant) [0x78] [] 0
    reply (cmdHmacUpdate Standard.params s) = some ⟨.error, []⟩
      ∧ (after (cmdHmacUpdate Standard.params s)).status.word = 0x21 := by decide +kernel
/-- P2: the inner counters after the updates. -/
theorem test_hmacUpdate :
    let t := (after (cmdHmacUpdate Standard.params (with_ (hmacWith .md5 jefe) whatDoYaWant [] 0))).hm
    t.inner.n = 28 ∧ t.inner.lo = 736 ∧ t.outer.lo = 0 := by decide +kernel
/-- V-HM-1 and P2 after the first FINISH. -/
theorem test_hmacFinish :
    let s := after (cmdHmacUpdate Standard.params (with_ (hmacWith .md5 jefe) whatDoYaWant [] 0))
    let t := after (cmdHmacFinish Standard.params s)
    t.result = some ⟨.ok, be 16 0x750c783e6ab0b503eaa86e310a5db738⟩
      ∧ t.hm.scratch = be 16 0xc3db14c065f55203b033c81a697b97c5 ∧ t.hm.fin = true ∧ t.hm.inner.lo = 1024
      ∧ t.hm.outer.lo = 1024 ∧ t.hm.outer.n = 0 := by decide +kernel
/-- V-HM-3, over the function of R166: empty key and message. -/
theorem test_hmac_empty : hmac Standard.params .md5 [] [] = be 16 0x74e6f7298a9c2d168935f58c001bad88 := by decide +kernel
/-- R174. -/
theorem test_hmacDestroy :
    (after (cmdHmacDestroy (hmacWith .md5 jefe))).hm.valid = false
      ∧ (after (cmdHmacDestroy (hmacWith .md5 jefe))).hm.inner.valid = false
      ∧ (after (cmdHmacDestroy State.reset)).status.warn = true := by
  refine ⟨rfl, rfl, rfl⟩

/-- Unit KDF after CREATE MD5 with password "p", salt "s" and one iteration. -/
def kdfWith : State :=
  { State.reset with
    kdf :=
      { kdfReset Standard.params (kdfInit KdfCtx.reset .md5 (zeros 16) (zeros 16) (zeros 16)) [0x70] [0x73] 1 with valid := true } }

/-- V-ERR-1 and P3 after CREATE. -/
theorem test_kdfCreate :
    let t := (after (cmdKdfCreate Standard.params 0 (with_ State.reset [0x70] [0x73] 1))).kdf
    reply (cmdKdfCreate Standard.params 1 (with_ State.reset [] [] 0)) = some ⟨.invalidArgument, []⟩
      ∧ t.valid = true ∧ t.ctr = zeros 4 ∧ t.idx = 16 ∧ t.hmac.inner.lo = 512 := by decide +kernel
/-- R60: the buffers CREATE makes have `O` bytes, before any of them is written. -/
theorem test_create_sizes :
    let m := (after (cmdHmacCreate Standard.params 1 (with_ State.reset jefe [] 0))).hm
    let k := (after (cmdKdfCreate Standard.params 3 (with_ State.reset [0x70] [0x73] 1))).kdf
    [m.scratch, k.blk, k.scr, k.hmac.scratch].map List.length = [20, 32, 32, 32] := by decide +kernel
/-- V-ERR-1: the slot is occupied, check 7. -/
theorem test_kdfCreate_occupied :
    reply (cmdKdfCreate Standard.params 1 (with_ kdfWith [0x70] [0x73] 1)) = some ⟨.outOfMemory, []⟩ := by decide +kernel
/-- V-ERR-1: checks 9, 10 and 11 of `KDF.RESET`, and the stores kept. -/
theorem test_kdfReset_refused :
    reply (cmdKdfReset Standard.params 3 (with_ kdfWith [0x70] [0x73] 1)) = some ⟨.invalidArgument, []⟩
      ∧ reply (cmdKdfReset Standard.params 0 (with_ kdfWith [0x70] [0x73] 0)) = some ⟨.invalidArgument, []⟩
      ∧ reply (cmdKdfReset Standard.params 0 (with_ kdfWith (zeros 2000) [] 1)) = some ⟨.outOfMemory, []⟩
      ∧ (after (cmdKdfReset Standard.params 0 (with_ kdfWith (zeros 2000) [] 1))).kdf = kdfWith.kdf := by decide +kernel
/-- V-KDF-9: RESET after exhaustion. -/
theorem test_kdfReset :
    let s := { kdfWith with kdf := { kdfWith.kdf with ctr := [0xff, 0xff, 0xff, 0xff] } }
    (after (cmdKdfReset Standard.params 0 (with_ s [0x70] [0x73] 1))).kdf = kdfWith.kdf := by decide +kernel
/-- V-KDF-5. -/
theorem test_kdfUpdate :
    let t := after (cmdKdfUpdate Standard.params (with_ kdfWith [] [] 16))
    t.result = some ⟨.ok, be 16 0x8c5551ef727c7fc5b44eee96437f1a3e⟩ ∧ t.kdf.ctr = [0, 0, 0, 1] ∧ t.kdf.idx = 16 := by
  decide +kernel
/-- V-KDF-9: exhaustion after the last block. -/
theorem test_kdfUpdate_exhausted :
    let s := { kdfWith with kdf := { kdfWith.kdf with ctr := [0xff, 0xff, 0xff, 0xfe] } }
    let t := after (cmdKdfUpdate Standard.params (with_ s [] [] 20))
    t.result = some ⟨.sourceExhausted, be 16 0x60be51f3b5554169b5bacf2b10dfbf9d⟩ ∧ t.kdf.ctr = [0xff, 0xff, 0xff, 0xff]
      ∧ t.kdf.idx = 16 ∧ t.status.word = 0x27 := by decide +kernel
/-- V-KDF-2, over the function of R195. -/
theorem test_derivedBlock :
    derivedBlock Standard.params .sha1 (bytes [0x70, 0x61, 0x73, 0x73, 0x77, 0x6f, 0x72, 0x64]) (bytes [0x73, 0x61, 0x6c, 0x74]) 2 1
      = be 20 0xea6c014dc72d6f8ccd1ed92ace1d41f0d8de8957 := by decide +kernel
/-- V-ERR-1: `KDF.FINISH` changes nothing. -/
theorem test_kdfFinish :
    (after (cmdKdfFinish kdfWith)).kdf = kdfWith.kdf ∧ reply (cmdKdfFinish kdfWith) = some ⟨.ok, []⟩ := by decide +kernel
/-- R204. -/
theorem test_kdfDestroy :
    (after (cmdKdfDestroy kdfWith)).kdf.valid = false ∧ (after (cmdKdfDestroy State.reset)).status.warn = true :=
  ⟨by rfl, rfl⟩
/-- R44: `PHASE` in the middle of a run, and R41: the layout of `STATUS`. -/
theorem test_phase : phase (hmacDone .md5 jefe []) = 6 ∧ phase kdfWith = 8 := by decide +kernel
/-- R270: hardware reset over a unit in use. -/
theorem test_hardwareReset :
    (after (step ({ kdfWith with status := { code := 7, warn := true, err := true } }.withEvents [.hardwareReset none]))).status.word
      = 0 := by rfl
/-- R102: the text of a command. -/
theorem test_commandText :
    commandText { w := 0x20010000, a := operand [0x70], b := operand [0xab], n := 2 } = some "KDF.CREATE SHA1, A=x\"70\", B=x\"ab\", N=2" := by
  decide +kernel

/-! ### Witnesses: states and operands that meet the hypotheses of each statement

`params` has no body, so the states are built with the operations, and the lemmas of Laws/ say that they meet the invariant. -/

/-- The block with a present unit DIG. -/
def digReady (a : Alg) : State := { State.reset with dig := initialDigest params a }
/-- The block with a present unit HMAC, in the READY phase. -/
def hmacReady (a : Alg) : State := { State.reset with hm := keyedHmac params a [0x6b] (zeros a.outSize) }
/-- The same unit after FINISH. -/
def hmacFinished (a : Alg) : State := { State.reset with hm := (hmacFinish params (keyedHmac params a [0x6b] (zeros a.outSize))).2 }
/-- The block with a present unit KDF, nothing emitted yet. -/
def kdfReady (a : Alg) : State :=
  { State.reset with kdf := keyedKdf params a [0x70] [0x73] 2 (zeros a.outSize) (zeros a.outSize) (zeros a.outSize) }
/-- A unit KDF whose counter is `c` and whose block is used up. -/
def kdfAt (a : Alg) (c : Bytes) : State := { kdfReady a with kdf := { (kdfReady a).kdf with ctr := c } }
/-- `s` with an update of this unit's data pending. -/
def pending (s : State) (w : BitVec 32) : State := s.withEvents [.command { w := w, a := operand [0x61], b := Operand.empty, n := 1 }]

theorem digReady_inv (a : Alg) : (digReady a).dig.Inv := fun _ => initialDigest_good params a
theorem hmacReady_inv (a : Alg) : (hmacReady a).hm.Inv params := keyedHmac_inv params a _ (by simp)
theorem hmacFinished_inv (a : Alg) : (hmacFinished a).hm.Inv params :=
  ⟨by simp [hmacFinished, keyedHmac, primedDigest], by simp [hmacFinished, keyedHmac, initialDigest],
    fun _ => hmacFinish_good params (keyedHmac_good params a _ (by simp))⟩
theorem one_le_pwCap : 1 ≤ params.pwCap := Nat.le_add_left 1 _
theorem one_le_saltCap : 1 ≤ params.saltCap := Nat.le_add_left 1 _
theorem kdfReady_inv (a : Alg) : (kdfReady a).kdf.Inv params :=
  keyedKdf_inv params a one_le_pwCap one_le_saltCap (by decide) (by simp) (by simp) (by simp)
theorem kdfAt_inv (a : Alg) (c : Bytes) (h : c.length = 4) : (kdfAt a c).kdf.Inv params := by
  have g := (kdfReady_inv a).2.2.2 rfl
  exact ⟨rfl, rfl, rfl, fun _ =>
    { hmac_alg := g.hmac_alg, hmac_good := g.hmac_good, pw_fits := g.pw_fits, salt_fits := g.salt_fits, iter_pos := g.iter_pos
      ctr_size := h, blk_size := g.blk_size, scr_size := g.scr_size, cursor := le_refl _, ipad := g.ipad, opad := g.opad, primed := g.primed
      block := fun h => absurd h (lt_irrefl _), lazy := a.outSize_pos }⟩
theorem reset_absent : State.reset.dig.valid = false ∧ State.reset.hm.valid = false ∧ State.reset.kdf.valid = false :=
  ⟨rfl, rfl, rfl⟩

theorem test_witness_DecodeOfEncode : (Instr.kdfReset 5).wellFormed = true ∧ (Instr.digCreate 0).wellFormed = true := by decide
theorem test_witness_EncodeOfDecode : decode 0x21050000#32 = .ok (.kdfReset 5) ∧ decode 0x24000000#32 = .ok .kdfDestroy :=
  ⟨by rfl, by rfl⟩
/-- A row selected with a tag of 5 and one of 6, and a word that selects no row. -/
theorem test_witness_DecodeFollowsOpcodeMap :
    (∃ r ∈ opcodeMap, 0x00050000#32 &&& r.mask = r.matchWord) ∧ (∃ r ∈ opcodeMap, 0x00060000#32 &&& r.mask = r.matchWord)
      ∧ (∀ r ∈ opcodeMap, 0x02030000#32 &&& r.mask ≠ r.matchWord) := by decide
/-- A word for each clause, at the first value it speaks of. -/
theorem test_witness_IllegalWordReturnsStatus :
    let unit := fun w : BitVec 32 => w.toNat / 2 ^ 28
    let op := fun w : BitVec 32 => w.toNat / 2 ^ 24 % 16
    let alg := fun w : BitVec 32 => w.toNat / 2 ^ 16 % 256
    let low := fun w : BitVec 32 => w.toNat % 2 ^ 16
    let uses := fun w : BitVec 32 => op w = 0 ∨ (unit w = 2 ∧ op w = 1)
    3 ≤ unit 0x30000000 ∧ (unit 0x25000000 < 3 ∧ 5 ≤ op 0x25000000)
      ∧ (unit 0x24000001 < 3 ∧ op 0x24000001 < 5 ∧ low 0x24000001 ≠ 0)
      ∧ (unit 0x11010000 < 3 ∧ op 0x11010000 < 5 ∧ low 0x11010000 = 0 ∧ ¬uses 0x11010000 ∧ alg 0x11010000 ≠ 0)
      ∧ (unit 0x21060000 < 3 ∧ op 0x21060000 < 5 ∧ low 0x21060000 = 0 ∧ uses 0x21060000 ∧ 6 ≤ alg 0x21060000)
      ∧ (pending State.reset 0x30000000).events = .command { w := 0x30000000, a := operand [0x61], b := Operand.empty, n := 1 } :: [] := by
  refine ⟨by decide, by decide, by decide, by decide, by decide, rfl⟩
theorem test_witness_StepRunsDecodedCommand :
    (pending State.reset 0x02000000).events = .command { w := 0x02000000, a := operand [0x61], b := Operand.empty, n := 1 } :: []
      ∧ decode 0x02000000#32 = .ok .digUpdate := ⟨rfl, by rfl⟩
theorem test_witness_IdleStepHoldsState : State.reset.events = [] := rfl
theorem test_witness_OverlappingCommandsStop (a b : Command) : (State.reset.withEvents [.overlap a b]).events = .overlap a b :: [] := rfl
theorem test_witness_StepAlwaysAnswers :
    ∀ (a b : Command) (rest : List HostEvent), (pending State.reset 0).events ≠ .overlap a b :: rest := by
  intro a b rest h
  simp [pending] at h
theorem test_witness_HardwareResetClears :
    ((digReady .md5).withEvents [.hardwareReset none]).events = .hardwareReset none :: [] := rfl
theorem test_witness_FirstSuccessIsCreateOrDestroy :
    (Instr.kdfReset 6).op ≠ .create ∧ (Instr.kdfReset 6).op ≠ .destroy ∧ Instr.hmacFinish.op ≠ .create := by decide
theorem test_witness_StepKeepsInv : State.Inv params State.reset ∧ step State.reset = .next State.reset := by
  refine ⟨⟨fun h => ?_, ⟨rfl, rfl, fun h => ?_⟩, ⟨rfl, rfl, rfl, fun h => ?_⟩, .inl rfl, fun h => absurd rfl h⟩, rfl⟩ <;> cases h
/-- The tag at its bound, the slot occupied, the slot free. -/
theorem test_witness_DigCreateEffect :
    6 ≤ (6#8).toNat ∧ 6 ≤ (255#8).toNat ∧ (digReady .sha512).dig.valid = true ∧ State.reset.dig.valid = false := by
  exact ⟨by decide, by decide, rfl, rfl⟩
/-- For DIG.RESET, UPDATE, FINISH and DESTROY: present and good, and absent. -/
theorem test_witness_DigEffects :
    (digReady .sha384).dig.valid = true ∧ (digReady .sha384).dig.Inv ∧ State.reset.dig.valid = false :=
  ⟨rfl, digReady_inv _, rfl⟩
theorem test_witness_BitCounterAdvances :
    ({ DigestCtx.reset with alg := .md5, lo := 0xffffffff } : DigestCtx).lo.toNat < Alg.md5.ctrModulus := by decide
/-- Fill counts on both sides of `B - LF`. -/
theorem test_witness_PaddingEndsAtLengthField :
    ({ DigestCtx.reset with buf := zeros 55 } : DigestCtx).n < Alg.md5.blockSize
      ∧ ({ DigestCtx.reset with buf := zeros 56 } : DigestCtx).n < Alg.md5.blockSize
      ∧ ({ DigestCtx.reset with buf := zeros 63 } : DigestCtx).n < Alg.md5.blockSize := by decide
/-- V-CTR-10 in each family. -/
theorem test_witness_LengthFieldLayout :
    [Alg.md5, .sha1, .sha512].map (fun a => lenfield { DigestCtx.reset with alg := a, lo := 0x18, hi := 1 })
      = [bytes [0x18, 0, 0, 0, 1, 0, 0, 0], bytes [0, 0, 0, 1, 0, 0, 0, 0x18],
         bytes [0, 0, 0, 0, 0, 0, 0, 1, 0, 0, 0, 0, 0, 0, 0, 0x18]] := by decide +kernel
theorem test_witness_DigestIsWholeWords : (Standard.iv .sha224).length = Alg.sha224.stateWords := by decide
theorem test_witness_StreamCharacterisation :
    (digReady .sha1).dig = streamState params (initialDigest params .sha1) [] ∧ (initialDigest params .sha1).valid = true := by
  refine ⟨?_, rfl⟩
  rw [← digInit_eq_stream, digInit_initial _ rfl]
  rfl
theorem test_witness_DigestOfMessage :
    (digReady .sha1).dig.valid = true ∧ ({ w := 0x02000000, a := operand [0x61], b := Operand.empty, n := 0 } : Command).w = 0x02000000#32 :=
  ⟨rfl, rfl⟩
/-- A message of three bytes in two chunks. -/
theorem test_witness_ChunkingInvariance :
    (digReady .md5).dig.valid = true ∧ (digReady .md5).dig.Inv
      ∧ (operand [0x61, 0x62, 0x63]).val = ([operand [0x61], operand [0x62, 0x63]].map Subtype.val).flatten :=
  ⟨rfl, digReady_inv _, by decide⟩
theorem test_witness_HmacCreateEffect :
    6 ≤ (6#8).toNat ∧ (hmacReady .sha1).hm.valid = true ∧ State.reset.hm.valid = false := ⟨by decide, rfl, rfl⟩
/-- For HMAC.RESET, UPDATE, FINISH and DESTROY: READY, FINISHED and absent. -/
theorem test_witness_HmacEffects :
    (hmacReady .sha256).hm.valid = true ∧ (hmacReady .sha256).hm.fin = false ∧ (hmacReady .sha256).hm.Inv params
      ∧ (hmacFinished .md5).hm.valid = true ∧ (hmacFinished .md5).hm.fin = true ∧ (hmacFinished .md5).hm.Inv params
      ∧ State.reset.hm.valid = false := ⟨rfl, rfl, hmacReady_inv _, rfl, rfl, hmacFinished_inv _, rfl⟩
theorem test_witness_HmacOfMessage :
    State.reset.hm.valid = false ∧ (0x10050000#32) = encode (.hmacCreate Alg.sha512.tag) := ⟨rfl, by decide⟩
/-- A key of `B + 1` bytes; its digest is short enough to be an operand. -/
theorem test_witness_HmacKeyFolding :
    (hmacReady .sha1).hm.valid = true ∧ (hmacReady .sha1).hm.Inv params
      ∧ (hmacReady .sha1).hm.alg.blockSize < (operand (zeros 65)).val.length
      ∧ ∃ folded : Operand, folded.val = hash params (hmacReady .sha1).hm.alg (operand (zeros 65)).val :=
  have folded : ∀ key, ∃ f : Operand, f.val = hash params .sha1 key := fun key =>
    ⟨⟨hash params .sha1 key, by rw [hash_length]; decide⟩, rfl⟩
  ⟨rfl, hmacReady_inv _, by decide +kernel, folded _⟩
/-- Each clause on the operands: none, at the capacity, and one byte over it. The capacities have no value; only one below
`2^32 - 1` leaves an operand that is over it. -/
theorem operands_at_capacity :
    (operand [0x70]).val.length ≤ params.pwCap ∧ (operand [0x73]).val.length ≤ params.saltCap
      ∧ (params.pwCap + 1 < 2 ^ 32 → ∃ a b : Operand, a.val.length = params.pwCap ∧ params.pwCap < b.val.length)
      ∧ (params.saltCap + 1 < 2 ^ 32 → ∃ a b : Operand, a.val.length = params.saltCap ∧ params.saltCap < b.val.length) := by
  have at_and_over : ∀ c, c + 1 < 2 ^ 32 → ∃ a b : Operand, a.val.length = c ∧ c < b.val.length := fun c h =>
    ⟨⟨zeros c, by rw [zeros_length]; omega⟩, ⟨zeros (c + 1), by rw [zeros_length]; exact h⟩, zeros_length c, by simp⟩
  exact ⟨one_le_pwCap, one_le_saltCap, at_and_over _, at_and_over _⟩
/-- Each clause: the tag at its bound, no iterations, occupied, free; the lengths of the operands are those above. -/
theorem test_witness_KdfCreateEffect :
    6 ≤ (6#8).toNat ∧ (with_ State.reset [] [] 0).cmd.n = 0 ∧ (with_ State.reset [] [] 1).cmd.n ≠ 0
      ∧ (kdfReady .md5).kdf.valid = true ∧ State.reset.kdf.valid = false := ⟨by decide, rfl, by decide, rfl, rfl⟩
/-- Each clause: absent, the other algorithm, no iterations, and a state that meets the invariant. -/
theorem test_witness_KdfResetEffect :
    State.reset.kdf.valid = false ∧ Alg.sha256 ≠ (kdfReady .sha1).kdf.alg ∧ (kdfReady .sha1).kdf.valid = true
      ∧ (with_ (kdfReady .sha1) [0x70] [] 1).kdf.Inv params
      ∧ (with_ (kdfReady .sha1) [0x70] [] 1).cmd.a.val.length ≤ params.pwCap :=
  ⟨rfl, by decide, rfl, kdfReady_inv _, one_le_pwCap⟩
/-- A unit in the middle of its first block. -/
def kdfMiddle : State :=
  { kdfReady .md5 with kdf := derivedKdf params (kdfReady .md5).kdf 1 8 }
theorem kdfMiddle_inv : kdfMiddle.kdf.Inv params :=
  ⟨rfl, rfl, rfl, fun _ => ⟨derivedKdf_sound params ((kdfReady_inv .md5).2.2.2 rfl).toSound (by decide) (by decide) (by decide), by decide⟩⟩
/-- The clauses on the context: a request that ends with the block, and one that goes a byte past it. -/
theorem test_witness_KdfUpdateEmitsStream_context :
    kdfMiddle.kdf.valid = true ∧ kdfMiddle.kdf.Inv params ∧ kdfMiddle.kdf.position = 8
      ∧ kdfMiddle.kdf.idx + min 8 (streamLength .md5 - 8) ≤ kdfMiddle.kdf.alg.outSize
      ∧ kdfMiddle.kdf.alg.outSize < kdfMiddle.kdf.idx + min 9 (streamLength .md5 - 8) :=
  ⟨rfl, kdfMiddle_inv, by decide +kernel, by decide +kernel, by decide +kernel⟩
/-- A unit with all of the stream left, and one with none. -/
theorem test_witness_KdfUpdateEmitsStream :
    (kdfReady .md5).kdf.valid = true ∧ (kdfReady .md5).kdf.Inv params ∧ (kdfReady .md5).kdf.position = 0
      ∧ (kdfAt .md5 (List.replicate 4 0xff)).kdf.Inv params
      ∧ (kdfAt .md5 (List.replicate 4 0xff)).kdf.position = streamLength .md5 ∧ State.reset.kdf.valid = false :=
  ⟨rfl, kdfReady_inv _, keyedKdf_position _ _ _ _ _ _ _ _, kdfAt_inv _ _ rfl, by decide +kernel, rfl⟩
/-- The first block, and the last one. -/
theorem test_witness_KdfDerivesNextBlock :
    (kdfReady .md5).kdf.Inv params ∧ (kdfReady .md5).kdf.idx = Alg.md5.outSize ∧ intBe (kdfReady .md5).kdf.ctr + 1 < 2 ^ 32
      ∧ (kdfAt .md5 [0xff, 0xff, 0xff, 0xfe]).kdf.Inv params
      ∧ intBe (kdfAt .md5 [0xff, 0xff, 0xff, 0xfe]).kdf.ctr + 1 = 2 ^ 32 - 1 :=
  ⟨kdfReady_inv _, rfl, by decide +kernel, kdfAt_inv _ _ rfl, by decide +kernel⟩
/-- Position 0, and a position after it. -/
theorem test_witness_KdfCursorIsPosition :
    (kdfReady .sha1).kdf.position = 0 ∧ 0 < (kdfAt .sha1 [0, 0, 0, 1]).kdf.position
      ∧ (kdfAt .sha1 [0, 0, 0, 1]).kdf.Inv params :=
  ⟨keyedKdf_position _ _ _ _ _ _ _ _, by decide +kernel, kdfAt_inv _ _ rfl⟩
theorem test_witness_KdfSplitRequest :
    (kdfReady .sha1).kdf.valid = true ∧ (8#32).toNat + (17#32).toNat < 2 ^ 32
      ∧ (0#32).toNat + (0xFFFFFFFF#32).toNat < 2 ^ 32 := ⟨rfl, by decide, by decide⟩
/-- A request on an exhausted unit. -/
theorem test_witness_KdfExhaustionSticky :
    ∃ t, exec .kdfUpdate (with_ (kdfAt .md5 (List.replicate 4 0xff)) [] [] 1) = .next t
      ∧ t.result = some { st := .sourceExhausted, out := [] } := by
  have h : kdfRefill params (kdfAt .md5 (List.replicate 4 0xff)).kdf = ((kdfAt .md5 (List.replicate 4 0xff)).kdf, true) := by
    rw [kdfRefill, if_pos (show (kdfAt .md5 _).kdf.idx = (kdfAt .md5 _).kdf.alg.outSize from rfl),
      ctrInc_exhausted rfl (by decide +kernel)]
    rfl
  refine ⟨_, exec_kdfUpdate_present _ rfl, ?_⟩
  rw [show (with_ (kdfAt .md5 (List.replicate 4 0xff)) [] [] 1).cmd.n.toNat = 0 + 1 from rfl, with_, withOperands_kdf, kdfEmit, h]
  rfl
theorem test_witness_Pbkdf2OfPassword :
    State.reset.kdf.valid = false ∧ (0x20000000#32) = encode (.kdfCreate Alg.md5.tag) ∧ (1#32) ≠ 0
      ∧ (operand [0x70]).val.length ≤ params.pwCap ∧ (operand [0x73]).val.length ≤ params.saltCap :=
  ⟨rfl, by decide, by decide, one_le_pwCap, one_le_saltCap⟩
theorem test_witness_KdfFinishAndDestroy : (kdfReady .md5).kdf.valid = true ∧ State.reset.kdf.valid = false := ⟨rfl, rfl⟩
/-- A refused command, for the clauses on a status other than `Ok`. -/
theorem test_witness_FailureChangesNothing :
    ∃ t, exec .digReset State.reset = .next t ∧ t.result = some { st := .invalidArgument, out := [] } := ⟨_, rfl, rfl⟩
/-- DESTROY of an absent unit, and of a present one. -/
theorem test_witness_WarningOnlyByDestroy :
    (Instr.digDestroy.op = .destroy ∧ unitPhase Instr.digDestroy.unit State.reset = .absent)
      ∧ ¬(Instr.digDestroy.op = .destroy ∧ unitPhase Instr.digDestroy.unit (digReady .md5) = .absent) := by
  refine ⟨⟨rfl, rfl⟩, fun h => ?_⟩
  cases h.2
/-- `Error` after FINISH. -/
theorem test_witness_WhoRaisesWhat :
    ∃ t, exec .hmacFinish (hmacFinished .md5) = .next t ∧ t.result = some { st := .error, out := [] }
      ∧ hmacPhase (hmacFinished .md5) = .finished := ⟨_, rfl, rfl, rfl⟩
/-- Two machines that differ in another unit. -/
theorem test_witness_UnitIsolation :
    State.reset.cmd = (hmacReady .md5).cmd ∧ State.reset.freeCount = (hmacReady .md5).freeCount
      ∧ State.reset.dig = (hmacReady .md5).dig ∧ State.reset.hm.valid ≠ (hmacReady .md5).hm.valid := by
  refine ⟨rfl, rfl, rfl, fun h => ?_⟩
  cases h
theorem test_witness_AlgorithmFixedWhilePresent :
    ∃ t, exec .digReset (digReady .sha1) = .next t ∧ (digReady .sha1).dig.valid = true ∧ t.dig.valid = true :=
  ⟨_, rfl, rfl, rfl⟩
theorem test_witness_CommandsThatDoNothing :
    (with_ (digReady .md5) [] [] 0).cmd.a.val = [] ∧ (with_ (kdfReady .md5) [] [] 0).cmd.n = 0
      ∧ (hmacReady .md5).hm.fin = false := ⟨rfl, rfl, rfl⟩
theorem test_witness_OutputLengths :
    (digReady .md5).dig.Inv ∧ (digReady .md5).hm.Inv params ∧ (hmacReady .md5).hm.Inv params ∧ (hmacReady .md5).dig.Inv := by
  refine ⟨digReady_inv _, ⟨rfl, rfl, fun h => ?_⟩, hmacReady_inv _, fun h => ?_⟩ <;> cases h
theorem test_witness_PseudoInstructions : State.reset.dig.valid = false ∧ State.reset.hm.valid = false := ⟨rfl, rfl⟩

/-- Absent units, for the clause on DESTROY; and the last check of the table, with a unit that has none of the stream left. -/
theorem test_witness_FirstFailingCheck :
    State.reset.kdf.Inv params ∧ State.reset.dig.valid = false ∧ State.reset.hm.valid = false ∧ State.reset.kdf.valid = false
      ∧ (with_ (kdfAt .md5 (List.replicate 4 0xff)) [] [] 1).kdf.Inv params
      ∧ firstFailingCheck params 0x22000000 (with_ (kdfAt .md5 (List.replicate 4 0xff)) [] [] 1) = .sourceExhausted := by
  refine ⟨⟨rfl, rfl, rfl, fun h => ?_⟩, rfl, rfl, rfl, kdfAt_inv _ _ rfl, by decide +kernel⟩
  cases h
/-- The table of R239 on the block after reset, one word for each of checks 1 to 6 and 8, and one that fails none. -/
theorem test_firstFailingCheck :
    [0x30000000#32, 0x05000000#32, 0x01000001#32, 0x01010000#32, 0x00060000#32, 0x20000000#32, 0x22000000#32, 0x14000000#32].map
      (fun w => firstFailingCheck Standard.params w State.reset)
      = [.invalidAlgorithm, .invalidArgument, .invalidArgument, .invalidArgument, .invalidAlgorithm, .invalidArgument,
          .invalidArgument, .ok] := by decide +kernel

/-- Two machines that differ in an absent unit, and in `scratch` before the first FINISH. -/
theorem test_witness_UnwrittenFieldsUnobservable :
    let s := hmacReady .md5
    let s' := { State.reset with dig := { DigestCtx.reset with lo := 5 }, hm := keyedHmac params .md5 [0x6b] (List.replicate 16 1) }
    s.Inv params ∧ s'.Inv params ∧ s.Alike s' ∧ s.dig.lo ≠ s'.dig.lo ∧ s.hm.scratch ≠ s'.hm.scratch := by
  refine ⟨⟨fun h => ?_, hmacReady_inv _, ⟨rfl, rfl, rfl, fun h => ?_⟩, .inl rfl, fun h => absurd rfl h⟩,
    ⟨fun h => ?_, keyedHmac_inv _ _ _ rfl, ⟨rfl, rfl, rfl, fun h => ?_⟩, .inl rfl, fun h => absurd rfl h⟩,
    ⟨⟨rfl, fun h => ?_⟩, ⟨rfl, fun _ => ⟨rfl, fun h => ?_⟩⟩, ⟨rfl, fun h => ?_⟩, rfl, rfl⟩, by decide, fun h => ?_⟩ <;> cases h

end Sys2Proof.Tests
end

section
/-! PROOFS. The statements of 00_scope.md about the step (R6): the equations of `step` and `runWord`, one per case, and that
every command answers a next state; then O6 and O9. -/

namespace Sys2Proof.Machine

/-! ### The step, event by event (R6) -/

/-- With no event the block holds its state (R252). -/
theorem step_no_event {s : State} (h : s.events = []) : step s = .next s := by simp [step, h]

theorem step_command {s : State} {c : Command} {rest : List HostEvent} (h : s.events = .command c :: rest) :
    step s = runWord c.w (acceptCommand c rest s) := by simp [step, h]

theorem step_hardwareReset {s : State} {c : Option Command} {rest : List HostEvent}
    (h : s.events = .hardwareReset c :: rest) : step s = .next (hardwareReset { s with events := rest }) := by
  simp [step, h]

/-! ### A command word, legal or not (R99) -/

theorem runWord_legal {w : BitVec 32} {i : Instr} (h : decode w = .ok i) (s : State) : runWord w s = exec i s := by
  simp [runWord, h]

theorem runWord_illegal {w : BitVec 32} {e : DecodeError} (h : decode w = .error e) (s : State) :
    runWord w s = .next (returnStatus (illegalStatus e) [] s) := by
  simp [runWord, h, illegalCommand]

/-! ### Every command returns (R230) -/

/-- Each way a command can end (`Answer`) is a next state. -/
theorem exec_answers (i : Instr) (s : State) : ∃ t, exec i s = .next t := by
  cases exec_cases i s with
  | refused _ _ _ _ _ answer => exact ⟨_, answer⟩
  | warned answer => exact ⟨_, answer⟩
  | onDig _ _ _ _ answer => exact ⟨_, answer⟩
  | onHmac _ _ _ _ answer => exact ⟨_, answer⟩
  | onKdf _ _ _ _ _ answer => exact ⟨_, answer⟩

theorem runWord_answers (w : BitVec 32) (s : State) : ∃ t, runWord w s = .next t := by
  cases h : decode w with
  | ok i => rw [runWord_legal h]; exact exec_answers i s
  | error e => exact ⟨_, runWord_illegal h s⟩

/-! ### The obligations -/

/-- Settles O6: acceptance puts the operands in the state, and a legal word runs its instruction (R6). -/
theorem stepRunsDecodedCommand : Obligations.StepRunsDecodedCommand := by
  intro s c rest i hevents hdecode
  rw [step_command hevents, runWord_legal hdecode, acceptCommand]

/-- Settles O9, by the host's next event: only overlapping commands stop the machine, and those are excluded. -/
theorem stepAlwaysAnswers : Obligations.StepAlwaysAnswers := by
  intro s hoverlap
  cases hevents : s.events with
  | nil => exact ⟨s, step_no_event hevents⟩
  | cons event rest =>
    cases event with
    | command c => rw [step_command hevents]; exact runWord_answers c.w _
    | hardwareReset c => exact ⟨_, step_hardwareReset hevents⟩
    | overlap a b => exact absurd hevents (hoverlap a b rest)

end Sys2Proof.Machine
end

section
/-! PROOFS. 10_state.md, the invariant: what every command leaves alone (R21) and does to `STATUS` (R241, R245), that each
unit's commands keep its context good, and so that every step keeps the invariant; then O13 and O14. -/

namespace Sys2Proof.Machine

open Config (Params)

/-! ### What every command leaves alone, and what it does to `STATUS` -/

/-- What a command of one unit leaves alone in the step from `s` to `t` (R21): the other units, and what the host set up. -/
structure Framed (i : Instr) (s t : State) : Prop where
  events : t.events = s.events
  cmd : t.cmd = s.cmd
  dig : i.unit ≠ .dig → t.dig = s.dig
  hm : i.unit ≠ .hmac → t.hm = s.hm
  kdf : i.unit ≠ .kdf → t.kdf = s.kdf

theorem exec_framed {i : Instr} {s t : State} (h : exec i s = .next t) : Framed i s t := by
  cases exec_cases i s with
  | refused _ _ _ _ _ answer | warned answer =>
    obtain rfl := next_inj (answer.symm.trans h)
    exact ⟨rfl, rfl, fun _ => rfl, fun _ => rfl, fun _ => rfl⟩
  | onDig _ _ _ unit answer =>
    obtain rfl := next_inj (answer.symm.trans h)
    exact ⟨rfl, rfl, fun hu => absurd unit hu, fun _ => rfl, fun _ => rfl⟩
  | onHmac _ _ _ unit answer =>
    obtain rfl := next_inj (answer.symm.trans h)
    exact ⟨rfl, rfl, fun _ => rfl, fun hu => absurd unit hu, fun _ => rfl⟩
  | onKdf _ _ _ _ unit answer =>
    obtain rfl := next_inj (answer.symm.trans h)
    exact ⟨rfl, rfl, fun _ => rfl, fun _ => rfl, fun hu => absurd unit hu⟩

/-- `STATUS` as the status return of the command `i` finds it: DESTROY of an absent unit has surfaced the warning (R245). -/
def statusBeforeReturn (i : Instr) (s : State) : Status :=
  if i.op = .destroy ∧ unitPhase i.unit s = .absent then s.status.withWarning else s.status

theorem unitPhase_dig_ne_absent {i : Instr} {s : State} (unit : i.unit = .dig) (present : s.dig.valid = true) :
    unitPhase i.unit s ≠ .absent := by simp [unit, unitPhase, digPhase, present]

theorem unitPhase_hmac_ne_absent {i : Instr} {s : State} (unit : i.unit = .hmac) (present : s.hm.valid = true) :
    unitPhase i.unit s ≠ .absent := by cases hf : s.hm.fin <;> simp [unit, unitPhase, hmacPhase, present, hf]

theorem unitPhase_kdf_ne_absent {i : Instr} {s : State} (unit : i.unit = .kdf) (present : s.kdf.valid = true) :
    unitPhase i.unit s ≠ .absent := by simp [unit, unitPhase, kdfPhase, present]

/-- Without the warning. -/
theorem statusBeforeReturn_plain {i : Instr} {s : State} (h : i.op = .destroy → unitPhase i.unit s ≠ .absent) :
    statusBeforeReturn i s = s.status := if_neg fun ⟨hop, habsent⟩ => h hop habsent

/-- DESTROY is no CREATE, so a unit that DESTROY finds is present (R40). -/
theorem ne_create_of_destroy {i : Instr} (h : i.op = .destroy) : i.op ≠ .create := by simp [h]

/-- The status-return step of every command (R241), and the statuses that are never returned (R238). -/
theorem exec_status {i : Instr} {s t : State} (h : exec i s = .next t) :
    ∃ r, t.result = some r ∧ t.status = (statusBeforeReturn i s).afterReturn r.st
      ∧ r.st ≠ .invalidKeySize ∧ r.st ≠ .invalidIVSize := by
  cases exec_cases i s with
  | refused st ok _ keySize ivSize answer _ op =>
    rw [← returnStatus_refused st s ok] at answer
    obtain rfl := next_inj (answer.symm.trans h)
    refine ⟨_, rfl, ?_, keySize, ivSize⟩
    rw [statusBeforeReturn_plain fun hop => absurd hop op]
    rfl
  | warned answer op absent =>
    rw [← returnStatus_ok] at answer
    obtain rfl := next_inj (answer.symm.trans h)
    refine ⟨_, rfl, ?_, nofun, nofun⟩
    rw [statusBeforeReturn, if_pos ⟨op, absent⟩]
    rfl
  | onDig _ _ _ unit answer _ _ present =>
    rw [← returnStatus_ok] at answer
    obtain rfl := next_inj (answer.symm.trans h)
    refine ⟨_, rfl, ?_, nofun, nofun⟩
    rw [statusBeforeReturn_plain fun hop => unitPhase_dig_ne_absent unit (present (ne_create_of_destroy hop))]
    rfl
  | onHmac _ _ _ unit answer _ _ present =>
    rw [← returnStatus_ok] at answer
    obtain rfl := next_inj (answer.symm.trans h)
    refine ⟨_, rfl, ?_, nofun, nofun⟩
    rw [statusBeforeReturn_plain fun hop => unitPhase_hmac_ne_absent unit (present (ne_create_of_destroy hop))]
    rfl
  | onKdf st _ _ _ unit answer _ _ present status =>
    obtain rfl := next_inj (answer.symm.trans h)
    refine ⟨_, rfl, ?_, ?_⟩
    · rw [statusBeforeReturn_plain fun hop => unitPhase_kdf_ne_absent unit (present (ne_create_of_destroy hop))]
      rfl
    · obtain rfl | ⟨rfl, -⟩ := status <;> exact ⟨nofun, nofun⟩

/-- `STATUS` holds only codes this block raises, and `ERR` is set while the last command failed (R231, R241). -/
theorem afterReturn_inv {st : StatusCode} (r : Status) (keySize : st ≠ .invalidKeySize) (ivSize : st ≠ .invalidIVSize) :
    (r.afterReturn st).Inv := by
  refine ⟨?_, fun hcode => ?_⟩
  · cases st with
    | invalidKeySize => exact absurd rfl keySize
    | invalidIVSize => exact absurd rfl ivSize
    | ok | error | invalidArgument | invalidAlgorithm | outOfMemory | sourceExhausted =>
      simp [Status.afterReturn, StatusCode.code]
  · have hst : st ≠ .ok := fun hok => hcode ((code_eq_zero st).mpr hok)
    simp [Status.afterReturn, hst]

theorem exec_keeps_statusInv {i : Instr} {s t : State} (h : exec i s = .next t) : t.status.Inv := by
  obtain ⟨r, -, hstatus, keySize, ivSize⟩ := exec_status h
  rw [hstatus]
  exact afterReturn_inv _ keySize ivSize

/-! ### When a context meets its invariant -/

theorem DigestCtx.inv_of_absent {c : DigestCtx} (h : c.valid = false) : c.Inv := fun hv => by simp [h] at hv

theorem HmacCtx.Good.inv {P : Params} {m : HmacCtx} (hm : m.Good P) : m.Inv P :=
  ⟨hm.inner_present.trans hm.present.symm, hm.outer_present.trans hm.present.symm, fun _ => hm⟩

theorem hmacAbsent_inv (P : Params) (m : HmacCtx) : m.absent.Inv P := ⟨rfl, rfl, nofun⟩

theorem KdfCtx.Good.inv {P : Params} {k : KdfCtx} (hk : k.Good P) (hv : k.valid = true) : k.Inv P :=
  ⟨hk.hmac_good.present.trans hv.symm, hk.hmac_good.inner_present.trans hv.symm, hk.hmac_good.outer_present.trans hv.symm,
    fun _ => hk⟩

theorem kdfAbsent_inv (P : Params) (k : KdfCtx) : k.absent.Inv P := ⟨rfl, rfl, rfl, nofun⟩

theorem DigestCtx.Inv.good {c : DigestCtx} (h : c.Inv) (hv : c.valid = true) : c.Good := h hv

theorem HmacCtx.Inv.good {P : Params} {m : HmacCtx} (h : m.Inv P) (hv : m.valid = true) : m.Good P := h.2.2 hv

theorem KdfCtx.Inv.good {P : Params} {k : KdfCtx} (h : k.Inv P) (hv : k.valid = true) : k.Good P := h.2.2.2 hv

/-- The stores hold what check 11 of R239 lets through. -/
theorem fits_of_not_overCapacity {P : Params} {pw salt : Bytes} (h : ¬overCapacity P pw salt = true) :
    pw.length ≤ P.pwCap ∧ salt.length ≤ P.saltCap := by simpa [overCapacity] using h

/-! ### Each unit's commands keep its context good -/

/-- The command answers a next state, and this holds of it. -/
def EndsIn (Q : State → Prop) (o : Outcome) : Prop := ∃ t, o = .next t ∧ Q t

theorem EndsIn.of_next {Q : State → Prop} {o : Outcome} {t : State} (h : EndsIn Q o) (ht : o = .next t) : Q t := by
  obtain ⟨u, hu, hQ⟩ := h
  rwa [next_inj (ht.symm.trans hu)]

theorem endsIn_complete {Q : State → Prop} {st : StatusCode} {out : Bytes} {s : State} (h : Q (returnStatus st out s)) :
    EndsIn Q (complete st out s) := ⟨_, rfl, h⟩

theorem endsIn_raise {Q : State → Prop} {st : StatusCode} {s : State} (h : Q (returnStatus st [] s)) :
    EndsIn Q (raise st s) := ⟨_, rfl, h⟩

/-- The commands of unit DIG (R22 to R24). -/
theorem exec_keeps_digInv {i : Instr} {s : State} (unit : i.unit = .dig) (h : s.dig.Inv) :
    EndsIn (fun t => t.dig.Inv) (exec i s) := by
  cases i with
  | digCreate tag =>
    rw [exec_digCreate, cmdDigCreate]
    split
    · exact endsIn_raise h
    · split
      · exact endsIn_raise h
      · exact endsIn_complete fun _ => initialDigest_good params _
  | digReset =>
    rw [exec_digReset, cmdDigReset]
    split
    · exact endsIn_complete fun _ => digInit_good params _
    · exact endsIn_raise h
  | digUpdate =>
    rw [exec_digUpdate, cmdDigUpdate]
    split
    · next hv => exact endsIn_complete fun _ => digUpdate_good params (h.good hv) _
    · exact endsIn_raise h
  | digFinish =>
    rw [exec_digFinish, cmdDigFinish]
    split
    · next hv => exact endsIn_complete fun _ => digFinish_good params (h.good hv)
    · exact endsIn_raise h
  | digDestroy =>
    rw [exec_digDestroy, cmdDigDestroy]
    split
    · exact endsIn_complete (DigestCtx.inv_of_absent rfl)
    · exact endsIn_complete h
  | _ => exact absurd unit nofun

/-- The commands of unit HMAC (R30 to R33). -/
theorem exec_keeps_hmacInv {i : Instr} {s : State} (unit : i.unit = .hmac) (h : s.hm.Inv params) :
    EndsIn (fun t => t.hm.Inv params) (exec i s) := by
  cases i with
  | hmacCreate tag =>
    rw [exec_hmacCreate, cmdHmacCreate]
    split
    · exact endsIn_raise h
    · split
      · exact endsIn_raise h
      · next a _ _ =>
        refine endsIn_complete ?_
        simp only [returnStatus_hm, hmacInit_keyed]
        exact keyedHmac_inv params a _ (freeBytes_length _ _)
  | hmacReset =>
    rw [exec_hmacReset, cmdHmacReset]
    split
    · next hv => exact endsIn_complete (hmacReset_good params _ (h.good hv).formed).inv
    · exact endsIn_raise h
  | hmacUpdate =>
    rw [exec_hmacUpdate, cmdHmacUpdate]
    split
    · next hv =>
      split
      · exact endsIn_raise h
      · next hf => exact endsIn_complete (hmacUpdate_good params (h.good hv) (by simpa using hf) _).inv
    · exact endsIn_raise h
  | hmacFinish =>
    rw [exec_hmacFinish, cmdHmacFinish]
    split
    · next hv =>
      split
      · exact endsIn_raise h
      · exact endsIn_complete (hmacFinish_good params (h.good hv)).inv
    · exact endsIn_raise h
  | hmacDestroy =>
    rw [exec_hmacDestroy, cmdHmacDestroy]
    split
    · exact endsIn_complete (hmacAbsent_inv params _)
    · exact endsIn_complete h
  | _ => exact absurd unit nofun

/-- The commands of unit KDF (R34 to R38). -/
theorem exec_keeps_kdfInv {i : Instr} {s : State} (unit : i.unit = .kdf) (h : s.kdf.Inv params) :
    EndsIn (fun t => t.kdf.Inv params) (exec i s) := by
  cases i with
  | kdfCreate tag =>
    rw [exec_kdfCreate, cmdKdfCreate]
    split
    · exact endsIn_raise h
    next a _ =>
    split
    · exact endsIn_raise h
    next hn =>
    split
    · exact endsIn_raise h
    split
    · exact endsIn_raise h
    next hcap =>
    obtain ⟨hpw, hsalt⟩ := fits_of_not_overCapacity hcap
    refine endsIn_complete ?_
    simp only [returnStatus_kdf, kdfInit_keyed params _ a _ _ _ _ _ (freeBytes_length _ _)]
    exact keyedKdf_inv params a hpw hsalt hn (freeBytes_length _ _) (freeBytes_length _ _) (freeBytes_length _ _)
  | kdfReset tag =>
    rw [exec_kdfReset, cmdKdfReset]
    split
    · exact endsIn_raise h
    split
    · exact endsIn_raise h
    next hv =>
    split
    · exact endsIn_raise h
    split
    · exact endsIn_raise h
    next hn =>
    split
    · exact endsIn_raise h
    next hcap =>
    obtain ⟨hpw, hsalt⟩ := fits_of_not_overCapacity hcap
    have hv' : s.kdf.valid = true := by simpa using hv
    have hk := h.good hv'
    refine endsIn_complete ?_
    rw [returnStatus_kdf, kdfReset_present params _ _ _ hv' hk.formed]
    refine keyedKdf_inv params s.kdf.alg hpw hsalt hn ?_ hk.blk_size hk.scr_size
    rw [hk.hmac_good.scratch_size, hk.hmac_alg]
  | kdfUpdate =>
    rw [exec_kdfUpdate, cmdKdfUpdate]
    split
    · next hv =>
      have hvalid := (kdfEmit_kept params (opN s).toNat s.kdf).1
      exact endsIn_complete ((kdfEmit_spec params _ (h.good hv)).good.inv (hvalid.trans hv))
    · exact endsIn_raise h
  | kdfFinish =>
    rw [exec_kdfFinish, cmdKdfFinish]
    split
    · exact endsIn_complete h
    · exact endsIn_raise h
  | kdfDestroy =>
    rw [exec_kdfDestroy, cmdKdfDestroy]
    split
    · exact endsIn_complete (kdfAbsent_inv params _)
    · exact endsIn_complete h
  | _ => exact absurd unit nofun

/-! ### Every step keeps the invariant -/

/-- A command keeps the invariant: its own unit by the lemmas above, the other units because it leaves them alone. -/
theorem exec_keepsInv {i : Instr} {s t : State} (hs : s.Inv params) (h : exec i s = .next t) : t.Inv params := by
  have frame := exec_framed h
  refine ⟨?_, ?_, ?_, exec_keeps_statusInv h⟩
  · by_cases unit : i.unit = .dig
    · exact (exec_keeps_digInv unit hs.dig).of_next h
    · exact frame.dig unit ▸ hs.dig
  · by_cases unit : i.unit = .hmac
    · exact (exec_keeps_hmacInv unit hs.hm).of_next h
    · exact frame.hm unit ▸ hs.hm
  · by_cases unit : i.unit = .kdf
    · exact (exec_keeps_kdfInv unit hs.kdf).of_next h
    · exact frame.kdf unit ▸ hs.kdf

theorem illegalStatus_ne_keySize (e : DecodeError) : illegalStatus e ≠ .invalidKeySize := by cases e <;> nofun

theorem illegalStatus_ne_ivSize (e : DecodeError) : illegalStatus e ≠ .invalidIVSize := by cases e <;> nofun

/-- A command word, legal or not: an illegal one changes `STATUS` and the result only (R99). -/
theorem runWord_keepsInv {w : BitVec 32} {s t : State} (hs : s.Inv params) (h : runWord w s = .next t) : t.Inv params := by
  cases hd : decode w with
  | ok i => exact exec_keepsInv hs ((runWord_legal hd s).symm.trans h)
  | error e =>
    obtain rfl := next_inj ((runWord_illegal hd s).symm.trans h)
    exact ⟨hs.dig, hs.hm, hs.kdf, afterReturn_inv _ (illegalStatus_ne_keySize e) (illegalStatus_ne_ivSize e)⟩

theorem status_reset_inv : Status.reset.Inv := ⟨.inl rfl, fun h => absurd rfl h⟩

/-- After hardware reset nothing exists and `STATUS` is 0 (R270). -/
theorem hardwareReset_inv (s : State) : (hardwareReset s).Inv params :=
  ⟨DigestCtx.inv_of_absent rfl, hmacAbsent_inv params _, kdfAbsent_inv params _, status_reset_inv⟩

/-! ### The obligations -/

/-- Settles O13: at reset no unit exists and `STATUS` is 0 (R49). -/
theorem invAtReset : Obligations.InvAtReset :=
  ⟨DigestCtx.inv_of_absent rfl, hmacAbsent_inv params HmacCtx.reset, kdfAbsent_inv params KdfCtx.reset, status_reset_inv⟩

/-- Settles O14, by the host's next event. -/
theorem stepKeepsInv : Obligations.StepKeepsInv := by
  intro s t hs h
  cases hevents : s.events with
  | nil => exact next_inj ((step_no_event hevents).symm.trans h) ▸ hs
  | cons event rest =>
    cases event with
    | command c =>
      have haccepted : (acceptCommand c rest s).Inv params := ⟨hs.dig, hs.hm, hs.kdf, hs.status⟩
      exact runWord_keepsInv haccepted ((step_command hevents).symm.trans h)
    | hardwareReset c => exact next_inj ((step_hardwareReset hevents).symm.trans h) ▸ hardwareReset_inv _
    | overlap a b => simp [step, hevents] at h

end Sys2Proof.Machine
end

section
/-! PROOFS. 10_state.md, what a command reads: two machines that differ only in fields that hold no value (R49, R50) stay so
and return the same, and so do two that differ in the other units (R21); O49 and O59. -/

namespace Sys2Proof.Machine

open Config (Params)

/-! ### Two machines side by side -/

/-- Both commands answer a next state, with the same result, and the states are related by `R`. -/
def Agree (R : State → State → Prop) (o o' : Outcome) : Prop :=
  ∃ t t', o = .next t ∧ o' = .next t' ∧ t.result = t'.result ∧ R t t'

theorem agree_complete {R : State → State → Prop} {st : StatusCode} {out : Bytes} {s s' : State}
    (h : R (returnStatus st out s) (returnStatus st out s')) : Agree R (complete st out s) (complete st out s') :=
  ⟨_, _, rfl, rfl, rfl, h⟩

theorem agree_raise {R : State → State → Prop} {st : StatusCode} {s s' : State}
    (h : R (returnStatus st [] s) (returnStatus st [] s')) : Agree R (raise st s) (raise st s') :=
  ⟨_, _, rfl, rfl, rfl, h⟩

/-! ### Contexts that agree on what a rule may read (R50) -/

theorem DigestCtx.Alike.refl (c : DigestCtx) : c.Alike c := ⟨rfl, fun _ => rfl⟩

theorem DigestCtx.alike_of_absent {c c' : DigestCtx} (h : c.valid = false) (h' : c'.valid = false) : c.Alike c' :=
  ⟨h.trans h'.symm, fun hv => by simp [h] at hv⟩

theorem HmacCtx.Alike.refl (m : HmacCtx) : m.Alike m := ⟨rfl, fun _ => ⟨rfl, fun _ => rfl⟩⟩

theorem HmacCtx.alike_of_absent {m m' : HmacCtx} (h : m.valid = false) (h' : m'.valid = false) : m.Alike m' :=
  ⟨h.trans h'.symm, fun hv => by simp [h] at hv⟩

/-- Before the first `hmac_finish` no rule reads `scratch` (R33). -/
theorem HmacCtx.alike_setScratch {m : HmacCtx} (hf : m.fin = false) (x : Bytes) : m.Alike { m with scratch := x } :=
  ⟨rfl, fun _ => ⟨rfl, fun h => by simp [hf] at h⟩⟩

/-- Present contexts that are alike differ in `scratch` only. -/
theorem HmacCtx.Alike.eq_setScratch {m m' : HmacCtx} (h : m.Alike m') (hv : m.valid = true) :
    ∃ x, m' = { m with scratch := x } := ⟨m'.scratch, (h.2 hv).1.symm⟩

theorem HmacCtx.Alike.alg {m m' : HmacCtx} (h : m.Alike m') (hv : m.valid = true) : m.alg = m'.alg := by
  obtain ⟨x, rfl⟩ := h.eq_setScratch hv
  rfl

theorem HmacCtx.Alike.fin {m m' : HmacCtx} (h : m.Alike m') (hv : m.valid = true) : m.fin = m'.fin := by
  obtain ⟨x, rfl⟩ := h.eq_setScratch hv
  rfl

theorem KdfCtx.Alike.refl (k : KdfCtx) : k.Alike k := ⟨rfl, fun _ => ⟨.refl _, rfl, fun _ => ⟨rfl, rfl⟩⟩⟩

theorem KdfCtx.alike_of_absent {k k' : KdfCtx} (h : k.valid = false) (h' : k'.valid = false) : k.Alike k' :=
  ⟨h.trans h'.symm, fun hv => by simp [h] at hv⟩

/-- Present contexts that are alike differ in the HMAC Context, `blk` and `scr` only. -/
theorem KdfCtx.Alike.eq_setBlock {k k' : KdfCtx} (h : k.Alike k') (hv : k.valid = true) :
    ∃ m b c, k' = { k with hmac := m, blk := b, scr := c } ∧ k.hmac.Alike m
      ∧ (k.idx < k.alg.outSize → k.blk = b ∧ k.scr = c) := by
  obtain ⟨hmac, heq, hblock⟩ := h.2 hv
  exact ⟨_, _, _, heq.symm, hmac, hblock⟩

theorem KdfCtx.Alike.alg {k k' : KdfCtx} (h : k.Alike k') (hv : k.valid = true) : k.alg = k'.alg := by
  obtain ⟨m, b, c, rfl, -, -⟩ := h.eq_setBlock hv
  rfl

/-! ### The internal operations on contexts that are alike -/

theorem keyedHmac_alike (P : Params) (a : Alg) (key x y : Bytes) : (keyedHmac P a key x).Alike (keyedHmac P a key y) :=
  HmacCtx.alike_setScratch rfl y

theorem keyedKdf_alike (P : Params) (a : Alg) (pw salt : Bytes) (iters : BitVec 32) (x y b b' c c' : Bytes) :
    (keyedKdf P a pw salt iters x b c).Alike (keyedKdf P a pw salt iters y b' c') :=
  ⟨rfl, fun _ => ⟨keyedHmac_alike P a pw x y, rfl, fun h => absurd h (lt_irrefl _)⟩⟩

/-- Past the end of the block the context is that of another block, whatever `blk` and `scr` held; within the block the
cursor moves, and a block with bytes left is the same in both (R35). -/
theorem advanced_alike (P : Params) {k k' : KdfCtx} (hv : k.valid = true) (h : k.Alike k') (w : Nat) :
    (k.advanced P w).Alike (k'.advanced P w) := by
  obtain ⟨m, b, c, rfl, hm, hblock⟩ := h.eq_setBlock hv
  by_cases hend : k.idx + w ≤ k.alg.outSize
  · simp only [KdfCtx.advanced, if_pos hend]
    exact ⟨rfl, fun _ => ⟨hm, rfl, fun hlt => hblock (lt_of_le_of_lt (Nat.le_add_right _ _) hlt)⟩⟩
  · simp only [KdfCtx.advanced, if_neg hend]
    exact .refl _

/-! What `kdf_emit` returns is a function of the password, the salt, the iteration count and the position (R196). -/

section Emit

variable {P : Params} {k k' : KdfCtx} (hv : k.valid = true) (hk : k.Good P) (hk' : k'.Good P) (h : k.Alike k') (n : Nat)
include hv hk hk' h

theorem kdfEmit_alike_status : (kdfEmit P n k).1 = (kdfEmit P n k').1 := by
  have e := kdfEmit_spec P n hk
  have e' := kdfEmit_spec P n hk'
  obtain ⟨m, b, c, rfl, -, -⟩ := h.eq_setBlock hv
  exact e.status.trans e'.status.symm

theorem kdfEmit_alike_bytes : (kdfEmit P n k).2.1 = (kdfEmit P n k').2.1 := by
  have e := kdfEmit_spec P n hk
  have e' := kdfEmit_spec P n hk'
  obtain ⟨m, b, c, rfl, -, -⟩ := h.eq_setBlock hv
  exact e.bytes.trans e'.bytes.symm

theorem kdfEmit_alike : (kdfEmit P n k).2.2.Alike (kdfEmit P n k').2.2 := by
  have hadvanced := advanced_alike P hv h (min n (streamLength k.alg - k.position))
  rw [(kdfEmit_spec P n hk).state, (kdfEmit_spec P n hk').state]
  obtain ⟨m, b, c, rfl, -, -⟩ := h.eq_setBlock hv
  exact hadvanced

end Emit

/-! ### The commands of each unit on related machines

What has to hold of a relation `R` on the contexts of a unit for its commands to return the same and keep `R`: the branches of
the commands are gone through once, for "alike" (R50) and for "equal" (R21). -/

/-- Unit DIG: the contexts exist together, and then they are the same. -/
structure DigRelated (R : DigestCtx → DigestCtx → Prop) (s s' : State) : Prop where
  cmd : s.cmd = s'.cmd
  valid : s.dig.valid = s'.dig.valid
  same : s.dig.valid = true → s.dig = s'.dig
  refl : ∀ c, R c c
  kept : R s.dig s'.dig
  dropped : R (dropDig s).dig (dropDig s').dig

theorem exec_digRelated {R : DigestCtx → DigestCtx → Prop} {i : Instr} {s s' : State} (unit : i.unit = .dig)
    (h : DigRelated R s s') : Agree (fun t t' => R t.dig t'.dig) (exec i s) (exec i s') := by
  cases i with
  | digCreate tag =>
    simp only [exec_digCreate, cmdDigCreate, ← h.valid]
    split
    · exact agree_raise h.kept
    · split
      · exact agree_raise h.kept
      · exact agree_complete (h.refl _)
  | digReset =>
    simp only [exec_digReset, cmdDigReset, ← h.valid]
    split
    · next hv => rw [h.same hv]; exact agree_complete (h.refl _)
    · exact agree_raise h.kept
  | digUpdate =>
    simp only [exec_digUpdate, cmdDigUpdate, ← h.valid, opA, h.cmd]
    split
    · next hv => rw [h.same hv]; exact agree_complete (h.refl _)
    · exact agree_raise h.kept
  | digFinish =>
    simp only [exec_digFinish, cmdDigFinish, ← h.valid]
    split
    · next hv => rw [h.same hv]; exact agree_complete (h.refl _)
    · exact agree_raise h.kept
  | digDestroy =>
    simp only [exec_digDestroy, cmdDigDestroy, ← h.valid]
    split
    · exact agree_complete h.dropped
    · exact agree_complete h.kept
  | _ => exact absurd unit nofun

/-- Unit HMAC: the contexts exist together, in the same phase, and each operation of the unit keeps the relation. -/
structure HmacRelated (R : HmacCtx → HmacCtx → Prop) (s s' : State) : Prop where
  cmd : s.cmd = s'.cmd
  valid : s.hm.valid = s'.hm.valid
  fin : s.hm.valid = true → s.hm.fin = s'.hm.fin
  kept : R s.hm s'.hm
  created : ∀ a key, R (keyedHmac params a key (freeBytes s.freeCount a.outSize))
    (keyedHmac params a key (freeBytes s'.freeCount a.outSize))
  reset : s.hm.valid = true → ∀ key, R (hmacReset params s.hm key) (hmacReset params s'.hm key)
  updated : s.hm.valid = true → s.hm.fin = false → ∀ data, R (hmacUpdate params s.hm data) (hmacUpdate params s'.hm data)
  output : s.hm.valid = true → (hmacFinish params s.hm).1 = (hmacFinish params s'.hm).1
  finished : s.hm.valid = true → R (hmacFinish params s.hm).2 (hmacFinish params s'.hm).2
  dropped : R (dropHmac s).hm (dropHmac s').hm

theorem exec_hmacRelated {R : HmacCtx → HmacCtx → Prop} {i : Instr} {s s' : State} (unit : i.unit = .hmac)
    (h : HmacRelated R s s') : Agree (fun t t' => R t.hm t'.hm) (exec i s) (exec i s') := by
  cases i with
  | hmacCreate tag =>
    simp only [exec_hmacCreate, cmdHmacCreate, ← h.valid, opA, h.cmd, hmacInit_keyed]
    split
    · exact agree_raise h.kept
    · split
      · exact agree_raise h.kept
      · exact agree_complete (h.created _ _)
  | hmacReset =>
    simp only [exec_hmacReset, cmdHmacReset, ← h.valid, opA, h.cmd]
    split
    · next hv => exact agree_complete (h.reset hv _)
    · exact agree_raise h.kept
  | hmacUpdate =>
    simp only [exec_hmacUpdate, cmdHmacUpdate, ← h.valid, opA, h.cmd]
    split
    · next hv =>
      rw [← h.fin hv]
      split
      · exact agree_raise h.kept
      · next hf => exact agree_complete (h.updated hv (by simpa using hf) _)
    · exact agree_raise h.kept
  | hmacFinish =>
    simp only [exec_hmacFinish, cmdHmacFinish, ← h.valid]
    split
    · next hv =>
      rw [← h.fin hv]
      split
      · exact agree_raise h.kept
      · rw [h.output hv]; exact agree_complete (h.finished hv)
    · exact agree_raise h.kept
  | hmacDestroy =>
    simp only [exec_hmacDestroy, cmdHmacDestroy, ← h.valid]
    split
    · exact agree_complete h.dropped
    · exact agree_complete h.kept
  | _ => exact absurd unit nofun

/-- Unit KDF: the contexts exist together, for one algorithm, and each operation of the unit keeps the relation. -/
structure KdfRelated (R : KdfCtx → KdfCtx → Prop) (s s' : State) : Prop where
  cmd : s.cmd = s'.cmd
  valid : s.kdf.valid = s'.kdf.valid
  alg : s.kdf.valid = true → s.kdf.alg = s'.kdf.alg
  kept : R s.kdf s'.kdf
  created : ∀ a pw salt iters,
    R (keyedKdf params a pw salt iters (freeBytes s.freeCount a.outSize) (freeBytes (s.freeCount + 1) a.outSize)
        (freeBytes (s.freeCount + 2) a.outSize))
      (keyedKdf params a pw salt iters (freeBytes s'.freeCount a.outSize) (freeBytes (s'.freeCount + 1) a.outSize)
        (freeBytes (s'.freeCount + 2) a.outSize))
  reset : s.kdf.valid = true → ∀ pw salt iters,
    R (kdfReset params s.kdf pw salt iters) (kdfReset params s'.kdf pw salt iters)
  status : s.kdf.valid = true → ∀ n, (kdfEmit params n s.kdf).1 = (kdfEmit params n s'.kdf).1
  output : s.kdf.valid = true → ∀ n, (kdfEmit params n s.kdf).2.1 = (kdfEmit params n s'.kdf).2.1
  emitted : s.kdf.valid = true → ∀ n, R (kdfEmit params n s.kdf).2.2 (kdfEmit params n s'.kdf).2.2
  dropped : R (dropKdf s).kdf (dropKdf s').kdf

theorem exec_kdfRelated {R : KdfCtx → KdfCtx → Prop} {i : Instr} {s s' : State} (unit : i.unit = .kdf)
    (h : KdfRelated R s s') : Agree (fun t t' => R t.kdf t'.kdf) (exec i s) (exec i s') := by
  cases i with
  | kdfCreate tag =>
    simp only [exec_kdfCreate, cmdKdfCreate, ← h.valid, opA, opB, opN, h.cmd,
      kdfInit_keyed params _ _ _ _ _ _ _ (freeBytes_length _ _)]
    split
    · exact agree_raise h.kept
    split
    · exact agree_raise h.kept
    split
    · exact agree_raise h.kept
    split
    · exact agree_raise h.kept
    · exact agree_complete (h.created _ _ _ _)
  | kdfReset tag =>
    simp only [exec_kdfReset, cmdKdfReset, ← h.valid, opA, opB, opN, h.cmd]
    split
    · exact agree_raise h.kept
    split
    · exact agree_raise h.kept
    next hv =>
    have hvalid : s.kdf.valid = true := by simpa using hv
    rw [← h.alg hvalid]
    split
    · exact agree_raise h.kept
    split
    · exact agree_raise h.kept
    split
    · exact agree_raise h.kept
    · exact agree_complete (h.reset hvalid _ _ _)
  | kdfUpdate =>
    simp only [exec_kdfUpdate, cmdKdfUpdate, ← h.valid, opN, h.cmd]
    split
    · next hv => rw [h.status hv, h.output hv]; exact agree_complete (h.emitted hv _)
    · exact agree_raise h.kept
  | kdfFinish =>
    simp only [exec_kdfFinish, cmdKdfFinish, ← h.valid]
    split
    · exact agree_complete h.kept
    · exact agree_raise h.kept
  | kdfDestroy =>
    simp only [exec_kdfDestroy, cmdKdfDestroy, ← h.valid]
    split
    · exact agree_complete h.dropped
    · exact agree_complete h.kept
  | _ => exact absurd unit nofun

/-! ### Machines that are alike (R50) -/

/-- An absent Digest Context is not read, and present ones are the same. -/
theorem digRelated_of_alike {s s' : State} (h : s.Alike s') : DigRelated DigestCtx.Alike s s' :=
  { cmd := h.cmd
    valid := h.dig.1
    same := h.dig.2
    refl := .refl
    kept := h.dig
    dropped := DigestCtx.alike_of_absent rfl rfl }

/-- No operation of HMAC reads `scratch` before it writes it. -/
theorem hmacRelated_of_alike {s s' : State} (hs : s.Inv params) (hs' : s'.Inv params) (h : s.Alike s') :
    HmacRelated HmacCtx.Alike s s' :=
  { cmd := h.cmd
    valid := h.hm.1
    fin := h.hm.fin
    kept := h.hm
    created := fun a key => keyedHmac_alike params a key _ _
    reset := fun hv key => by
      have hv' := h.hm.1.symm.trans hv
      rw [hmacReset_keyed params key (hs.hm.good hv).formed, hmacReset_keyed params key (hs'.hm.good hv').formed, h.hm.alg hv]
      exact keyedHmac_alike params _ key _ _
    updated := fun hv hf data => by
      obtain ⟨x, hx⟩ := h.hm.eq_setScratch hv
      rw [hx]
      exact HmacCtx.alike_setScratch (m := hmacUpdate params s.hm data) hf x
    output := fun hv => by
      obtain ⟨x, hx⟩ := h.hm.eq_setScratch hv
      rw [hx]
      rfl
    finished := fun hv => by
      obtain ⟨x, hx⟩ := h.hm.eq_setScratch hv
      rw [hx]
      exact .refl (hmacFinish params s.hm).2
    dropped := HmacCtx.alike_of_absent rfl rfl }

/-- No operation of KDF reads `blk` or `scr` before it writes them, while no byte of the block is left. -/
theorem kdfRelated_of_alike {s s' : State} (hs : s.Inv params) (hs' : s'.Inv params) (h : s.Alike s') :
    KdfRelated KdfCtx.Alike s s' := by
  have present' (hv : s.kdf.valid = true) : s'.kdf.valid = true := h.kdf.1.symm.trans hv
  have good' (hv : s.kdf.valid = true) : s'.kdf.Good params := hs'.kdf.good (present' hv)
  exact
    { cmd := h.cmd
      valid := h.kdf.1
      alg := h.kdf.alg
      kept := h.kdf
      created := fun a pw salt iters => keyedKdf_alike params a pw salt iters _ _ _ _ _ _
      reset := fun hv pw salt iters => by
        rw [kdfReset_present params pw salt iters hv (hs.kdf.good hv).formed,
          kdfReset_present params pw salt iters (present' hv) (good' hv).formed, h.kdf.alg hv]
        exact keyedKdf_alike params _ pw salt iters _ _ _ _ _ _
      status := fun hv => kdfEmit_alike_status hv (hs.kdf.good hv) (good' hv) h.kdf
      output := fun hv => kdfEmit_alike_bytes hv (hs.kdf.good hv) (good' hv) h.kdf
      emitted := fun hv => kdfEmit_alike hv (hs.kdf.good hv) (good' hv) h.kdf
      dropped := KdfCtx.alike_of_absent rfl rfl }

theorem unitPhase_alike {s s' : State} (h : s.Alike s') (u : UnitTag) : unitPhase u s = unitPhase u s' := by
  cases u with
  | dig => simp only [unitPhase, digPhase, h.dig.1]
  | kdf => simp only [unitPhase, kdfPhase, h.kdf.1]
  | hmac =>
    simp only [unitPhase, hmacPhase, ← h.hm.1]
    split
    · next hv => rw [h.hm.fin hv]
    · rfl

/-- Commands that return the same find the same `STATUS` and leave the same. -/
theorem exec_status_alike {i : Instr} {s s' t t' : State} (h : s.Alike s') (ht : exec i s = .next t)
    (ht' : exec i s' = .next t') (hresult : t.result = t'.result) : t.status = t'.status := by
  obtain ⟨r, hr, hstatus, -⟩ := exec_status ht
  obtain ⟨r', hr', hstatus', -⟩ := exec_status ht'
  obtain rfl : r = r' := by simpa [hr, hr'] using hresult
  rw [hstatus, hstatus', statusBeforeReturn, statusBeforeReturn, h.status, unitPhase_alike h]

/-- The states after one command are alike when the contexts of its unit are: the rest it leaves alone. -/
theorem alike_of_framed {i : Instr} {s s' t t' : State} (h : s.Alike s') (ht : exec i s = .next t)
    (ht' : exec i s' = .next t') (hresult : t.result = t'.result) (hdig : i.unit = .dig → t.dig.Alike t'.dig)
    (hhm : i.unit = .hmac → t.hm.Alike t'.hm) (hkdf : i.unit = .kdf → t.kdf.Alike t'.kdf) : t.Alike t' := by
  have frame := exec_framed ht
  have frame' := exec_framed ht'
  refine ⟨?_, ?_, ?_, exec_status_alike h ht ht' hresult, ?_⟩
  · by_cases unit : i.unit = .dig
    · exact hdig unit
    · rw [frame.dig unit, frame'.dig unit]; exact h.dig
  · by_cases unit : i.unit = .hmac
    · exact hhm unit
    · rw [frame.hm unit, frame'.hm unit]; exact h.hm
  · by_cases unit : i.unit = .kdf
    · exact hkdf unit
    · rw [frame.kdf unit, frame'.kdf unit]; exact h.kdf
  · rw [frame.cmd, frame'.cmd, h.cmd]

/-- Every command, by its unit. -/
theorem exec_alike {s s' : State} (hs : s.Inv params) (hs' : s'.Inv params) (h : s.Alike s') (i : Instr) :
    Agree State.Alike (exec i s) (exec i s') := by
  cases unit : i.unit with
  | dig =>
    obtain ⟨t, t', ht, ht', hresult, hdig⟩ := exec_digRelated unit (digRelated_of_alike h)
    exact ⟨t, t', ht, ht', hresult, alike_of_framed h ht ht' hresult (fun _ => hdig) (by simp [unit]) (by simp [unit])⟩
  | hmac =>
    obtain ⟨t, t', ht, ht', hresult, hhm⟩ := exec_hmacRelated unit (hmacRelated_of_alike hs hs' h)
    exact ⟨t, t', ht, ht', hresult, alike_of_framed h ht ht' hresult (by simp [unit]) (fun _ => hhm) (by simp [unit])⟩
  | kdf =>
    obtain ⟨t, t', ht, ht', hresult, hkdf⟩ := exec_kdfRelated unit (kdfRelated_of_alike hs hs' h)
    exact ⟨t, t', ht, ht', hresult, alike_of_framed h ht ht' hresult (by simp [unit]) (by simp [unit]) (fun _ => hkdf)⟩

/-- An illegal word reads nothing (R99). -/
theorem illegalCommand_alike {s s' : State} (h : s.Alike s') (e : DecodeError) :
    Agree State.Alike (illegalCommand e s) (illegalCommand e s') :=
  agree_raise ⟨h.dig, h.hm, h.kdf, congrArg (Status.afterReturn _) h.status, h.cmd⟩

theorem runWord_alike {s s' : State} (hs : s.Inv params) (hs' : s'.Inv params) (h : s.Alike s') (w : BitVec 32) :
    Agree State.Alike (runWord w s) (runWord w s') := by
  cases hd : decode w with
  | ok i => simpa only [runWord_legal hd] using exec_alike hs hs' h i
  | error e => simpa only [runWord, hd] using illegalCommand_alike h e

/-! ### Machines that differ in the other units (R21)

Besides its own context a unit's commands read the operands and the count of free values. -/

section OtherUnits

variable {s s' : State} (hcmd : s.cmd = s'.cmd) (hcount : s.freeCount = s'.freeCount)
include hcmd hcount

theorem digRelated_of_eq (hdig : s.dig = s'.dig) : DigRelated Eq s s' :=
  { cmd := hcmd
    valid := by rw [hdig]
    same := fun _ => hdig
    refl := fun _ => rfl
    kept := hdig
    dropped := by simp only [dropDig, hcount] }

theorem hmacRelated_of_eq (hhm : s.hm = s'.hm) : HmacRelated Eq s s' :=
  { cmd := hcmd
    valid := by rw [hhm]
    fin := fun _ => by rw [hhm]
    kept := hhm
    created := fun _ _ => by rw [hcount]
    reset := fun _ _ => by rw [hhm]
    updated := fun _ _ _ => by rw [hhm]
    output := fun _ => by rw [hhm]
    finished := fun _ => by rw [hhm]
    dropped := by simp only [dropHmac, hcount] }

theorem kdfRelated_of_eq (hkdf : s.kdf = s'.kdf) : KdfRelated Eq s s' :=
  { cmd := hcmd
    valid := by rw [hkdf]
    alg := fun _ => by rw [hkdf]
    kept := hkdf
    created := fun _ _ _ _ => by rw [hcount]
    reset := fun _ _ _ _ => by rw [hkdf]
    status := fun _ _ => by rw [hkdf]
    output := fun _ _ => by rw [hkdf]
    emitted := fun _ _ => by rw [hkdf]
    dropped := by simp only [dropKdf, hcount] }

end OtherUnits

/-- Two commands that agree have these two next states. -/
theorem Agree.of_next {R : State → State → Prop} {o o' : Outcome} {t t' : State} (h : Agree R o o') (ht : o = .next t)
    (ht' : o' = .next t') : R t t' ∧ t.result = t'.result := by
  obtain ⟨u, u', hu, hu', hresult, hR⟩ := h
  obtain rfl := next_inj (hu.symm.trans ht)
  obtain rfl := next_inj (hu'.symm.trans ht')
  exact ⟨hR, hresult⟩

/-! ### The obligations -/

/-- Settles O59, by the word: legal or not. -/
theorem unwrittenFieldsUnobservable : Obligations.UnwrittenFieldsUnobservable :=
  fun w _ _ hs hs' h => runWord_alike hs hs' h w

/-- Settles O49: the frame of every command, and what the commands of each unit read. -/
theorem unitIsolation : Obligations.UnitIsolation := by
  intro i s s'
  obtain ⟨t, ht⟩ := exec_answers i s
  obtain ⟨t', ht'⟩ := exec_answers i s'
  have frame := exec_framed ht
  refine ⟨t, t', ht, ht', frame.events, frame.cmd, frame.dig, frame.hm, frame.kdf, fun hcmd hcount => ⟨?_, ?_, ?_⟩⟩
  · exact fun unit hdig => (exec_digRelated unit (digRelated_of_eq hcmd hcount hdig)).of_next ht ht'
  · exact fun unit hhm => (exec_hmacRelated unit (hmacRelated_of_eq hcmd hcount hhm)).of_next ht ht'
  · exact fun unit hkdf => (exec_kdfRelated unit (kdfRelated_of_eq hcmd hcount hkdf)).of_next ht ht'

end Sys2Proof.Machine
end

section
/-! PROOFS. 10_state.md, the lifecycle (R40), the algorithm of a unit (R22, R279), reset (R49) and the two views the host
reads (R41, R44); O50, O51, O11, O54 and O55. -/

namespace Sys2Proof.Machine

/-! ### The lifecycle (R40) -/

/-- The rows of the table for a unit that is never `finished`, from its `valid` bit before and after. -/
theorem lifecycle_of_valid {u : UnitTag} {o : OpTag} {before after : Bool} (unit : u ≠ .hmac)
    (create : o = .create → before = false) (present : o ≠ .create → before = true)
    (leads : after = true ∧ o ≠ .destroy ∨ after = false ∧ o = .destroy) :
    lifecycle u (if before then .ready else .absent) o = some (if after then .ready else .absent) := by
  obtain ⟨rfl, hop⟩ | ⟨rfl, rfl⟩ := leads
  · cases o with
    | create => rw [create rfl]; rfl
    | reset | update => rw [present nofun]; rfl
    | finish =>
      rw [present nofun]
      cases u with
      | hmac => exact absurd rfl unit
      | dig | kdf => rfl
    | destroy => exact absurd rfl hop
  · rw [present nofun]
    rfl

/-- The rows of the table for unit HMAC, from its `valid` and `fin` bits before and after. -/
theorem lifecycle_hmac {o : OpTag} {before fin after fin' : Bool} (create : o = .create → before = false)
    (present : o ≠ .create → before = true) (ready : o = .finish ∨ o = .update → fin = false)
    (leads : after = true ∧ o ≠ .destroy ∨ after = false ∧ o = .destroy)
    (finished : after = true → (fin' = true ↔ o = .finish)) :
    lifecycle .hmac (if before then (if fin then .finished else .ready) else .absent) o
      = some (if after then (if fin' then .finished else .ready) else .absent) := by
  obtain ⟨rfl, hop⟩ | ⟨rfl, rfl⟩ := leads
  · have hfin : fin' = decide (o = .finish) := Bool.eq_iff_iff.mpr (by simpa using finished rfl)
    cases o with
    | create => rw [create rfl, hfin]; rfl
    | reset => rw [present nofun, hfin]; cases fin <;> rfl
    | update => rw [present nofun, ready (.inr rfl), hfin]; rfl
    | finish => rw [present nofun, ready (.inl rfl), hfin]; rfl
    | destroy => exact absurd rfl hop
  · rw [present nofun]
    cases fin <;> rfl

/-- DESTROY of an absent unit leaves it absent. -/
theorem lifecycle_destroy_absent (u : UnitTag) : lifecycle u .absent .destroy = some .absent := by cases u <;> rfl

/-- Settles O50, by the ways a command ends (`Answer`). -/
theorem lifecyclePhases : Obligations.LifecyclePhases := by
  intro i s
  cases exec_cases i s with
  | refused st ok _ _ _ answer =>
    exact ⟨_, _, answer, rfl, fun hok => absurd hok ok, fun _ => by cases i.unit <;> rfl⟩
  | warned answer op absent =>
    refine ⟨_, _, answer, rfl, fun _ => ?_, fun hok => absurd rfl hok⟩
    have kept : unitPhase i.unit (okWith [] { s with status := { s.status with warn := true } }) = unitPhase i.unit s := by
      cases i.unit <;> rfl
    rw [kept, absent, op, lifecycle_destroy_absent]
  | onDig out d n unit answer after create present =>
    refine ⟨_, _, answer, rfl, fun _ => ?_, fun hok => absurd rfl hok⟩
    rw [unit]
    exact lifecycle_of_valid nofun create present (after.imp_right fun ⟨hv, hop, _⟩ => ⟨hv, hop⟩)
  | onHmac out d n unit answer after create present ready fin =>
    refine ⟨_, _, answer, rfl, fun _ => ?_, fun hok => absurd rfl hok⟩
    rw [unit]
    exact lifecycle_hmac create present ready (after.imp_right fun ⟨hv, hop, _⟩ => ⟨hv, hop⟩) fin
  | onKdf st out d n unit answer after create present status =>
    refine ⟨_, _, answer, rfl, fun _ => ?_, fun failed => ?_⟩
    · rw [unit]
      exact lifecycle_of_valid nofun create present (after.imp_right fun ⟨hv, hop, _⟩ => ⟨hv, hop⟩)
    · obtain rfl | ⟨-, rfl⟩ := status
      · exact absurd rfl failed
      · obtain ⟨hv, -⟩ | ⟨-, hop, -⟩ := after
        · simp [Instr.unit, unitPhase, kdfPhase, hv, present nofun]
        · cases hop

/-! ### The algorithm of a unit (R22, R279) -/

/-- Settles O51: a command that keeps a unit present keeps its algorithm, and the other units are not written. -/
theorem algorithmFixedWhilePresent : Obligations.AlgorithmFixedWhilePresent := by
  intro i s t h
  cases exec_cases i s with
  | refused _ _ _ _ _ answer | warned answer =>
    obtain rfl := next_inj (answer.symm.trans h)
    exact ⟨fun _ _ => rfl, fun _ _ => rfl, fun _ _ => rfl⟩
  | onDig _ _ _ _ answer _ _ _ alg =>
    obtain rfl := next_inj (answer.symm.trans h)
    exact ⟨alg, fun _ _ => rfl, fun _ _ => rfl⟩
  | onHmac _ _ _ _ answer _ _ _ _ _ alg =>
    obtain rfl := next_inj (answer.symm.trans h)
    exact ⟨fun _ _ => rfl, alg, fun _ _ => rfl⟩
  | onKdf _ _ _ _ _ answer _ _ _ _ alg =>
    obtain rfl := next_inj (answer.symm.trans h)
    exact ⟨fun _ _ => rfl, fun _ _ => rfl, alg⟩

/-! ### Reset and the views (R41, R44, R49) -/

/-- Settles O11: the values of `State.reset`, field by field. -/
theorem resetValues : Obligations.ResetValues :=
  ⟨rfl, rfl, rfl, rfl, rfl, rfl, rfl, rfl, rfl, rfl⟩

/-- Settles O54: the sixteen codes and the two sticky bits. -/
theorem statusLayout : Obligations.StatusLayout := by
  have layout : ∀ (code : BitVec 4) (warn err : Bool),
      let w := ({ code := code, warn := warn, err := err } : Status).word
      w.extractLsb' 0 4 = code ∧ w.getLsbD 4 = warn ∧ w.getLsbD 5 = err ∧ w.extractLsb' 6 26 = 0 := by decide
  exact fun r => layout r.code r.warn r.err

/-- Settles O55: the view is a function of four bits. -/
theorem phaseView : Obligations.PhaseView := by
  intro s
  have view : ∀ dig hm fin kdf : Bool,
      let p := BitVec.ofNat 4 ((if dig then 1 else 0) + (if hm then 2 else 0) + (if hm && fin then 4 else 0)
        + (if kdf then 8 else 0))
      p.getLsbD 0 = dig ∧ p.getLsbD 1 = hm ∧ p.getLsbD 2 = (hm && fin) ∧ p.getLsbD 3 = kdf := by decide
  exact view s.dig.valid s.hm.valid s.hm.fin s.kdf.valid

end Sys2Proof.Machine
end

section
/-! PROOFS. 20_memory.md: the length field word by word (R65) and the digest as whole words (R66); O22 and O23. -/

namespace Sys2Proof.Machine

/-! ### The length field (R65) -/

/-- The little-endian bytes of a number of two parts: the low part's bytes, then the high part's. -/
theorem le_add (k m x y : Nat) (hy : y < 256 ^ k) : le (k + m) (x * 256 ^ k + y) = le k y ++ le m x := by
  induction k generalizing y with
  | zero =>
    obtain rfl : y = 0 := by simpa using hy
    simp [le]
  | succ k ih =>
    have hv : x * 256 ^ (k + 1) + y = 256 * (x * 256 ^ k) + y := by ring
    have lowByte : BitVec.ofNat 8 (256 * (x * 256 ^ k) + y) = BitVec.ofNat 8 y :=
      BitVec.eq_of_toNat_eq (by simp [Nat.add_mod])
    have rest : (256 * (x * 256 ^ k) + y) / 256 = x * 256 ^ k + y / 256 := Nat.mul_add_div (by decide) _ _
    have hy' : y / 256 < 256 ^ k := Nat.div_lt_of_lt_mul (by rwa [← pow_succ'])
    simp only [Nat.succ_add, le, hv, lowByte, rest, ih _ hy', List.cons_append]

/-- The big-endian bytes of a number of two parts: the high part's bytes, then the low part's. -/
theorem be_add (k m x y : Nat) (hy : y < 256 ^ k) : be (k + m) (x * 256 ^ k + y) = be m x ++ be k y := by
  simp only [be, le_add k m x y hy, List.reverse_append]

/-- A word of the bit counter has the bits of half the length field (R13). -/
theorem ctrModulus_of_lenFieldSize {a : Alg} {k : Nat} (size : a.lenFieldSize = k + k) : a.ctrModulus = 256 ^ k := by
  have bits : a.ctrBits = 8 * k := by rw [Alg.ctrBits, size]; omega
  rw [Alg.ctrModulus, bits, pow_mul]
  rfl

theorem lenfield_little {c : DigestCtx} {k : Nat} (order : c.alg.byteOrder = .little) (size : c.alg.lenFieldSize = k + k)
    (hlo : c.lo.toNat < c.alg.ctrModulus) : lenfield c = le k c.lo.toNat ++ le k c.hi.toNat := by
  rw [ctrModulus_of_lenFieldSize size] at hlo
  simp only [lenfield, DigestCtx.total, enc, order, size, ctrModulus_of_lenFieldSize size, le_add _ _ _ _ hlo]

theorem lenfield_big {c : DigestCtx} {k : Nat} (order : c.alg.byteOrder = .big) (size : c.alg.lenFieldSize = k + k)
    (hlo : c.lo.toNat < c.alg.ctrModulus) : lenfield c = be k c.hi.toNat ++ be k c.lo.toNat := by
  rw [ctrModulus_of_lenFieldSize size] at hlo
  simp only [lenfield, DigestCtx.total, enc, order, size, ctrModulus_of_lenFieldSize size, be_add _ _ _ _ hlo]

/-- Settles O22: the field is the encoding of the counter pair, which splits at the width of a counter word. -/
theorem lengthFieldLayout : Obligations.LengthFieldLayout := by
  intro c hlo _
  refine ⟨rfl, fun h => ?_, ?_, ?_⟩
  · exact lenfield_little (by rw [h]; rfl) (by rw [h]; rfl) hlo
  · rintro (h | h | h) <;> exact lenfield_big (by rw [h]; rfl) (by rw [h]; rfl) hlo
  · rintro (h | h) <;> exact lenfield_big (by rw [h]; rfl) (by rw [h]; rfl) hlo

/-! ### The digest (R66) -/

/-- A cut of the encoded words at a word's end is the encoding of the words before it. -/
theorem take_flatten_enc (o : ByteOrder) (n k : Nat) (h : List Word) (hk : k ≤ h.length) :
    (h.map fun w => enc o n w.toNat).flatten.take (k * n) = ((h.take k).map fun w => enc o n w.toNat).flatten := by
  have front : ((h.take k).map fun w => enc o n w.toNat).flatten.length = k * n := by
    rw [flatten_enc_length, List.length_take_of_le hk]
  conv_lhs => rw [← List.take_append_drop k h, List.map_append, List.flatten_append]
  exact List.take_left' front

theorem wordBytes_dvd_outSize (a : Alg) : a.wordBytes ∣ a.outSize := by cases a <;> decide

theorem outWords_le_stateWords (a : Alg) : a.outSize / a.wordBytes ≤ a.stateWords :=
  Nat.div_le_of_le_mul (by rw [Nat.mul_comm]; exact a.outSize_le_state)

/-- Settles O23: the output size is a whole number of words, no more than the state has. -/
theorem digestIsWholeWords : Obligations.DigestIsWholeWords := by
  intro a h hlen
  have within : a.outSize / a.wordBytes ≤ h.length := hlen ▸ outWords_le_stateWords a
  rw [serializeWords, ← take_flatten_enc _ _ _ h within, Nat.div_mul_cancel (wordBytes_dvd_outSize a)]

end Sys2Proof.Machine
end

section
/-! PROOFS. 30_encoding.md, the command word: the fields of R91 as numbers, the decoder's checks (R99) one equation each, and
which words decode to which instruction; then O1 to O5. -/

namespace Sys2Proof

/-! ### The fields of a word (R91) -/

theorem unitField_eq (w : BitVec 32) : unitField w = w.toNat / 2 ^ 28 := by
  have := w.isLt
  rw [unitField, BitVec.extractLsb'_toNat, Nat.shiftRight_eq_div_pow]
  omega

theorem opField_eq (w : BitVec 32) : opField w = w.toNat / 2 ^ 24 % 16 := by
  rw [opField, BitVec.extractLsb'_toNat, Nat.shiftRight_eq_div_pow]

theorem algField_toNat (w : BitVec 32) : (algField w).toNat = w.toNat / 2 ^ 16 % 256 := by
  rw [algField, BitVec.extractLsb'_toNat, Nat.shiftRight_eq_div_pow]

theorem zeroField_toNat (w : BitVec 32) : (zeroField w).toNat = w.toNat % 2 ^ 16 := by
  rw [zeroField, BitVec.extractLsb'_toNat, Nat.shiftRight_zero]

theorem zeroField_eq_zero {w : BitVec 32} : zeroField w = 0 ↔ w.toNat % 2 ^ 16 = 0 := by
  rw [← zeroField_toNat, ← BitVec.toNat_inj]
  rfl

/-- The four fields make up the word. -/
theorem word_eq_iff {v w : BitVec 32} :
    v = w ↔ unitField v = unitField w ∧ opField v = opField w ∧ algField v = algField w ∧ zeroField v = zeroField w := by
  refine ⟨by rintro rfl; exact ⟨rfl, rfl, rfl, rfl⟩, ?_⟩
  rintro ⟨hunit, hop, halg, hzero⟩
  have halg := congrArg BitVec.toNat halg
  have hzero := congrArg BitVec.toNat hzero
  simp only [unitField_eq, opField_eq, algField_toNat, zeroField_toNat] at hunit hop halg hzero
  exact BitVec.eq_of_toNat_eq (by omega)

/-! ### The code tables (R92 to R95) -/

theorem UnitTag.code_lt (u : UnitTag) : u.code < 3 := by cases u <;> decide
theorem OpTag.code_lt (o : OpTag) : o.code < 5 := by cases o <;> decide

/-- The code names the unit and no other (R92). -/
theorem UnitTag.ofCode_eq_some {n : Nat} {u : UnitTag} : UnitTag.ofCode n = some u ↔ n = u.code := by
  constructor
  · unfold UnitTag.ofCode
    split <;> rintro ⟨⟩ <;> rfl
  · rintro rfl
    cases u <;> rfl

theorem OpTag.ofCode_eq_some {n : Nat} {o : OpTag} : OpTag.ofCode n = some o ↔ n = o.code := by
  constructor
  · unfold OpTag.ofCode
    split <;> rintro ⟨⟩ <;> rfl
  · rintro rfl
    cases o <;> rfl

theorem UnitTag.ofCode_eq_none {n : Nat} : UnitTag.ofCode n = none ↔ 3 ≤ n := by
  match n with
  | 0 | 1 | 2 => decide
  | n + 3 => exact ⟨fun _ => Nat.le_add_left 3 n, fun _ => rfl⟩

theorem OpTag.ofCode_eq_none {n : Nat} : OpTag.ofCode n = none ↔ 5 ≤ n := by
  match n with
  | 0 | 1 | 2 | 3 | 4 => decide
  | n + 5 => exact ⟨fun _ => Nat.le_add_left 5 n, fun _ => rfl⟩

/-- Codes that are not reserved name a unit and a call. -/
theorem exists_of_codes_lt {n m : Nat} (hn : n < 3) (hm : m < 5) : ∃ (u : UnitTag) (o : OpTag), n = u.code ∧ m = o.code := by
  obtain ⟨u, hu⟩ := Option.ne_none_iff_exists'.mp (mt UnitTag.ofCode_eq_none.mp (Nat.not_le.mpr hn))
  obtain ⟨o, ho⟩ := Option.ne_none_iff_exists'.mp (mt OpTag.ofCode_eq_none.mp (Nat.not_le.mpr hm))
  exact ⟨u, o, UnitTag.ofCode_eq_some.mp hu, OpTag.ofCode_eq_some.mp ho⟩

/-- Rule R95 by the codes. -/
theorem usesAlg_iff (u : UnitTag) (o : OpTag) : usesAlg u o = true ↔ o.code = 0 ∨ (u.code = 2 ∧ o.code = 1) := by
  cases u <;> cases o <;> decide

theorem tagInRange_eq_false {tag : BitVec 8} : tagInRange tag = false ↔ 6 ≤ tag.toNat := by simp [tagInRange]

theorem tagInRange_tag (a : Alg) : tagInRange a.tag = true := by
  rw [← Alg.ofTag_isSome, Alg.ofTag_tag, Option.isSome_some]

/-! ### The decoder's checks, in order (R99) -/

theorem decode_reservedUnit {w : BitVec 32} (h : 3 ≤ unitField w) : decode w = .error .reservedUnit := by
  rw [decode, UnitTag.ofCode_eq_none.mpr h]

theorem decode_reservedOp {w : BitVec 32} (hunit : unitField w < 3) (h : 5 ≤ opField w) :
    decode w = .error .reservedOp := by
  obtain ⟨u, hu⟩ := Option.ne_none_iff_exists'.mp (mt UnitTag.ofCode_eq_none.mp (Nat.not_le.mpr hunit))
  rw [decode, hu, OpTag.ofCode_eq_none.mpr h]

section
variable {w : BitVec 32} {u : UnitTag} {o : OpTag} (hunit : unitField w = u.code) (hop : opField w = o.code)
include hunit hop

/-- The three checks left once the unit and the call are named. -/
theorem decode_eq_of_codes :
    decode w =
      if zeroField w ≠ 0 then .error .nonzeroLowBits
      else if usesAlg u o = false ∧ algField w ≠ 0 then .error .algNotUsed
      else if usesAlg u o = true ∧ tagInRange (algField w) = false then .error .unrecognisedAlg
      else .ok (Instr.ofFields u o (algField w)) := by
  rw [decode, UnitTag.ofCode_eq_some.mpr hunit, OpTag.ofCode_eq_some.mpr hop]

theorem decode_nonzeroLowBits (hzero : zeroField w ≠ 0) : decode w = .error .nonzeroLowBits := by
  rw [decode_eq_of_codes hunit hop, if_pos hzero]

theorem decode_algNotUsed (hzero : zeroField w = 0) (huses : usesAlg u o = false) (halg : algField w ≠ 0) :
    decode w = .error .algNotUsed := by
  rw [decode_eq_of_codes hunit hop, if_neg (not_not.mpr hzero), if_pos ⟨huses, halg⟩]

/-- The tag check alone is left once the word is known to be one of a row of R98. -/
theorem decode_of_row (hzero : zeroField w = 0) (halg : usesAlg u o = false → algField w = 0) :
    decode w =
      if usesAlg u o = true ∧ 6 ≤ (algField w).toNat then .error .unrecognisedAlg
      else .ok (Instr.ofFields u o (algField w)) := by
  rw [decode_eq_of_codes hunit hop, if_neg (not_not.mpr hzero), if_neg fun h => h.2 (halg h.1)]
  simp only [tagInRange_eq_false]

theorem decode_unrecognisedAlg (hzero : zeroField w = 0) (huses : usesAlg u o = true) (halg : 6 ≤ (algField w).toNat) :
    decode w = .error .unrecognisedAlg := by
  rw [decode_of_row hunit hop hzero fun h => absurd (huses.symm.trans h) (by decide), if_pos ⟨huses, halg⟩]

end

/-! ### An instruction and its fields (R98) -/

/-- An instruction is put together from its own fields. -/
theorem Instr.ofFields_fields (i : Instr) : Instr.ofFields i.unit i.op i.tag = i := by cases i <;> rfl

@[simp] theorem Instr.unit_ofFields (u : UnitTag) (o : OpTag) (tag : BitVec 8) : (Instr.ofFields u o tag).unit = u := by
  cases u <;> cases o <;> rfl

@[simp] theorem Instr.op_ofFields (u : UnitTag) (o : OpTag) (tag : BitVec 8) : (Instr.ofFields u o tag).op = o := by
  cases u <;> cases o <;> rfl

/-- The tag is kept by the commands that use it, and is zero in the others (R95). -/
theorem Instr.tag_ofFields (u : UnitTag) (o : OpTag) (tag : BitVec 8) :
    (Instr.ofFields u o tag).tag = if usesAlg u o = true then tag else 0 := by
  cases u <;> cases o <;> rfl

theorem Instr.tag_of_not_usesAlg {i : Instr} (h : usesAlg i.unit i.op = false) : i.tag = 0 := by
  rw [← i.ofFields_fields, Instr.tag_ofFields, h, if_neg Bool.false_ne_true]

/-- Well formed is: the tag is one of R94 where it is used. -/
theorem Instr.wellFormed_iff (i : Instr) : i.wellFormed = true ↔ (usesAlg i.unit i.op = true → tagInRange i.tag = true) := by
  cases i <;> simp [Instr.wellFormed, Instr.unit, Instr.op, Instr.tag, usesAlg]

theorem encode_toNat (i : Instr) :
    (encode i).toNat = i.unit.code * 2 ^ 28 + i.op.code * 2 ^ 24 + i.tag.toNat * 2 ^ 16 := by
  have := i.unit.code_lt
  have := i.op.code_lt
  have := i.tag.isLt
  rw [encode, BitVec.toNat_ofNat]
  omega

@[simp] theorem unitField_encode (i : Instr) : unitField (encode i) = i.unit.code := by
  have := i.op.code_lt
  have := i.tag.isLt
  rw [unitField_eq, encode_toNat]
  omega

@[simp] theorem opField_encode (i : Instr) : opField (encode i) = i.op.code := by
  have := i.op.code_lt
  have := i.tag.isLt
  rw [opField_eq, encode_toNat]
  omega

@[simp] theorem algField_encode (i : Instr) : algField (encode i) = i.tag := by
  have := i.tag.isLt
  refine BitVec.eq_of_toNat_eq ?_
  rw [algField_toNat, encode_toNat]
  omega

@[simp] theorem zeroField_encode (i : Instr) : zeroField (encode i) = 0 := by
  rw [zeroField_eq_zero, encode_toNat]
  omega

/-- A word is an instruction's when its fields are. -/
theorem eq_encode_iff {w : BitVec 32} {i : Instr} :
    w = encode i ↔ unitField w = i.unit.code ∧ opField w = i.op.code ∧ algField w = i.tag ∧ zeroField w = 0 := by
  rw [word_eq_iff, unitField_encode, opField_encode, algField_encode, zeroField_encode]

/-- What the checks of R99 let through. -/
theorem decode_ok_fields {w : BitVec 32} {i : Instr} (h : decode w = .ok i) :
    ∃ u o, unitField w = u.code ∧ opField w = o.code ∧ zeroField w = 0 ∧ (usesAlg u o = false → algField w = 0)
      ∧ (usesAlg u o = true → tagInRange (algField w) = true) ∧ i = Instr.ofFields u o (algField w) := by
  unfold decode at h
  split at h
  · cases h
  next u hunit =>
  split at h
  · cases h
  next o hop =>
  split_ifs at h with hzero hunused hrange
  cases h
  refine ⟨u, o, UnitTag.ofCode_eq_some.mp hunit, OpTag.ofCode_eq_some.mp hop, not_not.mp hzero, fun huses => ?_,
    fun huses => ?_, rfl⟩
  · exact not_not.mp fun halg => hunused ⟨huses, halg⟩
  · exact Bool.not_eq_false _ |>.mp fun hout => hrange ⟨huses, hout⟩

/-- The words that decode to an instruction: its own word, and no word where its tag is out of range. -/
theorem decode_eq_ok_iff {w : BitVec 32} {i : Instr} : decode w = .ok i ↔ i.wellFormed = true ∧ w = encode i := by
  constructor
  · intro h
    obtain ⟨u, o, hunit, hop, hzero, hunused, hrange, rfl⟩ := decode_ok_fields h
    have htag : (Instr.ofFields u o (algField w)).tag = algField w := by
      rw [Instr.tag_ofFields]
      cases huses : usesAlg u o with
      | true => rfl
      | false => exact (hunused huses).symm
    rw [Instr.wellFormed_iff, eq_encode_iff, htag, Instr.unit_ofFields, Instr.op_ofFields]
    exact ⟨hrange, hunit, hop, rfl, hzero⟩
  · rintro ⟨hwf, rfl⟩
    rw [decode_of_row (unitField_encode i) (opField_encode i) (zeroField_encode i)
      (fun h => (algField_encode i).trans (Instr.tag_of_not_usesAlg h)), algField_encode, i.ofFields_fields, if_neg]
    rintro ⟨huses, hrange⟩
    have := i.wellFormed_iff.mp hwf huses
    simp [tagInRange_eq_false.mpr hrange] at this

/-- Settles O1: the word of an instruction holds its fields, and the checks of R99 pass on them. -/
theorem decodeOfEncode : Obligations.DecodeOfEncode := fun _ hwf => decode_eq_ok_iff.mpr ⟨hwf, rfl⟩

/-- Settles O2: the checks that a legal word passes leave it no freedom beyond the fields of its instruction. -/
theorem encodeOfDecode : Obligations.EncodeOfDecode := fun _ _ h =>
  have ⟨hwf, hw⟩ := decode_eq_ok_iff.mp h
  ⟨hwf, hw.symm⟩

/-! ### The opcode map (R98) -/

/-- The rows of the map: the mask leaves the tag out where it is used, and the match is the codes of the row. -/
theorem opcodeMap_row : ∀ r ∈ opcodeMap,
    r.mask = (if usesAlg r.unit r.op = true then 0xFF00FFFF#32 else 0xFFFFFFFF#32)
      ∧ unitField r.matchWord = r.unit.code ∧ opField r.matchWord = r.op.code ∧ algField r.matchWord = 0
      ∧ zeroField r.matchWord = 0 := by decide

/-- Every call of every unit has its row. -/
theorem exists_row (u : UnitTag) (o : OpTag) : ∃ r ∈ opcodeMap, r.unit = u ∧ r.op = o := by
  cases u <;> cases o <;> decide

/-- The mask of the commands that use the tag clears it and nothing else. -/
theorem fields_and_tagMask (w : BitVec 32) :
    unitField (w &&& 0xFF00FFFF#32) = unitField w ∧ opField (w &&& 0xFF00FFFF#32) = opField w
      ∧ algField (w &&& 0xFF00FFFF#32) = 0 ∧ zeroField (w &&& 0xFF00FFFF#32) = zeroField w := by
  have high : BitVec.extractLsb' 28 4 0xFF00FFFF#32 = BitVec.allOnes 4 := by decide
  have call : BitVec.extractLsb' 24 4 0xFF00FFFF#32 = BitVec.allOnes 4 := by decide
  have tag : BitVec.extractLsb' 16 8 0xFF00FFFF#32 = 0 := by decide
  have low : BitVec.extractLsb' 0 16 0xFF00FFFF#32 = BitVec.allOnes 16 := by decide
  simp only [unitField, opField, algField, zeroField, BitVec.extractLsb'_and, high, call, tag, low, BitVec.and_allOnes]
  exact ⟨trivial, trivial, BitVec.and_zero, trivial⟩

theorem and_fullMask (w : BitVec 32) : w &&& 0xFFFFFFFF#32 = w := BitVec.and_allOnes

/-- A word selects a row when it has the row's codes, its low half is zero, and so is its tag where the row does not use it. -/
theorem selects_iff {r : OpcodeRow} (hr : r ∈ opcodeMap) (w : BitVec 32) :
    w &&& r.mask = r.matchWord ↔
      unitField w = r.unit.code ∧ opField w = r.op.code ∧ zeroField w = 0
        ∧ (usesAlg r.unit r.op = false → algField w = 0) := by
  obtain ⟨hmask, hunit, hop, halg, hzero⟩ := opcodeMap_row r hr
  rw [word_eq_iff, hmask, hunit, hop, halg, hzero]
  cases usesAlg r.unit r.op with
  | true =>
    obtain ⟨munit, mop, malg, mzero⟩ := fields_and_tagMask w
    simp [munit, mop, malg, mzero]
  | false => simp [and_fullMask, and_comm]

/-- Settles O3: a row that selects the word names its codes; and a word that decodes selects the row of its instruction. -/
theorem decodeFollowsOpcodeMap : Obligations.DecodeFollowsOpcodeMap := by
  intro w
  refine ⟨fun r hr hsel => ?_, fun hnone => ?_⟩
  · obtain ⟨hunit, hop, hzero, halg⟩ := (selects_iff hr w).mp hsel
    exact decode_of_row hunit hop hzero halg
  · cases h : decode w with
    | error e => exact ⟨e, rfl⟩
    | ok i =>
      obtain ⟨hunit, hop, halg, hzero⟩ := eq_encode_iff.mp (decode_eq_ok_iff.mp h).2
      obtain ⟨r, hr, hu, ho⟩ := exists_row i.unit i.op
      refine absurd ((selects_iff hr w).mpr ?_) (hnone r hr)
      rw [hu, ho]
      exact ⟨hunit, hop, hzero, fun huses => halg.trans (Instr.tag_of_not_usesAlg huses)⟩

/-- Settles O4: the decoder runs on each word. -/
theorem wordsOfTheSpec : Obligations.WordsOfTheSpec := by
  unfold Obligations.WordsOfTheSpec
  decide

end Sys2Proof

namespace Sys2Proof.Machine

/-! ### Illegal words (R99) -/

/-- A step on an illegal word returns its status and changes nothing else. -/
theorem step_illegal {s : State} {c : Command} {rest : List HostEvent} {e : DecodeError} (hevents : s.events = .command c :: rest)
    (hdecode : decode c.w = .error e) : step s = .next (refusedWith (illegalStatus e) { s with events := rest, cmd := c }) := by
  rw [step_command hevents, runWord_illegal hdecode, returnStatus_refused _ _ (by cases e <;> decide)]
  rfl

/-- Settles O5, one clause for each check of the decoder. -/
theorem illegalWordReturnsStatus : Obligations.IllegalWordReturnsStatus := by
  intro s c rest hevents
  simp only [← unitField_eq, ← opField_eq, ← algField_toNat, ne_eq, ← zeroField_eq_zero]
  refine ⟨fun hunit => ?_, fun hunit hop => ?_, fun hunit hop hlow => ?_, fun hunit hop hlow huses halg => ?_,
    fun hunit hop hlow huses halg => ?_⟩
  · exact step_illegal hevents (decode_reservedUnit hunit)
  · exact step_illegal hevents (decode_reservedOp hunit hop)
  · obtain ⟨u, o, hu, ho⟩ := exists_of_codes_lt hunit hop
    exact step_illegal hevents (decode_nonzeroLowBits hu ho hlow)
  · obtain ⟨u, o, hu, ho⟩ := exists_of_codes_lt hunit hop
    rw [hu, ho, ← usesAlg_iff, Bool.not_eq_true] at huses
    exact step_illegal hevents (decode_algNotUsed hu ho hlow huses fun h => halg (congrArg BitVec.toNat h))
  · obtain ⟨u, o, hu, ho⟩ := exists_of_codes_lt hunit hop
    rw [hu, ho, ← usesAlg_iff] at huses
    exact step_illegal hevents (decode_unrecognisedAlg hu ho hlow huses halg)

end Sys2Proof.Machine
end

section
/-! PROOFS. 30_encoding.md, sequences of commands: one command of a sequence (R75), the commands of DIG and HMAC on the contexts
the pseudo-instructions meet (R103, R104), and the commands that do nothing (R100); then O52, O56 and O57. -/

namespace Sys2Proof.Machine

open Config (Params)

/-! ### Running a sequence of commands (R75) -/

/-- The command `c`, issued in the state `s`, returns `Ok` with this output and leaves the state `t`. -/
structure ReturnsOk (c : Command) (s : State) (out : Bytes) (t : State) : Prop where
  step : step { s with events := [.command c] } = .next t
  result : t.result = some { st := .ok, out := out }

/-- A command that returns `Ok`, and the commands after it. -/
theorem ReturnsOk.runCommands_cons {c : Command} {s t : State} {out : Bytes} (h : ReturnsOk c s out t) (cs : List Command) :
    runCommands (c :: cs) s = ({ st := .ok, out := out } :: (runCommands cs t).1, (runCommands cs t).2) := by
  rw [runCommands, h.step]
  simp only [h.result, Option.toList_some, List.singleton_append]

/-- The command of a well-formed instruction runs that instruction on its operands. -/
theorem returnsOk_of_exec {i : Instr} {a b : Operand} {n : BitVec 32} {s t : State} {out : Bytes} (wf : i.wellFormed = true)
    (answer : exec i { s with events := [], cmd := Command.of i a b n } = .next (okWith out t)) :
    ReturnsOk (Command.of i a b n) s out (okWith out t) := by
  refine ⟨?_, rfl⟩
  rw [step_command rfl]
  exact (runWord_legal (decodeOfEncode i wf) _).trans answer

/-! ### The commands of unit DIG (R130 to R134) -/

section
variable {s : State}

theorem exec_digCreate_absent (a : Alg) (absent : s.dig.valid = false) :
    exec (.digCreate a.tag) s = .next (okWith [] { s with dig := initialDigest params a }) := by
  simp only [exec_digCreate, cmdDigCreate, Alg.ofTag_tag, absent, Bool.false_eq_true, if_false, complete_ok]
  rfl

theorem exec_digUpdate_present (present : s.dig.valid = true) :
    exec .digUpdate s = .next (okWith [] { s with dig := digUpdate params s.dig s.cmd.a.val }) := by
  rw [exec_digUpdate, cmdDigUpdate, if_pos present, complete_ok]

theorem exec_digFinish_present (present : s.dig.valid = true) :
    exec .digFinish s =
      .next (okWith (digFinish params s.dig).1 { s with dig := (digFinish params s.dig).2 }) := by
  rw [exec_digFinish, cmdDigFinish, if_pos present, complete_ok]

theorem exec_digDestroy_present (present : s.dig.valid = true) :
    exec .digDestroy s = .next (okWith [] (dropDig s)) := by
  rw [exec_digDestroy, cmdDigDestroy, if_pos present, complete_ok]

theorem exec_digDestroy_absent (absent : s.dig.valid = false) :
    exec .digDestroy s = .next (okWith [] (surfaceWarning s)) := by
  rw [exec_digDestroy, cmdDigDestroy, if_neg (by simp [absent]), complete_ok]

/-! ### The commands of unit HMAC (R170 to R174) -/

theorem exec_hmacCreate_absent (a : Alg) (absent : s.hm.valid = false) :
    exec (.hmacCreate a.tag) s =
      .next (okWith []
        { s with
          hm := keyedHmac params a s.cmd.a.val (freeBytes s.freeCount a.outSize), freeCount := s.freeCount + 1 }) := by
  simp only [exec_hmacCreate, cmdHmacCreate, Alg.ofTag_tag, absent, Bool.false_eq_true, if_false, complete_ok, hmacInit_keyed]

theorem exec_hmacUpdate_ready (present : s.hm.valid = true) (ready : s.hm.fin = false) :
    exec .hmacUpdate s = .next (okWith [] { s with hm := hmacUpdate params s.hm s.cmd.a.val }) := by
  rw [exec_hmacUpdate, cmdHmacUpdate, if_pos present, if_neg (by simp [ready]), complete_ok]

theorem exec_hmacFinish_ready (present : s.hm.valid = true) (ready : s.hm.fin = false) :
    exec .hmacFinish s =
      .next (okWith (hmacFinish params s.hm).1 { s with hm := (hmacFinish params s.hm).2 }) := by
  rw [exec_hmacFinish, cmdHmacFinish, if_pos present, if_neg (by simp [ready]), complete_ok]

theorem exec_hmacDestroy_present (present : s.hm.valid = true) :
    exec .hmacDestroy s = .next (okWith [] (dropHmac s)) := by
  rw [exec_hmacDestroy, cmdHmacDestroy, if_pos present, complete_ok]

theorem exec_hmacDestroy_absent (absent : s.hm.valid = false) :
    exec .hmacDestroy s = .next (okWith [] (surfaceWarning s)) := by
  rw [exec_hmacDestroy, cmdHmacDestroy, if_neg (by simp [absent]), complete_ok]

/-! ### The commands of unit KDF that do nothing (R202 to R204) -/

theorem exec_kdfUpdate_zero (present : s.kdf.valid = true) (nothing : s.cmd.n = 0) :
    exec .kdfUpdate s = .next (okWith [] s) := by
  rw [exec_kdfUpdate_present s present, nothing]
  exact congrArg Host.Outcome.next (returnStatus_ok [] s)

theorem exec_kdfFinish_present (present : s.kdf.valid = true) : exec .kdfFinish s = .next (okWith [] s) := by
  rw [exec_kdfFinish, cmdKdfFinish, if_pos present, complete_ok]

theorem exec_kdfDestroy_absent (absent : s.kdf.valid = false) :
    exec .kdfDestroy s = .next (okWith [] (surfaceWarning s)) := by
  rw [exec_kdfDestroy, cmdKdfDestroy, if_neg (by simp [absent]), complete_ok]

end

/-- Settles O52: an update of no bytes is the identity on its context, and DESTROY of an absent unit only warns. -/
theorem commandsThatDoNothing : Obligations.CommandsThatDoNothing := by
  intro s
  refine ⟨exec_kdfFinish_present, fun present nothing => ?_, fun present ready nothing => ?_, exec_kdfUpdate_zero,
    fun absent => ⟨_, exec_digDestroy_absent absent, rfl, rfl⟩,
    fun absent => ⟨_, exec_hmacDestroy_absent absent, rfl, rfl⟩,
    fun absent => ⟨_, exec_kdfDestroy_absent absent, rfl, rfl⟩⟩
  · rw [exec_digUpdate_present present, nothing, digUpdate_nil]
  · rw [exec_hmacUpdate_ready present ready, nothing, hmacUpdate, digUpdate_nil]

/-! ### The pseudo-instructions (R103, R104) -/

/-- Rule R136: `dig_finish` after one update of an initial context is `H`. -/
theorem digFinish_oneUpdate (P : Params) (a : Alg) (msg : Bytes) :
    (digFinish P (digUpdate P (initialDigest P a) msg)).1 = hash P a msg := by
  have initial : digInit P (initialDigest P a) = initialDigest P a := digInit_initial P rfl
  rw [← initial, digUpdate_init, digFinish_stream]
  rfl

/-- Settles O56: each command of the sequence returns `Ok`, and FINISH alone has an output, the digest. -/
theorem digestPseudoInstruction : Obligations.DigestPseudoInstruction := by
  intro s a data absent
  obtain ⟨t₁, create, dig₁⟩ : ∃ t, ReturnsOk (.plain (.digCreate a.tag)) s [] t ∧ t.dig = initialDigest params a :=
    ⟨_, returnsOk_of_exec (tagInRange_tag a) (exec_digCreate_absent a absent), rfl⟩
  have present₁ : t₁.dig.valid = true := by rw [dig₁]; rfl
  obtain ⟨t₂, update, dig₂⟩ : ∃ t, ReturnsOk (.of .digUpdate data Operand.empty 0) t₁ [] t
      ∧ t.dig = digUpdate params t₁.dig data.val := ⟨_, returnsOk_of_exec rfl (exec_digUpdate_present present₁), rfl⟩
  have present₂ : t₂.dig.valid = true := by rw [dig₂, digUpdate_valid, present₁]
  obtain ⟨t₃, finish, dig₃⟩ : ∃ t, ReturnsOk (.plain .digFinish) t₂ (digFinish params t₂.dig).1 t
      ∧ t.dig = (digFinish params t₂.dig).2 := ⟨_, returnsOk_of_exec rfl (exec_digFinish_present present₂), rfl⟩
  have present₃ : t₃.dig.valid = true := by rw [dig₃, digFinish_valid, present₂]
  obtain ⟨t₄, destroy, absent₄⟩ : ∃ t, ReturnsOk (.plain .digDestroy) t₃ [] t ∧ t.dig.valid = false :=
    ⟨_, returnsOk_of_exec rfl (exec_digDestroy_present present₃), rfl⟩
  rw [dig₂, dig₁, digFinish_oneUpdate] at finish
  rw [digestExpansion, create.runCommands_cons, update.runCommands_cons, finish.runCommands_cons, destroy.runCommands_cons]
  exact ⟨rfl, List.append_nil _, absent₄⟩

/-- Settles O57: each command of the sequence returns `Ok`, and FINISH alone has an output, the HMAC. -/
theorem hmacOnePseudoInstruction : Obligations.HmacOnePseudoInstruction := by
  intro s a key data absent
  obtain ⟨t₁, create, scratch, hm₁⟩ : ∃ t, ReturnsOk (.of (.hmacCreate a.tag) key Operand.empty 0) s [] t
      ∧ ∃ scratch, t.hm = keyedHmac params a key.val scratch :=
    ⟨_, returnsOk_of_exec (tagInRange_tag a) (exec_hmacCreate_absent a absent), _, rfl⟩
  obtain ⟨t₂, update, hm₂⟩ : ∃ t, ReturnsOk (.of .hmacUpdate data Operand.empty 0) t₁ [] t
      ∧ t.hm = hmacUpdate params t₁.hm data.val :=
    ⟨_, returnsOk_of_exec rfl (exec_hmacUpdate_ready (by rw [hm₁]; rfl) (by rw [hm₁]; rfl)), rfl⟩
  rw [hm₁] at hm₂
  obtain ⟨t₃, finish, hm₃⟩ : ∃ t, ReturnsOk (.plain .hmacFinish) t₂ (hmacFinish params t₂.hm).1 t
      ∧ t.hm = (hmacFinish params t₂.hm).2 :=
    ⟨_, returnsOk_of_exec rfl (exec_hmacFinish_ready (by rw [hm₂]; rfl) (by rw [hm₂]; rfl)), rfl⟩
  rw [hm₂, hmacFinish_keyed] at finish hm₃
  obtain ⟨t₄, destroy, absent₄⟩ : ∃ t, ReturnsOk (.plain .hmacDestroy) t₃ [] t ∧ t.hm.valid = false :=
    ⟨_, returnsOk_of_exec rfl (exec_hmacDestroy_present (by rw [hm₃]; rfl)), rfl⟩
  rw [hmacOneExpansion, create.runCommands_cons, update.runCommands_cons, finish.runCommands_cons, destroy.runCommands_cons]
  exact ⟨rfl, List.append_nil _, absent₄⟩

end Sys2Proof.Machine
end

section
/-! PROOFS. 40_digest.md, the operations of the Digest Engine: the bit counter (R122), the padding (R125) and what a family shares
(R139); O20, O21 and O27. -/

namespace Sys2Proof.Machine

/-- Settles O20: the carry rule adds `8*L` to the pair, and `ctr_add` writes the two counter words only. -/
theorem bitCounterAdvances : Obligations.BitCounterAdvances :=
  fun c len hlo => ⟨ctrAdd_total c len hlo, ctrAdd_lo_lt c len, ctrAdd_hi_lt c len, rfl⟩

/-- Settles O21, by the two cases of `padlen`: the buffer below `B - LF`, and at it or above. -/
theorem paddingEndsAtLengthField : Obligations.PaddingEndsAtLengthField := fun _ hfill =>
  have ⟨atLeastOne, atMostBlock⟩ := padlen_bounds hfill
  ⟨atLeastOne, atMostBlock, padlen_end hfill⟩

/-- `compress` takes from the algorithm its transform and the shape of the state, and nothing else (R9). -/
theorem compress_congr (P : Config.Params) {a b : Alg} (transform : a.transform = b.transform)
    (count : a.stateWords = b.stateWords) (width : a.wordBits = b.wordBits) : compress P a = compress P b := by
  have word : fitWord a = fitWord b := by
    unfold fitWord
    rw [width]
  funext h block
  simp only [compress, fit, transform, count, word]

/-- Settles O27: the columns of the table that `compress` reads, and the others, are those of the family. -/
theorem familiesShare : Obligations.FamiliesShare := by
  refine ⟨fun h b => ⟨?_, ?_⟩, by decide⟩
  · rw [compress_congr params (a := .sha224) (b := .sha256) rfl rfl rfl]
  · rw [compress_congr params (a := .sha384) (b := .sha512) rfl rfl rfl]

end Sys2Proof.Machine
end

section
/-! PROOFS. 40_digest.md, the commands of unit DIG (R130 to R134): their words, and what each answers on a present and on an
absent context; O15 to O19. -/

namespace Sys2Proof

/-! ### The words of a row of the opcode map (R98) -/

/-- An instruction without a tag has one word. -/
theorem decode_eq_ok_iff_eq {w v : BitVec 32} {i : Instr} (wf : i.wellFormed = true) (word : encode i = v) :
    decode w = .ok i ↔ w = v := by
  rw [decode_eq_ok_iff, word, and_iff_right wf]

/-- An instruction with a tag has the words its row selects, with the tag in its field and in the range of R94. -/
theorem decode_eq_ok_iff_selects {r : OpcodeRow} (hr : r ∈ opcodeMap) (uses : usesAlg r.unit r.op = true) (w : BitVec 32)
    (tag : BitVec 8) :
    decode w = .ok (Instr.ofFields r.unit r.op tag) ↔
      w &&& r.mask = r.matchWord ∧ w.extractLsb' 16 8 = tag ∧ tag.toNat < 6 := by
  rw [decode_eq_ok_iff, eq_encode_iff, Instr.wellFormed_iff, Instr.tag_ofFields, if_pos uses, Instr.unit_ofFields,
    Instr.op_ofFields, selects_iff hr, ← algField]
  simp only [uses, tagInRange, decide_eq_true_eq, forall_const, Bool.true_eq_false, false_implies]
  tauto

theorem decode_digReset {w : BitVec 32} : decode w = .ok .digReset ↔ w = 0x01000000#32 := decode_eq_ok_iff_eq rfl rfl
theorem decode_digUpdate {w : BitVec 32} : decode w = .ok .digUpdate ↔ w = 0x02000000#32 := decode_eq_ok_iff_eq rfl rfl
theorem decode_digFinish {w : BitVec 32} : decode w = .ok .digFinish ↔ w = 0x03000000#32 := decode_eq_ok_iff_eq rfl rfl
theorem decode_digDestroy {w : BitVec 32} : decode w = .ok .digDestroy ↔ w = 0x04000000#32 := decode_eq_ok_iff_eq rfl rfl

end Sys2Proof

namespace Sys2Proof.Machine

/-! ### The answers not stated yet with O52 and O56: CREATE where it fails, RESET, and the absent context -/

section
variable {s : State}

theorem exec_digCreate_unrecognised {tag : BitVec 8} (unrecognised : 6 ≤ tag.toNat) :
    exec (.digCreate tag) s = .next (refusedWith .invalidAlgorithm s) := by
  rw [exec_digCreate, cmdDigCreate, ofTag_none unrecognised]
  exact raise_refused _ s nofun

theorem exec_digCreate_present (a : Alg) (present : s.dig.valid = true) :
    exec (.digCreate a.tag) s = .next (refusedWith .outOfMemory s) := by
  simp only [exec_digCreate, cmdDigCreate, Alg.ofTag_tag, if_pos present]
  exact raise_refused _ s nofun

theorem exec_digReset_present (present : s.dig.valid = true) :
    exec .digReset s = .next (okWith [] { s with dig := digInit params s.dig }) := by
  rw [exec_digReset, cmdDigReset, if_pos present, complete_ok]

/-- RESET, UPDATE and FINISH need the context (R233). -/
theorem exec_dig_absent {i : Instr} (unit : i.unit = .dig) (create : i.op ≠ .create) (destroy : i.op ≠ .destroy)
    (absent : s.dig.valid = false) : exec i s = .next (refusedWith .invalidArgument s) := by
  have missing : ¬s.dig.valid = true := by simp [absent]
  rw [← raise_refused .invalidArgument s nofun]
  cases i with
  | digCreate _ => exact absurd rfl create
  | digReset | digUpdate | digFinish => exact if_neg missing
  | digDestroy => exact absurd rfl destroy
  | _ => exact absurd unit nofun

end

/-! ### The obligations -/

/-- Settles O15: the words of the row, then the checks of R130 in order. -/
theorem digCreateEffect : Obligations.DigCreateEffect := fun _ =>
  ⟨decode_eq_ok_iff_selects (r := ⟨.dig, .create, 0x00000000#32, 0xFF00FFFF#32⟩) (by decide) rfl,
    fun _ => exec_digCreate_unrecognised, exec_digCreate_present, exec_digCreate_absent⟩

/-- Settles O16: `dig_init` of the present context. -/
theorem digResetEffect : Obligations.DigResetEffect := fun _ =>
  ⟨fun _ => decode_digReset, exec_digReset_present, exec_dig_absent rfl nofun nofun⟩

/-- Settles O17: on a good context `dig_update` is `absorbed`, the empty operand included. -/
theorem digUpdateEffect : Obligations.DigUpdateEffect := by
  refine fun s => ⟨fun _ => decode_digUpdate, fun present inv => ?_, exec_dig_absent rfl nofun nofun⟩
  rw [exec_digUpdate_present present, digUpdate_absorbed params (inv.good present)]

/-- Settles O18: on a good context `dig_finish` is `finished`. -/
theorem digFinishEffect : Obligations.DigFinishEffect := by
  refine fun s => ⟨fun _ => decode_digFinish, fun present inv => ?_, exec_dig_absent rfl nofun nofun⟩
  rw [exec_digFinish_present present, digFinish_finished params (inv.good present)]

/-- Settles O19: the free values of the dropped context are read back from the state afterwards. -/
theorem digDestroyEffect : Obligations.DigDestroyEffect := fun _ =>
  ⟨fun _ => decode_digDestroy, fun present => ⟨_, exec_digDestroy_present present, rfl, rfl⟩, exec_digDestroy_absent⟩

end Sys2Proof.Machine
end

section
/-! PROOFS. 40_digest.md, sequences of commands on unit DIG: the stream (R124, R129), the digest of a message (R136) and chunking
(R135); O24, O25 and O26. -/

namespace Sys2Proof.Machine

/-- Settles O24: UPDATE appends to the stream, and FINISH appends the padding and returns the digest. -/
theorem streamCharacterisation : Obligations.StreamCharacterisation := by
  intro s d stream hdig hvalid
  have present : s.dig.valid = true := by rw [hdig, streamState_valid, hvalid]
  rw [exec_digUpdate_present present, exec_digFinish_present present, hdig, digUpdate_stream, digFinish_stream]
  exact ⟨rfl, rfl⟩

/-- The first of `k + 1` steps, when the next event is a legal command. -/
theorem runSteps_command {s t : State} {c : Command} {rest : List HostEvent} {i : Instr}
    (events : s.events = .command c :: rest) (word : decode c.w = .ok i)
    (answer : exec i { s with events := rest, cmd := c } = .next t) (k : Nat) : runSteps (k + 1) s = runSteps k t :=
  runSteps_succ k ((stepRunsDecodedCommand s c rest i events word).trans answer)

/-- Settles O25: RESET empties the stream, UPDATE makes it the message, and FINISH returns its digest (O24). -/
theorem digestOfMessage : Obligations.DigestOfMessage := by
  intro s c1 c2 c3 reset update finish present
  obtain ⟨t₁, run₁, events₁, dig₁⟩ : ∃ t, runSteps 3 (s.withEvents [.command c1, .command c2, .command c3]) = runSteps 2 t
      ∧ t.events = [.command c2, .command c3] ∧ t.dig = streamState params s.dig [] :=
    ⟨_, runSteps_command (s := s.withEvents _) rfl (decode_digReset.mpr reset) (exec_digReset_present present) 2, rfl,
      digInit_eq_stream params s.dig⟩
  obtain ⟨t₂, run₂, events₂, dig₂⟩ : ∃ t, runSteps 2 t₁ = runSteps 1 t ∧ t.events = [.command c3]
      ∧ t.dig = streamState params s.dig c2.a.val :=
    ⟨_, runSteps_command events₁ (decode_digUpdate.mpr update)
      (streamCharacterisation { t₁ with events := [.command c3], cmd := c2 } s.dig [] dig₁ present).1 1, rfl, rfl⟩
  obtain ⟨t₃, run₃, result₃⟩ : ∃ t, runSteps 1 t₂ = .next t
      ∧ t.result = some { st := .ok, out := hash params s.dig.alg c2.a.val } :=
    ⟨_, runSteps_command events₂ (decode_digFinish.mpr finish)
      (streamCharacterisation { t₂ with events := [], cmd := c3 } s.dig _ dig₂ present).2 0, rfl⟩
  exact ⟨t₃, run₁.trans (run₂.trans run₃), result₃⟩

/-- UPDATE commands one after another are `dig_update` with their operands as one string (R135). -/
theorem runSteps_digUpdates (cs : List Command) {s : State} (events : s.events = cs.map .command)
    (updates : ∀ c ∈ cs, c.w = 0x02000000#32) (present : s.dig.valid = true) (good : s.dig.Good) :
    ∃ t, runSteps cs.length s = .next t ∧ t.dig = digUpdate params s.dig (cs.map fun c => c.a.val).flatten := by
  induction cs generalizing s with
  | nil => exact ⟨s, rfl, (digUpdate_nil params s.dig).symm⟩
  | cons c cs ih =>
    obtain ⟨update, updates⟩ := List.forall_mem_cons.mp updates
    obtain ⟨t₁, run₁, events₁, dig₁⟩ : ∃ t, runSteps (cs.length + 1) s = runSteps cs.length t ∧ t.events = cs.map .command
        ∧ t.dig = digUpdate params s.dig c.a.val :=
      ⟨_, runSteps_command events (decode_digUpdate.mpr update) (exec_digUpdate_present present) _, rfl, rfl⟩
    obtain ⟨t, run, dig⟩ := ih events₁ updates (by rw [dig₁, digUpdate_valid, present])
      (dig₁ ▸ digUpdate_good params good c.a.val)
    refine ⟨t, run₁.trans run, ?_⟩
    rw [dig, dig₁, digUpdate_append params good, List.map_cons, List.flatten_cons]

/-- Settles O26: the pieces and the whole are the same `dig_update`, and FINISH reads `DIG` only. -/
theorem chunkingInvariance : Obligations.ChunkingInvariance := by
  intro s cs c present inv updates update whole
  have good := inv.good present
  obtain ⟨t, run, dig⟩ := runSteps_digUpdates cs (s := s.withEvents (cs.map .command)) rfl updates present good
  obtain ⟨u, run', dig'⟩ := runSteps_digUpdates [c] (s := s.withEvents [.command c]) rfl (by simpa using update) present good
  have same : t.dig = u.dig := by
    rw [dig, dig', ← whole, List.map_singleton, List.flatten_singleton]
    rfl
  have presentU : u.dig.valid = true := by
    rw [dig', digUpdate_valid]
    exact present
  have presentT : t.dig.valid = true := by rw [same, presentU]
  refine ⟨t, u, run, run', same, _, _, exec_digFinish_present presentT, exec_digFinish_present presentU, ?_⟩
  rw [okWith_result, okWith_result, same]

end Sys2Proof.Machine
end

section
/-! PROOFS. 41_hmac.md, the commands of unit HMAC (R170 to R174): their words, and what each answers on a present, a finished and
an absent context; O28 to O32. -/

namespace Sys2Proof

/-! ### The words of the commands without a tag (R98) -/

theorem decode_hmacReset {w : BitVec 32} : decode w = .ok .hmacReset ↔ w = 0x11000000#32 := decode_eq_ok_iff_eq rfl rfl
theorem decode_hmacUpdate {w : BitVec 32} : decode w = .ok .hmacUpdate ↔ w = 0x12000000#32 := decode_eq_ok_iff_eq rfl rfl
theorem decode_hmacFinish {w : BitVec 32} : decode w = .ok .hmacFinish ↔ w = 0x13000000#32 := decode_eq_ok_iff_eq rfl rfl
theorem decode_hmacDestroy {w : BitVec 32} : decode w = .ok .hmacDestroy ↔ w = 0x14000000#32 := decode_eq_ok_iff_eq rfl rfl

end Sys2Proof

namespace Sys2Proof.Machine

/-! ### The answers not stated yet with O52 and O57: CREATE where it fails, RESET, the finished and the absent context -/

section
variable {s : State}

theorem exec_hmacCreate_unrecognised {tag : BitVec 8} (unrecognised : 6 ≤ tag.toNat) :
    exec (.hmacCreate tag) s = .next (refusedWith .invalidAlgorithm s) := by
  rw [exec_hmacCreate, cmdHmacCreate, ofTag_none unrecognised]
  exact raise_refused _ s nofun

theorem exec_hmacCreate_present (a : Alg) (present : s.hm.valid = true) :
    exec (.hmacCreate a.tag) s = .next (refusedWith .outOfMemory s) := by
  simp only [exec_hmacCreate, cmdHmacCreate, Alg.ofTag_tag, if_pos present]
  exact raise_refused _ s nofun

/-- The key is the operand `A`; the algorithm and `scratch` are kept, READY or FINISHED (R171). -/
theorem exec_hmacReset_present (present : s.hm.valid = true) (inv : s.hm.Inv params) :
    exec .hmacReset s = .next (okWith [] { s with hm := keyedHmac params s.hm.alg s.cmd.a.val s.hm.scratch }) := by
  rw [exec_hmacReset, cmdHmacReset, if_pos present, complete_ok, hmacReset_keyed params _ (inv.good present).formed]

theorem exec_hmacUpdate_finished (present : s.hm.valid = true) (isFinished : s.hm.fin = true) :
    exec .hmacUpdate s = .next (refusedWith .error s) := by
  rw [exec_hmacUpdate, cmdHmacUpdate, if_pos present, if_pos isFinished, raise_refused .error s nofun]

theorem exec_hmacFinish_finished (present : s.hm.valid = true) (isFinished : s.hm.fin = true) :
    exec .hmacFinish s = .next (refusedWith .error s) := by
  rw [exec_hmacFinish, cmdHmacFinish, if_pos present, if_pos isFinished, raise_refused .error s nofun]

/-- RESET, UPDATE and FINISH need the context (R233). -/
theorem exec_hmac_absent {i : Instr} (unit : i.unit = .hmac) (create : i.op ≠ .create) (destroy : i.op ≠ .destroy)
    (absent : s.hm.valid = false) : exec i s = .next (refusedWith .invalidArgument s) := by
  have missing : ¬s.hm.valid = true := by simp [absent]
  rw [← raise_refused .invalidArgument s nofun]
  cases i with
  | hmacCreate _ => exact absurd rfl create
  | hmacReset | hmacUpdate | hmacFinish => exact if_neg missing
  | hmacDestroy => exact absurd rfl destroy
  | _ => exact absurd unit nofun

end

/-! ### The obligations -/

/-- Settles O28: the words of the row, then the checks of R170 in order; the new `scratch` is drawn as free bytes. -/
theorem hmacCreateEffect : Obligations.HmacCreateEffect := fun _ =>
  ⟨decode_eq_ok_iff_selects (r := ⟨.hmac, .create, 0x10000000#32, 0xFF00FFFF#32⟩) (by decide) rfl,
    fun _ => exec_hmacCreate_unrecognised, exec_hmacCreate_present,
    fun a absent => ⟨_, _, freeBytes_length _ a.outSize, exec_hmacCreate_absent a absent⟩⟩

/-- Settles O29: on a good context `hmac_reset` is the context of the key. -/
theorem hmacResetEffect : Obligations.HmacResetEffect := fun _ =>
  ⟨fun _ => decode_hmacReset, exec_hmacReset_present, exec_hmac_absent rfl nofun nofun⟩

/-- Settles O30: `hmac_update` is `dig_update` of the inner digest, which is `absorbed` on a good context. -/
theorem hmacUpdateEffect : Obligations.HmacUpdateEffect := by
  refine fun s => ⟨fun _ => decode_hmacUpdate, fun present ready inv => ?_, exec_hmacUpdate_finished,
    exec_hmac_absent rfl nofun nofun⟩
  rw [exec_hmacUpdate_ready present ready, hmacUpdate, digUpdate_absorbed params (inv.good present).inner_good]

/-- Settles O31: on a good context both digests of `hmac_finish` are `finished`, the outer one after `opad` and `scratch`. -/
theorem hmacFinishEffect : Obligations.HmacFinishEffect := by
  refine fun s => ⟨fun _ => decode_hmacFinish, fun present ready inv => ?_, exec_hmacFinish_finished,
    exec_hmac_absent rfl nofun nofun⟩
  rw [exec_hmacFinish_ready present ready, hmacFinish_finished params (inv.good present)]

/-- Settles O32: the free values of the dropped context are read back from the state afterwards. -/
theorem hmacDestroyEffect : Obligations.HmacDestroyEffect := fun _ =>
  ⟨fun _ => decode_hmacDestroy, fun present => ⟨_, exec_hmacDestroy_present present, rfl, rfl, rfl, rfl⟩,
    exec_hmacDestroy_absent⟩

end Sys2Proof.Machine
end

section
/-! PROOFS. 41_hmac.md, what the unit computes: the HMAC of a message in any chunks (R166) and the folding of a long key (R167);
O33 and O34. -/

namespace Sys2Proof.Machine

/-! ### UPDATE commands in a row -/

/-- UPDATE commands one after another, with other events behind them, are `hmac_update` with their operands as one string (R164). -/
theorem runSteps_hmacUpdates (cs : List Command) {s : State} {rest : List HostEvent} (k : Nat)
    (events : s.events = cs.map .command ++ rest) (updates : ∀ c ∈ cs, c.w = 0x12000000#32) (ready : s.hm.fin = false)
    (good : s.hm.Good params) :
    ∃ t, runSteps (cs.length + k) s = runSteps k t ∧ t.events = rest
      ∧ t.hm = hmacUpdate params s.hm (cs.map fun c => c.a.val).flatten := by
  induction cs generalizing s with
  | nil => exact ⟨s, by rw [List.length_nil, Nat.zero_add], events, rfl⟩
  | cons c cs ih =>
    obtain ⟨update, updates⟩ := List.forall_mem_cons.mp updates
    obtain ⟨t₁, run₁, events₁, hm₁⟩ : ∃ t, runSteps (cs.length + k + 1) s = runSteps (cs.length + k) t
        ∧ t.events = cs.map .command ++ rest ∧ t.hm = hmacUpdate params s.hm c.a.val :=
      ⟨_, runSteps_command events (decode_hmacUpdate.mpr update) (exec_hmacUpdate_ready good.present ready) _, rfl, rfl⟩
    obtain ⟨t, run, events, hm⟩ := ih events₁ updates (by rw [hm₁]; exact ready)
      (hm₁ ▸ hmacUpdate_good params good ready c.a.val)
    refine ⟨t, ?_, events, ?_⟩
    · rw [List.length_cons, Nat.add_right_comm, run₁, run]
    · rw [hm, hm₁, hmacUpdate_append params good, List.map_cons, List.flatten_cons]

/-- Settles O33: CREATE makes the context of the key, the UPDATEs feed it the whole message, and FINISH of that is the HMAC. -/
theorem hmacOfMessage : Obligations.HmacOfMessage := by
  intro s a c1 c3 cs absent create updates finish
  have word : decode c1.w = .ok (.hmacCreate a.tag) := decode_eq_ok_iff.mpr ⟨tagInRange_tag a, create⟩
  obtain ⟨t₁, run₁, events₁, scratch, size, hm₁⟩ : ∃ t,
      runSteps (cs.length + 2) (s.withEvents (.command c1 :: (cs.map .command ++ [.command c3]))) = runSteps (cs.length + 1) t
      ∧ t.events = cs.map .command ++ [.command c3]
      ∧ ∃ scratch : Bytes, scratch.length = a.outSize ∧ t.hm = keyedHmac params a c1.a.val scratch :=
    ⟨_, runSteps_command (s := s.withEvents _) rfl word
      (exec_hmacCreate_absent a absent) _, rfl, _, freeBytes_length _ _, rfl⟩
  obtain ⟨t₂, run₂, events₂, hm₂⟩ := runSteps_hmacUpdates cs 1 events₁ updates (by rw [hm₁]; rfl)
    (hm₁ ▸ keyedHmac_good params a c1.a.val size)
  rw [hm₁] at hm₂
  obtain ⟨t₃, run₃, result₃⟩ : ∃ t, runSteps 1 t₂ = .next t
      ∧ t.result = some { st := .ok, out := (hmacFinish params t₂.hm).1 } :=
    ⟨_, runSteps_command events₂ (decode_hmacFinish.mpr finish)
      (exec_hmacFinish_ready (by rw [hm₂]; rfl) (by rw [hm₂]; rfl)) 0, rfl⟩
  rw [hm₂, hmacFinish_keyed] at result₃
  exact ⟨t₃, run₁.trans (run₂.trans run₃), result₃⟩

/-! ### Folding a long key (R161, R167) -/

/-- The digest of a key longer than a block is no longer than a block, so it is padded as it is. -/
theorem hmacKey_hash (P : Config.Params) {a : Alg} {key : Bytes} (long : a.blockSize < key.length) :
    hmacKey P a (hash P a key) = hmacKey P a key := by
  have short : ¬a.blockSize < a.outSize := Nat.not_lt.mpr a.outSize_le_blockSize
  rw [hmacKey, hash_length, if_neg short, hmacKey, if_pos long]

/-- A keyed context holds its key as `key'` only. -/
theorem keyedHmac_congr (P : Config.Params) {a : Alg} {key key' : Bytes} (same : hmacKey P a key = hmacKey P a key')
    (scratch : Bytes) : keyedHmac P a key scratch = keyedHmac P a key' scratch := by
  rw [keyedHmac, keyedHmac, same]

/-- Settles O34: RESET leaves the context of `key'`, which the key and its digest share. -/
theorem hmacKeyFolding : Obligations.HmacKeyFolding := by
  intro s key folded present inv long digest
  refine ⟨_, _, exec_hmacReset_present (s := s.withOperands ..) present inv,
    exec_hmacReset_present (s := s.withOperands ..) present inv, ?_⟩
  refine keyedHmac_congr params ?_ s.hm.scratch
  rw [withOperands_a, withOperands_a, digest]
  exact (hmacKey_hash params long).symm

end Sys2Proof.Machine
end

section
/-! PROOFS. 42_pbkdf2.md, the commands of unit KDF (R200, R201, R203, R204): their words, and what CREATE, RESET, FINISH and DESTROY
answer on a present and on an absent context; O35, O36, O43 and O44. -/

namespace Sys2Proof

/-! ### The words of the commands without a tag (R98) -/

theorem decode_kdfUpdate {w : BitVec 32} : decode w = .ok .kdfUpdate ↔ w = 0x22000000#32 := decode_eq_ok_iff_eq rfl rfl
theorem decode_kdfFinish {w : BitVec 32} : decode w = .ok .kdfFinish ↔ w = 0x23000000#32 := decode_eq_ok_iff_eq rfl rfl
theorem decode_kdfDestroy {w : BitVec 32} : decode w = .ok .kdfDestroy ↔ w = 0x24000000#32 := decode_eq_ok_iff_eq rfl rfl

end Sys2Proof

namespace Sys2Proof.Machine

/-! ### The answers not stated yet with O52: CREATE, RESET, DESTROY of a present context, and the absent context -/

/-- Check 11 of R239, on either store. -/
theorem overCapacity_iff {P : Config.Params} {pw salt : Bytes} :
    overCapacity P pw salt = true ↔ P.pwCap < pw.length ∨ P.saltCap < salt.length := by simp [overCapacity]

theorem overCapacity_eq_false {P : Config.Params} {pw salt : Bytes} (hpw : pw.length ≤ P.pwCap)
    (hsalt : salt.length ≤ P.saltCap) : overCapacity P pw salt = false := by
  rw [← Bool.not_eq_true, overCapacity_iff]
  omega

section
variable {s : State}

theorem exec_kdfCreate_unrecognised {tag : BitVec 8} (unrecognised : 6 ≤ tag.toNat) :
    exec (.kdfCreate tag) s = .next (refusedWith .invalidAlgorithm s) := by
  rw [exec_kdfCreate, cmdKdfCreate, ofTag_none unrecognised]
  exact raise_refused _ s nofun

theorem exec_kdfCreate_noIterations (a : Alg) (noIterations : s.cmd.n = 0) :
    exec (.kdfCreate a.tag) s = .next (refusedWith .invalidArgument s) := by
  simp only [exec_kdfCreate, cmdKdfCreate, Alg.ofTag_tag, if_pos noIterations]
  exact raise_refused _ s nofun

theorem exec_kdfCreate_present (a : Alg) (iterations : s.cmd.n ≠ 0) (present : s.kdf.valid = true) :
    exec (.kdfCreate a.tag) s = .next (refusedWith .outOfMemory s) := by
  simp only [exec_kdfCreate, cmdKdfCreate, Alg.ofTag_tag, if_neg iterations, if_pos present]
  exact raise_refused _ s nofun

theorem exec_kdfCreate_overCapacity (a : Alg) (iterations : s.cmd.n ≠ 0) (absent : s.kdf.valid = false)
    (tooLong : params.pwCap < s.cmd.a.val.length ∨ params.saltCap < s.cmd.b.val.length) :
    exec (.kdfCreate a.tag) s = .next (refusedWith .outOfMemory s) := by
  simp only [exec_kdfCreate, cmdKdfCreate, Alg.ofTag_tag, if_neg iterations, absent, Bool.false_eq_true, if_false,
    if_pos (overCapacity_iff.mpr tooLong)]
  exact raise_refused _ s nofun

/-- The three new buffers are drawn as free bytes (R47, R200). -/
theorem exec_kdfCreate_absent (a : Alg) (iterations : s.cmd.n ≠ 0) (absent : s.kdf.valid = false)
    (hpw : s.cmd.a.val.length ≤ params.pwCap) (hsalt : s.cmd.b.val.length ≤ params.saltCap) :
    exec (.kdfCreate a.tag) s =
      .next (okWith []
        { s with
          kdf := keyedKdf params a s.cmd.a.val s.cmd.b.val s.cmd.n (freeBytes s.freeCount a.outSize)
            (freeBytes (s.freeCount + 1) a.outSize) (freeBytes (s.freeCount + 2) a.outSize)
          freeCount := s.freeCount + 3 }) := by
  simp only [exec_kdfCreate, cmdKdfCreate, Alg.ofTag_tag, if_neg iterations, absent, Bool.false_eq_true, if_false,
    overCapacity_eq_false hpw hsalt, complete_ok, kdfInit_keyed params _ a _ _ _ _ _ (freeBytes_length _ _)]

theorem exec_kdfReset_unrecognised {tag : BitVec 8} (unrecognised : 6 ≤ tag.toNat) :
    exec (.kdfReset tag) s = .next (refusedWith .invalidAlgorithm s) := by
  rw [exec_kdfReset, cmdKdfReset, ofTag_none unrecognised]
  exact raise_refused _ s nofun

/-- RESET, UPDATE and FINISH need the context (R233). -/
theorem exec_kdf_absent {i : Instr} (unit : i.unit = .kdf) (create : i.op ≠ .create) (destroy : i.op ≠ .destroy)
    (wf : i.wellFormed = true) (absent : s.kdf.valid = false) : exec i s = .next (refusedWith .invalidArgument s) := by
  have missing : ¬s.kdf.valid = true := by simp [absent]
  rw [← raise_refused .invalidArgument s nofun]
  cases i with
  | kdfCreate _ => exact absurd rfl create
  | kdfReset tag =>
    obtain ⟨a, recognised⟩ := Option.isSome_iff_exists.mp ((Alg.ofTag_isSome tag).trans wf)
    simp only [exec_kdfReset, cmdKdfReset, recognised, if_pos absent]
  | kdfUpdate | kdfFinish => exact if_neg missing
  | kdfDestroy => exact absurd rfl destroy
  | _ => exact absurd unit nofun

theorem exec_kdfReset_otherAlg {a : Alg} (present : s.kdf.valid = true) (other : a ≠ s.kdf.alg) :
    exec (.kdfReset a.tag) s = .next (refusedWith .invalidArgument s) := by
  simp only [exec_kdfReset, cmdKdfReset, Alg.ofTag_tag, present, Bool.true_eq_false, if_false, if_pos other]
  exact raise_refused _ s nofun

theorem exec_kdfReset_noIterations (present : s.kdf.valid = true) (noIterations : s.cmd.n = 0) :
    exec (.kdfReset s.kdf.alg.tag) s = .next (refusedWith .invalidArgument s) := by
  simp only [exec_kdfReset, cmdKdfReset, Alg.ofTag_tag, present, Bool.true_eq_false, if_false, ne_eq, not_true_eq_false,
    if_pos noIterations]
  exact raise_refused _ s nofun

theorem exec_kdfReset_overCapacity (present : s.kdf.valid = true) (iterations : s.cmd.n ≠ 0)
    (tooLong : params.pwCap < s.cmd.a.val.length ∨ params.saltCap < s.cmd.b.val.length) :
    exec (.kdfReset s.kdf.alg.tag) s = .next (refusedWith .outOfMemory s) := by
  simp only [exec_kdfReset, cmdKdfReset, Alg.ofTag_tag, present, Bool.true_eq_false, if_false, ne_eq, not_true_eq_false,
    if_neg iterations, if_pos (overCapacity_iff.mpr tooLong)]
  exact raise_refused _ s nofun

/-- On a good context `kdf_reset` is the context of the password, the salt and the iteration count, its buffers kept (R191). -/
theorem exec_kdfReset_present (present : s.kdf.valid = true) (inv : s.kdf.Inv params) (iterations : s.cmd.n ≠ 0)
    (hpw : s.cmd.a.val.length ≤ params.pwCap) (hsalt : s.cmd.b.val.length ≤ params.saltCap) :
    exec (.kdfReset s.kdf.alg.tag) s =
      .next (okWith []
        { s with
          kdf := keyedKdf params s.kdf.alg s.cmd.a.val s.cmd.b.val s.cmd.n s.kdf.hmac.scratch s.kdf.blk s.kdf.scr }) := by
  simp only [exec_kdfReset, cmdKdfReset, Alg.ofTag_tag, present, Bool.true_eq_false, if_false, ne_eq, not_true_eq_false,
    if_neg iterations, overCapacity_eq_false hpw hsalt, Bool.false_eq_true, complete_ok,
    kdfReset_present params _ _ _ present (inv.good present).formed]

theorem exec_kdfDestroy_present (present : s.kdf.valid = true) : exec .kdfDestroy s = .next (okWith [] (dropKdf s)) := by
  rw [exec_kdfDestroy, cmdKdfDestroy, if_pos present, complete_ok]

end

/-! ### The obligations -/

/-- Settles O35: the words of the row, then the checks of R200 in order; the new buffers are drawn as free bytes. -/
theorem kdfCreateEffect : Obligations.KdfCreateEffect := fun _ =>
  ⟨decode_eq_ok_iff_selects (r := ⟨.kdf, .create, 0x20000000#32, 0xFF00FFFF#32⟩) (by decide) rfl,
    fun _ => exec_kdfCreate_unrecognised, exec_kdfCreate_noIterations, exec_kdfCreate_present, exec_kdfCreate_overCapacity,
    fun a iterations absent hpw hsalt => ⟨_, _, _, _, freeBytes_length _ a.outSize, freeBytes_length _ a.outSize,
      freeBytes_length _ a.outSize, exec_kdfCreate_absent a iterations absent hpw hsalt⟩⟩

/-- Settles O36: the words of the row, then the checks of R201 in order, each of which changes nothing. -/
theorem kdfResetEffect : Obligations.KdfResetEffect := fun _ =>
  ⟨decode_eq_ok_iff_selects (r := ⟨.kdf, .reset, 0x21000000#32, 0xFF00FFFF#32⟩) (by decide) rfl,
    fun _ => exec_kdfReset_unrecognised, fun a => exec_kdf_absent rfl nofun nofun (tagInRange_tag a),
    fun _ => exec_kdfReset_otherAlg, exec_kdfReset_noIterations, exec_kdfReset_overCapacity, exec_kdfReset_present⟩

/-- Settles O43: FINISH answers `Ok` on a present context and is refused on an absent one. -/
theorem kdfFinishEffect : Obligations.KdfFinishEffect := fun _ =>
  ⟨fun _ => decode_kdfFinish, exec_kdfFinish_present, exec_kdf_absent rfl nofun nofun rfl⟩

/-- Settles O44: the free values of the dropped context are read back from the state afterwards. -/
theorem kdfDestroyEffect : Obligations.KdfDestroyEffect := fun _ =>
  ⟨fun _ => decode_kdfDestroy, fun present => ⟨_, exec_kdfDestroy_present present, rfl, rfl, rfl, rfl, rfl⟩,
    exec_kdfDestroy_absent⟩

end Sys2Proof.Machine
end

section
/-! PROOFS. 42_pbkdf2.md, `KDF.UPDATE` on a good context: the counter and the cursor as the position in the stream (R196), the bytes
and the context of one request (R202), the first byte of a block (R193) and the output of CREATE and one UPDATE (R195); O37, O38,
O39 and O42. -/

namespace Sys2Proof.Machine

open Config (Params)

/-! ### The counter and the cursor (R196) -/

section
variable {P : Params}

/-- No block derived: the cursor is at the end, since the invariant gives the bytes left to a block of index 1 or more. -/
theorem idx_of_ctr_zero {k : KdfCtx} (hk : k.Sound P) (noBlock : intBe k.ctr = 0) : k.idx = k.alg.outSize := by
  by_contra hne
  have := (hk.block (lt_of_le_of_ne hk.cursor hne)).1
  omega

theorem position_of_ctr_zero {k : KdfCtx} (hk : k.Sound P) (noBlock : intBe k.ctr = 0) : k.position = 0 := by
  rw [KdfCtx.position, noBlock, idx_of_ctr_zero hk noBlock, Nat.zero_mul, Nat.zero_add, Nat.sub_self]

theorem position_of_ctr_succ {k : KdfCtx} {c : Nat} (block : intBe k.ctr = c + 1) :
    k.position = c * k.alg.outSize + k.idx := by
  rw [KdfCtx.position, block, Nat.add_mul]
  omega

/-- `ceil(e / O)` for a position `e` that ends in block `c + 1`. -/
theorem ceil_div_block {c o idx : Nat} (atLeastOne : 1 ≤ idx) (atMost : idx ≤ o) : (c * o + idx + o - 1) / o = c + 1 := by
  rw [show c * o + idx + o - 1 = idx - 1 + (c + 1) * o by rw [Nat.add_mul]; omega,
    Nat.add_mul_div_right _ _ (by omega), Nat.div_eq_of_lt (by omega), Nat.zero_add]

/-! ### One request (R194, R202) -/

theorem advanced_within {k : KdfCtx} {w : Nat} (within : k.idx + w ≤ k.alg.outSize) :
    k.advanced P w = { k with idx := k.idx + w } := if_pos within

theorem advanced_past {k : KdfCtx} {w : Nat} (past : k.alg.outSize < k.idx + w) :
    k.advanced P w =
      derivedKdf P k ((k.position + w + k.alg.outSize - 1) / k.alg.outSize)
        (k.position + w - ((k.position + w + k.alg.outSize - 1) / k.alg.outSize - 1) * k.alg.outSize) :=
  if_neg (Nat.not_le.mpr past)

/-- The return of an exhausted request: a failing one that delivers bytes (R236, R241). -/
theorem returnStatus_exhausted (out : Bytes) (s : State) :
    returnStatus .sourceExhausted out s =
      { refusedWith .sourceExhausted s with result := some { st := .sourceExhausted, out := out } } := by
  simp [returnStatus, refusedWith, Status.afterReturn]

/-- The return of a request, by whether the stream holds what it wants. -/
theorem returnStatus_emitted (enough : Prop) [Decidable enough] (out : Bytes) (s : State) :
    returnStatus (if enough then .ok else .sourceExhausted) out s =
      if enough then okWith out s
      else { refusedWith .sourceExhausted s with result := some { st := .sourceExhausted, out := out } } := by
  split
  · exact returnStatus_ok out s
  · exact returnStatus_exhausted out s

/-! ### The first byte of a block (R192, R193) -/

/-- One byte wanted where the block is used up: `T_i` for the next counter value, and its first byte. -/
theorem kdfEmit_nextBlock {k : KdfCtx} (hk : k.Sound P) (usedUp : k.idx = k.alg.outSize) (hlt : intBe k.ctr + 1 < 2 ^ 32) :
    kdfEmit P 1 k =
      (.ok, [byteAt (derivedBlock P k.alg k.pw k.salt k.iter.toNat (intBe k.ctr + 1)) 0], derivedKdf P k (intBe k.ctr + 1) 1) := by
  have refill : kdfRefill P k = (derivedKdf P k (intBe k.ctr + 1) 0, false) := by
    rw [← deriveNext P hk hlt, kdfRefill, if_pos usedUp, ctrInc_ok hlt]
    rfl
  simp only [kdfEmit, refill]
  rfl

theorem byteAt_zero {s : Bytes} (nonempty : 0 < s.length) : [byteAt s 0] = s.take 1 := by
  cases s with
  | nil => exact absurd nonempty (lt_irrefl 0)
  | cons b s => rfl

/-! ### CREATE and one UPDATE (R195) -/

/-- One request wants no more than the whole stream. -/
theorem toNat_le_streamLength (n : BitVec 32) (a : Alg) : n.toNat ≤ streamLength a :=
  (Nat.le_sub_one_of_lt n.isLt).trans (Nat.le_mul_of_pos_right _ a.outSize_pos)

/-- `kdf_emit` from the start of the stream, as far as one request can go. -/
theorem kdfEmit_keyedKdf (a : Alg) {pw salt : Bytes} {iters : BitVec 32} {scratch blk scr : Bytes} (n : BitVec 32)
    (good : (keyedKdf P a pw salt iters scratch blk scr).Good P) :
    (kdfEmit P n.toNat (keyedKdf P a pw salt iters scratch blk scr)).1 = .ok
      ∧ (kdfEmit P n.toNat (keyedKdf P a pw salt iters scratch blk scr)).2.1
        = derivedBytes P a pw salt iters.toNat 0 n.toNat := by
  have enough : n.toNat ≤ streamLength (keyedKdf P a pw salt iters scratch blk scr).alg := toNat_le_streamLength n a
  obtain ⟨status, bytes, -, -, -, -⟩ := kdfEmit_spec P n.toNat good
  rw [keyedKdf_position, Nat.zero_add, if_pos enough] at status
  rw [keyedKdf_position, Nat.sub_zero, min_eq_left enough] at bytes
  exact ⟨status, bytes⟩

end

/-! ### The obligations -/

/-- Settles O37: on a good context `kdf_emit` is `Emitted`, whose clauses are read off here. -/
theorem kdfUpdateEmitsStream : Obligations.KdfUpdateEmitsStream := by
  refine fun s => ⟨fun _ => decode_kdfUpdate, fun present inv => ?_, exec_kdf_absent rfl nofun nofun rfl⟩
  intro k o want left w out i
  have good : k.Good params := inv.good present
  have start : k.position ≤ streamLength k.alg := position_le params good.toSound
  have enough : k.position + want ≤ streamLength k.alg ↔ want ≤ left := (Nat.le_sub_iff_add_le' start).symm
  have after : k.position + w = min (k.position + want) (streamLength k.alg) := by omega
  obtain ⟨status, bytes, state, good', position, exhausted⟩ := kdfEmit_spec params want good
  simp only [enough] at status
  have valid' : (kdfEmit params want k).2.2.valid = true := (kdfEmit_kept params want k).1.trans present
  refine ⟨(kdfEmit params want k).2.2, ?_, fun within => state.trans (advanced_within within),
    fun past => state.trans (advanced_past past), position.trans after.symm, good'.inv valid', fun short => ?_,
    fun nothing => ?_⟩
  · rw [exec_kdfUpdate_present s present, status, bytes, returnStatus_emitted]
  · have failed : (kdfEmit params want k).1 ≠ .ok := by
      rw [status, if_neg (Nat.not_le.mpr short)]
      nofun
    exact (exhausted failed).symm
  · rw [nothing]
    rfl

/-- Settles O38: `kdf_emit` of one byte, on the used up block. -/
theorem kdfDerivesNextBlock : Obligations.KdfDerivesNextBlock := by
  intro s present inv usedUp hlt one i
  have emitted := kdfEmit_nextBlock (inv.good present).toSound usedUp hlt
  have wanted : s.cmd.n.toNat = 1 := congrArg BitVec.toNat one
  refine ⟨_, exec_kdfUpdate_present s present, ?_⟩
  rw [wanted, emitted]
  refine ⟨rfl, rfl, rfl, rfl, ?_⟩
  rw [returnStatus_result, byteAt_zero]
  · rfl
  · rw [derivedBlock_length]
    exact Alg.outSize_pos _

/-- Settles O39, by the counter: 0, with nothing emitted, or the index of the block the position ends in. -/
theorem kdfCursorIsPosition : Obligations.KdfCursorIsPosition := by
  intro s present inv k o
  have good : k.Good params := inv.good present
  cases block : intBe k.ctr with
  | zero =>
    have start := position_of_ctr_zero good.toSound block
    exact ⟨fun _ => ⟨rfl, idx_of_ctr_zero good.toSound block⟩, fun later => absurd start later.ne'⟩
  | succ c =>
    have hpos : k.position = c * o + k.idx := position_of_ctr_succ block
    have lazy := good.lazy
    refine ⟨fun start => by omega, fun _ => ⟨?_, ?_⟩⟩
    · rw [hpos, ceil_div_block lazy good.cursor]
    · rw [hpos, Nat.add_sub_cancel, Nat.add_sub_cancel_left]

/-- Settles O42: CREATE makes the context at position 0, and UPDATE emits from there. -/
theorem pbkdf2OfPassword : Obligations.Pbkdf2OfPassword := by
  intro s a c1 c2 absent create iterations hpw hsalt update
  have word : decode c1.w = .ok (.kdfCreate a.tag) := decode_eq_ok_iff.mpr ⟨tagInRange_tag a, create⟩
  obtain ⟨t₁, run₁, events₁, scratch, blk, scr, kdf₁, good⟩ : ∃ t,
      runSteps 2 (s.withEvents [.command c1, .command c2]) = runSteps 1 t ∧ t.events = [.command c2]
      ∧ ∃ scratch blk scr, t.kdf = keyedKdf params a c1.a.val c1.b.val c1.n scratch blk scr
        ∧ (keyedKdf params a c1.a.val c1.b.val c1.n scratch blk scr).Good params :=
    ⟨_, runSteps_command (s := s.withEvents _) rfl word (exec_kdfCreate_absent a iterations absent hpw hsalt) 1, rfl, _, _, _, rfl,
      keyedKdf_good params a hpw hsalt iterations (freeBytes_length _ _) (freeBytes_length _ _) (freeBytes_length _ _)⟩
  obtain ⟨t₂, run₂, result₂⟩ : ∃ t, runSteps 1 t₁ = .next t
      ∧ t.result = some { st := (kdfEmit params c2.n.toNat t₁.kdf).1, out := (kdfEmit params c2.n.toNat t₁.kdf).2.1 } :=
    ⟨_, runSteps_command events₁ (decode_kdfUpdate.mpr update) (exec_kdfUpdate_present _ (by rw [kdf₁]; rfl)) 0, rfl⟩
  obtain ⟨status, bytes⟩ := kdfEmit_keyedKdf a c2.n good
  rw [kdf₁, status, bytes] at result₂
  exact ⟨t₂, run₁.trans run₂, result₂⟩

end Sys2Proof.Machine
end

section
/-! PROOFS. 42_pbkdf2.md, `KDF.UPDATE` on any present context, good or not: an exhausted counter stays so (R197), two requests are one
(R196), and how many bytes a request returns (R202); O40, O41 and O53. -/

namespace Sys2Proof.Machine

open Config (Params)

/-! ### `kdf_emit` turn by turn (R194) -/

/-- A turn finds the counter exhausted, or has a block with bytes left. -/
theorem kdfRefill_cases (P : Params) (k : KdfCtx) :
    (∃ k', kdfRefill P k = (k', true)) ∨ ∃ k', kdfRefill P k = (k', false) := by
  cases kdfRefill P k with
  | mk k' exhausted =>
    cases exhausted with
    | true => exact .inl ⟨k', rfl⟩
    | false => exact .inr ⟨k', rfl⟩

section
variable {P : Params} {k k' : KdfCtx}

/-- A turn that finds the counter exhausted ends the request. -/
theorem kdfEmit_succ_of_exhausted (refill : kdfRefill P k = (k', true)) (w : Nat) :
    kdfEmit P (w + 1) k = (.sourceExhausted, [], k') := by
  simp only [kdfEmit, refill, if_true]

/-- A turn that emits a byte, and the turns after it. -/
theorem kdfEmit_succ_of_refilled (refill : kdfRefill P k = (k', false)) (w : Nat) :
    kdfEmit P (w + 1) k =
      ((kdfEmit P w { k' with idx := k'.idx + 1 }).1,
        byteAt k'.blk k'.idx :: (kdfEmit P w { k' with idx := k'.idx + 1 }).2.1,
        (kdfEmit P w { k' with idx := k'.idx + 1 }).2.2) := by
  simp only [kdfEmit, refill, Bool.false_eq_true, if_false]

/-! ### Exhaustion (R192, R197) -/

/-- A saturated counter is exhausted and keeps its value. -/
theorem ctrInc_saturated (top : k.ctr = List.replicate 4 0xFF#8) : ctrInc k = (k, true) := by
  refine ctrInc_exhausted ?_ ?_ <;> rw [top]
  · rfl
  · decide

/-- Only an exhausted counter ends a request, and it is left saturated, with the block used up. -/
theorem kdfRefill_exhausted (refill : kdfRefill P k = (k', true)) :
    k'.idx = k'.alg.outSize ∧ k'.ctr = List.replicate 4 0xFF#8 := by
  by_cases usedUp : k.idx = k.alg.outSize
  · rw [kdfRefill, if_pos usedUp, ctrInc] at refill
    split at refill
    · obtain rfl : _ = k' := congrArg Prod.fst refill
      exact ⟨usedUp, rfl⟩
    · cases congrArg Prod.snd refill
  · rw [kdfRefill, if_neg usedUp] at refill
    cases congrArg Prod.snd refill

/-- The context an exhausted request leaves is exhausted, and refilling it changes nothing. -/
theorem kdfRefill_exhausted_again (refill : kdfRefill P k = (k', true)) : kdfRefill P k' = (k', true) := by
  obtain ⟨usedUp, top⟩ := kdfRefill_exhausted refill
  rw [kdfRefill, if_pos usedUp, ctrInc_saturated top]
  rfl

/-- A request on an exhausted context. -/
theorem kdfEmit_of_exhausted (refill : kdfRefill P k = (k, true)) (n : Nat) :
    kdfEmit P n k = (if n = 0 then .ok else .sourceExhausted, [], k) := by
  cases n with
  | zero => rfl
  | succ w => exact kdfEmit_succ_of_exhausted refill w

theorem kdfRefill_after_exhaustion {n : Nat} (short : (kdfEmit P n k).1 = .sourceExhausted) :
    kdfRefill P (kdfEmit P n k).2.2 = ((kdfEmit P n k).2.2, true) := by
  induction n generalizing k with
  | zero => cases short
  | succ w ih =>
    obtain ⟨k₁, exhausted⟩ | ⟨k₁, refilled⟩ := kdfRefill_cases P k
    · rw [kdfEmit_succ_of_exhausted exhausted]
      exact kdfRefill_exhausted_again exhausted
    · rw [kdfEmit_succ_of_refilled refilled] at short ⊢
      exact ih short

/-! ### Two requests in a row (R196) -/

/-- The bytes and the context of one request of `m + n` bytes are those of two requests. -/
theorem kdfEmit_add (m n : Nat) :
    (kdfEmit P (m + n) k).2 =
      ((kdfEmit P m k).2.1 ++ (kdfEmit P n (kdfEmit P m k).2.2).2.1, (kdfEmit P n (kdfEmit P m k).2.2).2.2) := by
  induction m generalizing k with
  | zero => rw [Nat.zero_add]; rfl
  | succ w ih =>
    rw [Nat.add_right_comm]
    obtain ⟨k₁, exhausted⟩ | ⟨k₁, refilled⟩ := kdfRefill_cases P k
    · rw [kdfEmit_succ_of_exhausted exhausted, kdfEmit_succ_of_exhausted exhausted,
        kdfEmit_of_exhausted (kdfRefill_exhausted_again exhausted)]
      rfl
    · rw [kdfEmit_succ_of_refilled refilled, kdfEmit_succ_of_refilled refilled, ih]
      rfl

/-! ### How many bytes a request returns (R202) -/

theorem kdfEmit_length (n : Nat) :
    ((kdfEmit P n k).1 = .ok → (kdfEmit P n k).2.1.length = n)
      ∧ ((kdfEmit P n k).1 = .sourceExhausted → (kdfEmit P n k).2.1.length < n) := by
  induction n generalizing k with
  | zero => exact ⟨fun _ => rfl, nofun⟩
  | succ w ih =>
    obtain ⟨k₁, exhausted⟩ | ⟨k₁, refilled⟩ := kdfRefill_cases P k
    · rw [kdfEmit_succ_of_exhausted exhausted]
      exact ⟨nofun, fun _ => Nat.succ_pos w⟩
    · obtain ⟨full, short⟩ := ih (k := { k₁ with idx := k₁.idx + 1 })
      rw [kdfEmit_succ_of_refilled refilled]
      exact ⟨fun ok => congrArg Nat.succ (full ok), fun exhausted => Nat.succ_lt_succ (short exhausted)⟩

end

/-! ### The obligations -/

/-- One request on a present context: the bytes it returns and the context it leaves (R202). -/
theorem exec_kdfUpdate_request {s : State} (a b : Operand) (n : BitVec 32) (present : s.kdf.valid = true) :
    ∃ t r, exec .kdfUpdate (s.withOperands a b n) = .next t ∧ t.result = some r
      ∧ r.out = (kdfEmit params n.toNat s.kdf).2.1 ∧ t.kdf = (kdfEmit params n.toNat s.kdf).2.2 :=
  ⟨_, _, exec_kdfUpdate_present (s.withOperands a b n) present, rfl, rfl, rfl⟩

/-- Settles O40: `kdf_emit` of a sum, on whatever context is there. -/
theorem kdfSplitRequest : Obligations.KdfSplitRequest := by
  intro s n1 n2 present small
  have sum : (n1 + n2).toNat = n1.toNat + n2.toNat := BitVec.toNat_add_of_lt small
  obtain ⟨t₁, r₁, answer₁, result₁, out₁, kdf₁⟩ := exec_kdfUpdate_request s.cmd.a s.cmd.b n1 present
  have present₁ : t₁.kdf.valid = true := by rw [kdf₁, (kdfEmit_kept ..).1, present]
  obtain ⟨t₂, r₂, answer₂, result₂, out₂, kdf₂⟩ := exec_kdfUpdate_request s.cmd.a s.cmd.b n2 present₁
  obtain ⟨u, r, answer, result, out, kdf⟩ := exec_kdfUpdate_request s.cmd.a s.cmd.b (n1 + n2) present
  refine ⟨t₁, t₂, u, r₁, r₂, r, answer₁, result₁, answer₂, result₂, answer, result, ?_, ?_⟩
  · rw [out, out₁, out₂, kdf₁, sum, kdfEmit_add]
  · rw [kdf, kdf₂, kdf₁, sum, kdfEmit_add]

/-- `KDF.UPDATE` of an exhausted context (R197). -/
theorem exec_kdfUpdate_exhausted {s : State} (present : s.kdf.valid = true) (refill : kdfRefill params s.kdf = (s.kdf, true)) :
    exec .kdfUpdate s = .next (if s.cmd.n = 0 then okWith [] s else refusedWith .sourceExhausted s) := by
  split
  · next nothing => exact exec_kdfUpdate_zero present nothing
  · next wanted =>
    have wanted' : s.cmd.n.toNat ≠ 0 := fun h => wanted (BitVec.eq_of_toNat_eq h)
    rw [exec_kdfUpdate_present s present, kdfEmit_of_exhausted refill, if_neg wanted']
    exact congrArg Host.Outcome.next (returnStatus_refused .sourceExhausted s nofun)

/-- Settles O41: the context of an exhausted request is exhausted. -/
theorem kdfExhaustionSticky : Obligations.KdfExhaustionSticky := by
  intro s t out present answer exhausted n
  obtain rfl := next_inj ((exec_kdfUpdate_present s present).symm.trans answer)
  have short : (kdfEmit params s.cmd.n.toNat s.kdf).1 = .sourceExhausted := congrArg Reply.st (Option.some.inj exhausted)
  have present' : (kdfEmit params s.cmd.n.toNat s.kdf).2.2.valid = true := (kdfEmit_kept _ _ _).1.trans present
  exact exec_kdfUpdate_exhausted (s := State.withOperands _ _ _ n) present' (kdfRefill_after_exhaustion short)

/-! ### The lengths of the outputs -/

/-- What a command answers is one state, so it has one result. -/
theorem reply_unique {o : Outcome} {t t' : State} {r r' : Reply} (h : o = .next t) (h' : o = .next t')
    (result : t.result = some r) (result' : t'.result = some r') : r = r' := by
  obtain rfl := next_inj (h.symm.trans h')
  exact Option.some.inj (result.symm.trans result')

/-- Settles O53, by the ways a command ends: only FINISH of DIG and HMAC and `KDF.UPDATE` have an output, each that of its
internal operation. -/
theorem outputLengths : Obligations.OutputLengths := by
  intro i s hdig hhm
  cases exec_cases i s with
  | refused st ok exhausted _ _ answer =>
    exact ⟨_, _, answer, rfl, fun _ h => absurd h ok, fun _ h => absurd h ok, fun _ h => absurd h ok,
      fun _ h => absurd h exhausted, fun _ _ _ => rfl, fun _ _ => rfl⟩
  | warned answer op =>
    have other : ∀ j : Instr, j.op ≠ .destroy → i ≠ j := fun j hj h => hj (h ▸ op)
    exact ⟨_, _, answer, rfl, fun h => absurd h (other _ nofun), fun h => absurd h (other _ nofun),
      fun h => absurd h (other _ nofun), fun h => absurd h (other _ nofun), fun _ _ _ => rfl, fun _ _ => rfl⟩
  | onDig out _ _ unit answer _ _ present _ output =>
    have other : ∀ j : Instr, j.unit ≠ .dig → i ≠ j := fun j hj h => hj (h ▸ unit)
    refine ⟨_, _, answer, rfl, ?_, fun h => absurd h (other _ nofun), fun h => absurd h (other _ nofun), fun _ => nofun,
      fun h _ _ => output h, fun failed => absurd rfl failed⟩
    rintro rfl -
    have hv := present nofun
    rw [reply_unique answer (exec_digFinish_present hv) rfl rfl]
    exact digFinish_out_length params (hdig.good hv)
  | onHmac out _ _ unit answer _ _ present ready _ _ output =>
    have other : ∀ j : Instr, j.unit ≠ .hmac → i ≠ j := fun j hj h => hj (h ▸ unit)
    refine ⟨_, _, answer, rfl, fun h => absurd h (other _ nofun), ?_, fun h => absurd h (other _ nofun), fun _ => nofun,
      fun _ h _ => output h, fun failed => absurd rfl failed⟩
    rintro rfl -
    have hv := present nofun
    rw [reply_unique answer (exec_hmacFinish_ready hv (ready (.inl rfl))) rfl rfl]
    exact hmacFinish_out_length params (hhm.good hv)
  | onKdf st out _ _ unit answer _ _ present status _ output =>
    have other : ∀ j : Instr, j.unit ≠ .kdf → i ≠ j := fun j hj h => hj (h ▸ unit)
    refine ⟨_, _, answer, rfl, fun h => absurd h (other _ nofun), fun h => absurd h (other _ nofun), ?_, ?_,
      fun _ _ h => output h, fun notOk notExhausted => ?_⟩
    · rintro rfl ok
      have reply := reply_unique answer (exec_kdfUpdate_present s (present nofun)) rfl rfl
      rw [reply] at ok ⊢
      exact (kdfEmit_length _).1 ok
    · rintro rfl exhausted
      have reply := reply_unique answer (exec_kdfUpdate_present s (present nofun)) rfl rfl
      rw [reply] at exhausted ⊢
      exact (kdfEmit_length _).2 exhausted
    · obtain ok | ⟨exhausted, -⟩ := status
      · exact absurd ok notOk
      · exact absurd exhausted notExhausted

end Sys2Proof.Machine
end

section
/-! PROOFS. 60_exceptions.md, the status return: that a failure changes nothing (R240), the return step (R241), the warning (R245),
who raises what (R237), and that the idle block holds its state (R252); O45 to O48 and O7. -/

namespace Sys2Proof.Machine

/-! ### What a command word returns -/

theorem illegalStatus_ne_ok (e : DecodeError) : illegalStatus e ≠ .ok := by cases e <;> nofun

/-- An illegal word changes `STATUS` and the result only (R99, R240). -/
theorem runWord_refused {w : BitVec 32} {e : DecodeError} (h : decode w = .error e) (s : State) :
    runWord w s = .next (refusedWith (illegalStatus e) s) := by
  rw [runWord_illegal h, returnStatus_refused _ s (illegalStatus_ne_ok e)]

/-- Surfacing the warning leaves `ERR` alone (R245). -/
theorem statusBeforeReturn_err (i : Instr) (s : State) : (statusBeforeReturn i s).err = s.status.err := by
  rw [statusBeforeReturn]
  split <;> rfl

/-- `STATUS` after a command word, legal or not (R241): the status return of the reply's status, made on a register that has the
`ERR` of before. -/
theorem runWord_returns (w : BitVec 32) (s : State) :
    ∃ t r before, runWord w s = .next t ∧ t.result = some r ∧ t.status = Status.afterReturn r.st before
      ∧ before.err = s.status.err := by
  cases word : decode w with
  | error e => exact ⟨_, _, s.status, runWord_illegal word s, rfl, rfl, rfl⟩
  | ok i =>
    obtain ⟨t, answer⟩ := exec_answers i s
    obtain ⟨r, result, status, -, -⟩ := exec_status answer
    exact ⟨t, r, _, (runWord_legal word s).trans answer, result, status, statusBeforeReturn_err i s⟩

/-! ### DESTROY of an absent unit (R42, R245) -/

/-- A unit is absent when its `valid` bit is 0 (R40). -/
theorem unitPhase_eq_absent {u : UnitTag} {s : State} : unitPhase u s = .absent ↔ validOf u.code s = false := by
  cases u with
  | dig => cases valid : s.dig.valid <;> simp [unitPhase, digPhase, validOf, UnitTag.code, valid]
  | hmac =>
    cases valid : s.hm.valid <;> cases fin : s.hm.fin <;> simp [unitPhase, hmacPhase, validOf, UnitTag.code, valid, fin]
  | kdf => cases valid : s.kdf.valid <;> simp [unitPhase, kdfPhase, validOf, UnitTag.code, valid]

theorem exec_destroy_absent {i : Instr} {s : State} (destroy : i.op = .destroy) (absent : unitPhase i.unit s = .absent) :
    exec i s = .next (okWith [] (surfaceWarning s)) := by
  rw [unitPhase_eq_absent] at absent
  cases i with
  | digDestroy => exact exec_digDestroy_absent absent
  | hmacDestroy => exact exec_hmacDestroy_absent absent
  | kdfDestroy => exact exec_kdfDestroy_absent absent
  | _ => cases destroy

/-! ### The obligations -/

/-- Settles O45, by the ways a command ends: a refusal writes `STATUS` and the result, the others return `Ok` or, from
`KDF.UPDATE`, `SourceExhausted`. -/
theorem failureChangesNothing : Obligations.FailureChangesNothing := by
  intro w s
  cases word : decode w with
  | error e => exact ⟨_, _, runWord_refused word s, rfl, fun _ _ => rfl⟩
  | ok i =>
    rw [runWord_legal word]
    cases exec_cases i s with
    | refused st _ _ _ _ answer => exact ⟨_, _, answer, rfl, fun _ _ => rfl⟩
    | warned answer => exact ⟨_, _, answer, rfl, fun failed => absurd rfl failed⟩
    | onDig _ _ _ _ answer => exact ⟨_, _, answer, rfl, fun failed => absurd rfl failed⟩
    | onHmac _ _ _ _ answer => exact ⟨_, _, answer, rfl, fun failed => absurd rfl failed⟩
    | onKdf st _ _ _ _ answer _ _ _ status =>
      refine ⟨_, _, answer, rfl, fun failed notExhausted => ?_⟩
      obtain ok | ⟨exhausted, -⟩ := status
      · exact absurd ok failed
      · exact absurd exhausted notExhausted

/-- Settles O46: the return step writes `CODE`, and `ERR` only where the status is not `Ok`. -/
theorem statusReturn : Obligations.StatusReturn := by
  intro w s
  obtain ⟨t, r, before, answer, result, status, err⟩ := runWord_returns w s
  refine ⟨t, r, answer, result, ?_, fun failed => ?_, fun ok => ?_⟩
  · rw [status, Status.afterReturn]
  · simp [status, Status.afterReturn, failed]
  · simp [status, Status.afterReturn, ok, err]

/-- Settles O47: `STATUS` before the return step has the warning exactly where DESTROY finds its unit absent. -/
theorem warningOnlyByDestroy : Obligations.WarningOnlyByDestroy := by
  intro w s
  cases word : decode w with
  | error e => exact ⟨_, runWord_refused word s, nofun, fun _ => rfl⟩
  | ok i =>
    rw [runWord_legal word]
    by_cases warns : i.op = .destroy ∧ unitPhase i.unit s = .absent
    · exact ⟨_, exec_destroy_absent warns.1 warns.2, fun _ _ _ _ => ⟨rfl, rfl, rfl⟩, fun other => absurd warns (other i rfl)⟩
    · obtain ⟨t, answer⟩ := exec_answers i s
      obtain ⟨r, -, status, -, -⟩ := exec_status answer
      refine ⟨t, answer, fun j same destroy absent => ?_, fun _ => ?_⟩
      · cases same
        exact absurd ⟨destroy, absent⟩ warns
      · rw [status, statusBeforeReturn, if_neg warns, Status.afterReturn]

/-- Unit HMAC is FINISHED when it exists and its `fin` bit is 1 (R40). -/
theorem hmacPhase_eq_finished {s : State} : hmacPhase s = .finished ↔ s.hm.valid = true ∧ s.hm.fin = true := by
  cases valid : s.hm.valid <;> cases fin : s.hm.fin <;> simp [hmacPhase, valid, fin]

/-- `Error` is for unit HMAC alone (R237). -/
theorem not_hmac_misuse {i : Instr} {s : State} (unit : i.unit ≠ .hmac) :
    ¬((i = .hmacUpdate ∨ i = .hmacFinish) ∧ hmacPhase s = .finished) := by
  rintro ⟨rfl | rfl, -⟩ <;> exact unit rfl

/-- Settles O48, by the ways a command ends: a refusal says when its status is `Error`, and a command that returns `Ok` is no
UPDATE or FINISH of a finished HMAC. -/
theorem whoRaisesWhat : Obligations.WhoRaisesWhat := by
  intro i s t r h result
  cases exec_cases i s with
  | refused st _ exhausted keySize ivSize answer error =>
    rw [reply_unique h answer result rfl]
    exact ⟨keySize, ivSize, fun h => absurd h exhausted, error⟩
  | warned answer op =>
    rw [reply_unique h answer result rfl]
    refine ⟨nofun, nofun, nofun, nofun, ?_⟩
    rintro ⟨rfl | rfl, -⟩ <;> cases op
  | onDig _ _ _ unit answer =>
    rw [reply_unique h answer result rfl]
    exact ⟨nofun, nofun, nofun, nofun, fun misuse => absurd misuse (not_hmac_misuse (by simp [unit]))⟩
  | onHmac _ _ _ _ answer _ _ _ ready =>
    rw [reply_unique h answer result rfl]
    refine ⟨nofun, nofun, nofun, nofun, ?_⟩
    rintro ⟨misused, finished⟩
    have notFinished : s.hm.fin = false := ready (by obtain rfl | rfl := misused <;> simp [Instr.op])
    simp [hmacPhase_eq_finished, notFinished] at finished
  | onKdf _ _ _ _ unit answer _ _ _ status =>
    rw [reply_unique h answer result rfl]
    have other := not_hmac_misuse (i := i) (s := s) (by simp [unit])
    obtain rfl | ⟨rfl, update⟩ := status
    · exact ⟨nofun, nofun, nofun, nofun, fun misuse => absurd misuse other⟩
    · exact ⟨nofun, nofun, fun _ => update, nofun, fun misuse => absurd misuse other⟩

/-- Settles O7: the step of a block with no event is the identity. -/
theorem idleStepHoldsState : Obligations.IdleStepHoldsState := fun _ => step_no_event

end Sys2Proof.Machine
end

section
/-! PROOFS. 60_exceptions.md, the priority of the checks (R239): the table of `firstFailingCheck` read word by word, as the decoder
reads it, and then command by command, as the command rules list their checks; O58. -/

namespace Sys2Proof

theorem Alg.tag_inj {a b : Alg} : a.tag = b.tag ↔ a = b := by
  refine ⟨fun h => ?_, congrArg Alg.tag⟩
  rw [← Option.some_inj, ← Alg.ofTag_tag, ← Alg.ofTag_tag, h]

/-- A tag in the range of R94 is that of an algorithm. -/
theorem exists_alg_of_tagInRange {tag : BitVec 8} (h : tagInRange tag = true) : ∃ a : Alg, tag = a.tag := by
  rw [← Alg.ofTag_isSome, Option.isSome_iff_exists] at h
  obtain ⟨a, recognised⟩ := h
  exact ⟨a, Alg.ofTag_some recognised⟩

end Sys2Proof

namespace Sys2Proof.Machine

open Config (Params)

/-! ### The table, command by command -/

/-- Checks 6 to 13 of R239 as they apply to one command: the first that fails, `Ok` where none does. -/
def commandCheck (P : Params) (i : Instr) (s : State) : StatusCode :=
  match i with
  | .digCreate _ => if s.dig.valid then .outOfMemory else .ok
  | .digReset | .digUpdate | .digFinish => if s.dig.valid = false then .invalidArgument else .ok
  | .hmacCreate _ => if s.hm.valid then .outOfMemory else .ok
  | .hmacReset => if s.hm.valid = false then .invalidArgument else .ok
  | .hmacUpdate | .hmacFinish =>
    if s.hm.valid = false then .invalidArgument
    else if s.hm.fin then .error
    else .ok
  | .kdfCreate _ =>
    if opN s = 0 then .invalidArgument
    else if s.kdf.valid then .outOfMemory
    else if overCapacity P (opA s) (opB s) then .outOfMemory
    else .ok
  | .kdfReset tag =>
    if s.kdf.valid = false then .invalidArgument
    else if tag ≠ s.kdf.alg.tag then .invalidArgument
    else if opN s = 0 then .invalidArgument
    else if overCapacity P (opA s) (opB s) then .outOfMemory
    else .ok
  | .kdfUpdate =>
    if s.kdf.valid = false then .invalidArgument
    else if streamLength s.kdf.alg - s.kdf.position < (opN s).toNat then .sourceExhausted
    else .ok
  | .kdfFinish => if s.kdf.valid = false then .invalidArgument else .ok
  | .digDestroy | .hmacDestroy | .kdfDestroy => .ok

section
variable {P : Params} {w : BitVec 32} {s : State}

theorem firstFailingCheck_reservedUnit (h : 3 ≤ unitField w) : firstFailingCheck P w s = .invalidAlgorithm :=
  if_pos (unitField_eq w ▸ h)

theorem firstFailingCheck_reservedOp (hunit : unitField w < 3) (h : 5 ≤ opField w) :
    firstFailingCheck P w s = .invalidArgument := by
  rw [unitField_eq] at hunit
  rw [opField_eq] at h
  exact (if_neg (Nat.not_le.mpr hunit)).trans (if_pos h)

/-- Checks 3 to 5 as the decoder makes them, then the checks of the command (compare `decode_eq_of_codes`). -/
theorem firstFailingCheck_of_codes {u : UnitTag} {o : OpTag} (hunit : unitField w = u.code) (hop : opField w = o.code) :
    firstFailingCheck P w s =
      if zeroField w ≠ 0 then .invalidArgument
      else if usesAlg u o = false ∧ algField w ≠ 0 then .invalidArgument
      else if usesAlg u o = true ∧ tagInRange (algField w) = false then .invalidAlgorithm
      else commandCheck P (Instr.ofFields u o (algField w)) s := by
  have unused : (algField w).toNat ≠ 0 ∧ ¬usesAlg u o = true ↔ usesAlg u o = false ∧ algField w ≠ 0 := by
    rw [Bool.not_eq_true, and_comm, ← BitVec.toNat_inj.ne]
    rfl
  have sameTag : (algField w).toNat = s.kdf.alg.tag.toNat ↔ algField w = s.kdf.alg.tag := BitVec.toNat_inj
  simp only [firstFailingCheck, ← unitField_eq, ← opField_eq, ← algField_toNat, ← zeroField_eq_zero.ne, hunit, hop,
    ← usesAlg_iff, if_neg (Nat.not_le.mpr u.code_lt), if_neg (Nat.not_le.mpr o.code_lt), unused, ← tagInRange_eq_false,
    sameTag.ne]
  refine if_congr Iff.rfl rfl (if_congr Iff.rfl rfl (if_congr Iff.rfl rfl ?_))
  cases u with
  | dig => cases o <;> simp [Instr.ofFields, commandCheck, UnitTag.code, OpTag.code, validOf]
  | hmac => cases o <;> simp [Instr.ofFields, commandCheck, UnitTag.code, OpTag.code, validOf]
  | kdf => cases o <;> simp [Instr.ofFields, commandCheck, UnitTag.code, OpTag.code, validOf, overCapacity_iff]

/-- The table makes the decoder's checks, with the statuses of the illegal words, and then those of the command (R99, R239). -/
theorem firstFailingCheck_eq_decode :
    firstFailingCheck P w s =
      match decode w with
      | .error e => illegalStatus e
      | .ok i => commandCheck P i s := by
  by_cases hunit : 3 ≤ unitField w
  · rw [decode_reservedUnit hunit]
    exact firstFailingCheck_reservedUnit hunit
  by_cases hop : 5 ≤ opField w
  · rw [decode_reservedOp (Nat.not_le.mp hunit) hop]
    exact firstFailingCheck_reservedOp (Nat.not_le.mp hunit) hop
  obtain ⟨u, o, hu, ho⟩ := exists_of_codes_lt (Nat.not_le.mp hunit) (Nat.not_le.mp hop)
  rw [decode_eq_of_codes hu ho, firstFailingCheck_of_codes hu ho]
  split_ifs <;> rfl

end

/-! ### Each command makes its checks -/

/-- The outcome is a next state, with this status returned. -/
def Reports (o : Outcome) (st : StatusCode) : Prop := ∃ t out, o = .next t ∧ t.result = some { st := st, out := out }

section
variable {s : State} {o : Outcome} {st : StatusCode}

theorem reports_complete {out : Bytes} : Reports (complete st out s) st := ⟨_, out, rfl, rfl⟩

theorem reports_raise : Reports (raise st s) st := ⟨_, [], rfl, rfl⟩

/-- A check that raises where it fails, and what comes after it. -/
theorem reports_check {fails : Prop} [Decidable fails] {raised : StatusCode} (h : Reports o st) :
    Reports (if fails then raise raised s else o) (if fails then raised else st) := by
  split
  · exact reports_raise
  · exact h

/-- Check 8, as the command rules write it: the context is there, or `InvalidArgument`. -/
theorem reports_ifPresent {valid : Bool} (h : valid = true → Reports o st) :
    Reports (if valid then o else raise .invalidArgument s) (if valid = false then .invalidArgument else st) := by
  cases valid with
  | true => exact h rfl
  | false => exact reports_raise

/-- DESTROY fails no check, present or absent. -/
theorem reports_destroy {valid : Bool} {t u : State} : Reports (if valid then complete .ok [] t else complete .ok [] u) .ok := by
  split <;> exact reports_complete

/-- `kdf_emit` on a good context makes check 13 (R194, R196). -/
theorem kdfEmit_status_eq {P : Params} {k : KdfCtx} (good : k.Good P) (want : Nat) :
    (kdfEmit P want k).1 = if streamLength k.alg - k.position < want then .sourceExhausted else .ok := by
  have start : k.position ≤ streamLength k.alg := position_le P good.toSound
  have short : streamLength k.alg - k.position < want ↔ ¬k.position + want ≤ streamLength k.alg := by omega
  rw [(kdfEmit_spec P want good).status]
  simp only [short, ite_not]

/-- A well-formed command reports the first of its checks that fails. -/
theorem exec_reports {i : Instr} (wf : i.wellFormed = true) (inv : s.kdf.Inv params) :
    Reports (exec i s) (commandCheck params i s) := by
  cases i with
  | digCreate tag =>
    obtain ⟨a, rfl⟩ := exists_alg_of_tagInRange wf
    rw [exec_digCreate, cmdDigCreate, Alg.ofTag_tag]
    exact reports_check reports_complete
  | digReset | digUpdate | digFinish => exact reports_ifPresent fun _ => reports_complete
  | hmacCreate tag =>
    obtain ⟨a, rfl⟩ := exists_alg_of_tagInRange wf
    rw [exec_hmacCreate, cmdHmacCreate, Alg.ofTag_tag]
    exact reports_check reports_complete
  | hmacReset => exact reports_ifPresent fun _ => reports_complete
  | hmacUpdate | hmacFinish => exact reports_ifPresent fun _ => reports_check reports_complete
  | kdfCreate tag =>
    obtain ⟨a, rfl⟩ := exists_alg_of_tagInRange wf
    rw [exec_kdfCreate, cmdKdfCreate, Alg.ofTag_tag]
    exact reports_check (reports_check (reports_check reports_complete))
  | kdfReset tag =>
    obtain ⟨a, rfl⟩ := exists_alg_of_tagInRange wf
    rw [exec_kdfReset, cmdKdfReset, Alg.ofTag_tag, commandCheck]
    simp only [Alg.tag_inj.ne]
    exact reports_check (reports_check (reports_check (reports_check reports_complete)))
  | kdfUpdate =>
    refine reports_ifPresent fun present => ?_
    rw [← kdfEmit_status_eq (inv.good present)]
    exact reports_complete
  | kdfFinish => exact reports_ifPresent fun _ => reports_complete
  | digDestroy | hmacDestroy | kdfDestroy => exact reports_destroy

/-- Every command word, legal or not, reports the first failing check of the table (R239). -/
theorem runWord_reports (w : BitVec 32) (inv : s.kdf.Inv params) : Reports (runWord w s) (firstFailingCheck params w s) := by
  rw [firstFailingCheck_eq_decode]
  cases word : decode w with
  | error e => exact ⟨_, [], runWord_illegal word s, rfl⟩
  | ok i =>
    rw [runWord_legal word]
    exact exec_reports (decode_eq_ok_iff.mp word).1 inv

/-- The three words of DESTROY on an absent unit (R98, R245). -/
theorem runWord_destroy_absent {w : BitVec 32}
    (h : w = 0x04000000#32 ∧ s.dig.valid = false ∨ w = 0x14000000#32 ∧ s.hm.valid = false
      ∨ w = 0x24000000#32 ∧ s.kdf.valid = false) : runWord w s = .next (okWith [] (surfaceWarning s)) := by
  obtain ⟨word, absent⟩ | ⟨word, absent⟩ | ⟨word, absent⟩ := h
  · rw [runWord_legal (decode_digDestroy.mpr word), exec_digDestroy_absent absent]
  · rw [runWord_legal (decode_hmacDestroy.mpr word), exec_hmacDestroy_absent absent]
  · rw [runWord_legal (decode_kdfDestroy.mpr word), exec_kdfDestroy_absent absent]

end

/-! ### The obligation -/

/-- Settles O58: the word reports the table's status; and DESTROY of an absent unit answers `Ok`, so that is the status. -/
theorem reportsFirstFailingCheck : Obligations.FirstFailingCheck := by
  intro w s inv
  obtain ⟨t, out, answer, result⟩ := runWord_reports w inv
  refine ⟨t, out, answer, result, fun destroy => ?_⟩
  obtain rfl := next_inj (answer.symm.trans (runWord_destroy_absent destroy))
  exact ⟨(congrArg Reply.st (Option.some.inj result)).symm, rfl⟩

end Sys2Proof.Machine
end

section
/-! PROOFS. 70_reset_and_hazards.md: overlapping commands (R275), hardware reset (R270), and what a unit answers before CREATE,
so from reset on (R271); O8, O10 and O12. -/

namespace Sys2Proof

/-- RESET, UPDATE, FINISH and DESTROY carry no tag but for `KDF.RESET` (R95), so no other of them is ill-formed. -/
theorem Instr.eq_kdfReset_of_illFormed {i : Instr} (create : i.op ≠ .create) (illFormed : i.wellFormed ≠ true) :
    ∃ tag : BitVec 8, i = .kdfReset tag ∧ 6 ≤ tag.toNat := by
  cases i with
  | kdfReset tag => exact ⟨tag, rfl, tagInRange_eq_false.mp (Bool.eq_false_of_not_eq_true illFormed)⟩
  | digCreate _ | hmacCreate _ | kdfCreate _ => exact absurd rfl create
  | _ => exact absurd rfl illFormed

end Sys2Proof

namespace Sys2Proof.Machine

/-- Overlapping commands are the one event without a next state (R275). -/
theorem step_overlap {s : State} {a b : Command} {rest : List HostEvent} (h : s.events = .overlap a b :: rest) :
    step s = .fault .overlappingCommands := by simp [step, h]

/-! ### What hardware reset does to the units (R270) -/

@[simp] theorem hardwareReset_dig (s : State) : (hardwareReset s).dig = (dropDig s).dig := rfl
@[simp] theorem hardwareReset_hm (s : State) : (hardwareReset s).hm = (dropHmac (dropDig s)).hm := rfl
@[simp] theorem hardwareReset_kdf (s : State) : (hardwareReset s).kdf = (dropKdf (dropHmac (dropDig s))).kdf := rfl

/-! ### A unit that does not exist (R40, R239) -/

/-- An absent unit refuses every call but CREATE and DESTROY: a well-formed one for the missing context, an ill-formed one for
its tag, which is checked first. -/
theorem exec_absent {i : Instr} {s : State} (create : i.op ≠ .create) (destroy : i.op ≠ .destroy)
    (absent : unitPhase i.unit s = .absent) :
    exec i s = .next (refusedWith (if i.wellFormed then .invalidArgument else .invalidAlgorithm) s) := by
  by_cases wf : i.wellFormed = true
  · rw [if_pos wf]
    rw [unitPhase_eq_absent] at absent
    cases unit : i.unit with
    | dig => exact exec_dig_absent unit create destroy (by rwa [unit] at absent)
    | hmac => exact exec_hmac_absent unit create destroy (by rwa [unit] at absent)
    | kdf => exact exec_kdf_absent unit create destroy wf (by rwa [unit] at absent)
  · rw [if_neg wf]
    obtain ⟨tag, rfl, unrecognised⟩ := Instr.eq_kdfReset_of_illFormed create wf
    exact exec_kdfReset_unrecognised unrecognised

/-- No unit exists at reset (R49), whatever the operands of the first command. -/
theorem unitPhase_reset (u : UnitTag) (a b : Operand) (n : BitVec 32) :
    unitPhase u (State.reset.withOperands a b n) = .absent := by
  cases u <;> rfl

/-! ### The obligations -/

/-- Settles O8: the step of an overlap is the fault. -/
theorem overlappingCommandsStop : Obligations.OverlappingCommandsStop := fun _ _ _ _ => step_overlap

/-- Settles O10: hardware reset drops the three units, and a dropped unit has its own `valid` bit and its children's cleared. -/
theorem hardwareResetClears : Obligations.HardwareResetClears := by
  intro s c rest events
  refine ⟨_, step_hardwareReset events, hardwareReset_events _, hardwareReset_result _, hardwareReset_status _, ?_⟩
  simp only [hardwareReset_dig, hardwareReset_hm, hardwareReset_kdf, dropDig_valid, dropHmac_valid, dropHmac_inner_valid,
    dropHmac_outer_valid, dropKdf_valid, dropKdf_hmac_valid, dropKdf_inner_valid, dropKdf_outer_valid, and_self]

/-- Settles O12: at reset every unit is absent. -/
theorem firstSuccessIsCreateOrDestroy : Obligations.FirstSuccessIsCreateOrDestroy := fun i a b n create destroy =>
  exec_absent create destroy (unitPhase_reset i.unit a b n)

end Sys2Proof.Machine
end
